-- ==== Sys2Proof/Word.lean ====
section
/-! DEFINITION. The widths the RCPU works with (00_scope.md R4): bytes, 32-bit words, 64-bit double words.
Bit 0 is the most significant bit throughout the spec (R5); `BitVec.getMsbD` is that numbering, and it is used
everywhere below. -/
namespace Sys2Proof

/-- One byte of memory. -/
abbrev Byte := BitVec 8

/-- A general register, an address, a special-purpose register, an instruction word (R4, R150). -/
abbrev Word := BitVec 32

/-- A floating-point register, the 64-bit time base (R26, R60). -/
abbrev DWord := BitVec 64

end Sys2Proof
end

