-- ==== Sys2Proof/Syntax.lean ====
section
/-! DEFINITION. The instructions, one constructor per row of spec/opcode_table.json (30_encoding.md R160), with the
operands of each row under the names of its rule, and the names of the special-purpose registers (10_state.md R100). -/
namespace Sys2Proof

/-- The number of a general or floating-point register, or a BO or BI field (R155). -/
abbrev Five := BitVec 5

/-- The number of a 4-bit field of the CR or of the FPSCR (R156). -/
abbrev FieldNum := BitVec 3

/-- The registers the spec lists by name and number without giving them a meaning (R87, R88, R89). -/
inductive UnitReg where
  | cmpa | cmpb | cmpc | cmpd | ecr | der | counta | countb | cmpe | cmpf | cmpg | cmph
  | lctrl1 | lctrl2 | ictrl | bar | dpdr | iccst | icadr | icdat | fpecr
deriving DecidableEq, Repr

/-- The special-purpose registers that `mtspr` or `mfspr` can name (R100). `tbl` and `tbu` are the write numbers 284
and 285 of the time base; the read numbers 268 and 269 belong to `mftb` alone (R290). -/
inductive Spr where
  | xer | lr | ctr
  | dsisr | dar | dec | srr0 | srr1
  | sprg0 | sprg1 | sprg2 | sprg3
  | pvr
  | tbl | tbu
  | eie | eid | nri
  | unit (u : UnitReg)
deriving DecidableEq, Repr

/-- The two halves of the time base that `mftb` reads (R282). -/
inductive Tbr where
  | lower | upper
deriving DecidableEq, Repr

/-- An instruction of the RCPU as this spec admits them (R160). Option bits (AA, LK, OE, Rc, L) are Booleans. -/
inductive Instr where
  /-- R219 -/
  | cmpli (crfD : FieldNum) (l : Bool) (rA : Five) (uimm : BitVec 16)
  /-- R217 -/
  | cmpi (crfD : FieldNum) (l : Bool) (rA : Five) (simm : BitVec 16)
  /-- `addic.`, R246 -/
  | addicDot (rD rA : Five) (simm : BitVec 16)
  /-- R330 -/
  | addi (rD rA : Five) (simm : BitVec 16)
  /-- R264 -/
  | bc (bo bi : Five) (bd : BitVec 14) (aa lk : Bool)
  /-- R314 -/
  | sc
  /-- R263 -/
  | b (li : BitVec 24) (aa lk : Bool)
  /-- R214 -/
  | mcrf (crfD crfS : FieldNum)
  /-- R265 -/
  | bclr (bo bi : Five) (lk : Bool)
  /-- R316 -/
  | rfi
  /-- R266 -/
  | bcctr (bo bi : Five) (lk : Bool)
  /-- `andi.`, R220 -/
  | andiDot (rA rS : Five) (uimm : BitVec 16)
  /-- `andis.`, R221 -/
  | andisDot (rA rS : Five) (uimm : BitVec 16)
  /-- R216 -/
  | cmp (crfD : FieldNum) (l : Bool) (rA rB : Five)
  /-- R245 -/
  | subfc (rD rA rB : Five) (oe rc : Bool)
  /-- R218 -/
  | cmpl (crfD : FieldNum) (l : Bool) (rA rB : Five)
  /-- R310 -/
  | mfmsr (rD : Five)
  /-- R215 -/
  | mtcrf (crm : BitVec 8) (rS : Five)
  /-- R311 -/
  | mtmsr (rS : Five)
  /-- R281 -/
  | mfspr (rD : Five) (spr : BitVec 10)
  /-- R282 -/
  | mftb (rD : Five) (tbr : BitVec 10)
  /-- R280 -/
  | mtspr (spr : BitVec 10) (rS : Five)
  /-- R222 -/
  | mcrxr (crfD : FieldNum)
  /-- R331 -/
  | lwz (rD rA : Five) (d : BitVec 16)
  /-- R193 -/
  | mtfsb1 (crbD : Five) (rc : Bool)
  /-- R189 -/
  | mcrfs (crfD crfS : FieldNum)
  /-- R192 -/
  | mtfsb0 (crbD : Five) (rc : Bool)
  /-- R190 -/
  | mtfsfi (crfD : FieldNum) (imm : BitVec 4) (rc : Bool)
  /-- R191 -/
  | mtfsf (fm : BitVec 8) (frB : Five) (rc : Bool)
deriving DecidableEq, Repr

end Sys2Proof
end

