-- ==== Sys2Proof/WellFormed.lean ====
section
/-! DEFINITION. Which terms of `Instr` an encoding can hold. The widths of the operand types settle all but one
point: the operand L of the four compares must be 0 on this 32-bit processor (30_encoding.md R156, R172). -/
namespace Sys2Proof

/-- `i` has an encoding (R160, R172): a compare has L = 0. -/
def Instr.wellFormed : Instr → Bool
  | .cmpli _ l _ _ => !l
  | .cmpi _ l _ _ => !l
  | .cmp _ l _ _ => !l
  | .cmpl _ l _ _ => !l
  | .addicDot _ _ _ | .addi _ _ _ | .bc _ _ _ _ _ | .sc | .b _ _ _ | .mcrf _ _ | .bclr _ _ _ | .rfi
  | .bcctr _ _ _ | .andiDot _ _ _ | .andisDot _ _ _ | .subfc _ _ _ _ _ | .mfmsr _ | .mtcrf _ _ | .mtmsr _
  | .mfspr _ _ | .mftb _ _ | .mtspr _ _ | .mcrxr _ | .lwz _ _ _ | .mtfsb1 _ _ | .mcrfs _ _ | .mtfsb0 _ _
  | .mtfsfi _ _ _ | .mtfsf _ _ _ => true

end Sys2Proof
end

