-- ==== Sys2Proof/Decode.lean ====
section
/-! DEFINITION. The decoder and, after it, the encoder (30_encoding.md). The decoder follows the opcode map of R160
(match and mask of each row) and the field positions of R152 to R156; the encoder is written from the formats of R151 and
R152 (OPCD, XO and field positions), so that their agreement checks one table of the spec against the other. -/
namespace Sys2Proof

/-- Why a decoder rejects: fewer than four bytes, or a word that is the word of no row of R160 (R171). -/
inductive Reject where
  | truncated
  | noRow (w : Word)
deriving DecidableEq, Repr

/-- The `n` bits of `w` that begin at bit `a`, bit 0 being the most significant (R5): `w[a : a+n-1]`. -/
def fieldOf (w : Word) (a n : Nat) : BitVec n := w.extractLsb' (32 - a - n) n

/-- Bit `i` of `w`, bit 0 being the most significant (R5). -/
def bitOf (w : Word) (i : Nat) : Bool := w.getMsbD i

/-- The SPR or TBR number: its two halves stand swapped in bits 11:20 (R153). -/
def sprField (w : Word) : BitVec 10 := fieldOf w 16 5 ++ fieldOf w 11 5

/-- The four bytes of a word in storage order, the most significant at the lowest address (R123). -/
def wordOfBytes (b0 b1 b2 b3 : Byte) : Word := b0 ++ b1 ++ b2 ++ b3

/-- The bytes of a word in storage order (R123). -/
def bytesOfWord (w : Word) : List Byte := [fieldOf w 0 8, fieldOf w 8 8, fieldOf w 16 8, fieldOf w 24 8]

/-- One row of the opcode map (R160): a word `w` is the instruction iff `w &&& mask = match`. -/
structure OpcodeRow where
  mnemonic : String
  pattern : Word
  mask : Word
  build : Word → Instr

/-- `w` is the word of the row (R160). -/
def OpcodeRow.holds (r : OpcodeRow) (w : Word) : Bool := w &&& r.mask == r.pattern

/-- The opcode map, in the order of R160 (spec/opcode_table.json). -/
def opcodeRows : List OpcodeRow :=
  [
    ⟨"cmpli", 0x28000000#32, 0xFC600000#32, fun w => .cmpli (fieldOf w 6 3) (bitOf w 10) (fieldOf w 11 5) (fieldOf w 16 16)⟩,
    ⟨"cmpi", 0x2C000000#32, 0xFC600000#32, fun w => .cmpi (fieldOf w 6 3) (bitOf w 10) (fieldOf w 11 5) (fieldOf w 16 16)⟩,
    ⟨"addic.", 0x34000000#32, 0xFC000000#32, fun w => .addicDot (fieldOf w 6 5) (fieldOf w 11 5) (fieldOf w 16 16)⟩,
    ⟨"addi", 0x38000000#32, 0xFC000000#32, fun w => .addi (fieldOf w 6 5) (fieldOf w 11 5) (fieldOf w 16 16)⟩,
    ⟨"bc", 0x40000000#32, 0xFC000000#32, fun w => .bc (fieldOf w 6 5) (fieldOf w 11 5) (fieldOf w 16 14) (bitOf w 30) (bitOf w 31)⟩,
    ⟨"sc", 0x44000002#32, 0xFFFFFFFF#32, fun _ => .sc⟩,
    ⟨"b", 0x48000000#32, 0xFC000000#32, fun w => .b (fieldOf w 6 24) (bitOf w 30) (bitOf w 31)⟩,
    ⟨"mcrf", 0x4C000000#32, 0xFC63FFFF#32, fun w => .mcrf (fieldOf w 6 3) (fieldOf w 11 3)⟩,
    ⟨"bclr", 0x4C000020#32, 0xFC00FFFE#32, fun w => .bclr (fieldOf w 6 5) (fieldOf w 11 5) (bitOf w 31)⟩,
    ⟨"rfi", 0x4C000064#32, 0xFFFFFFFF#32, fun _ => .rfi⟩,
    ⟨"bcctr", 0x4C000420#32, 0xFC00FFFE#32, fun w => .bcctr (fieldOf w 6 5) (fieldOf w 11 5) (bitOf w 31)⟩,
    ⟨"andi.", 0x70000000#32, 0xFC000000#32, fun w => .andiDot (fieldOf w 11 5) (fieldOf w 6 5) (fieldOf w 16 16)⟩,
    ⟨"andis.", 0x74000000#32, 0xFC000000#32, fun w => .andisDot (fieldOf w 11 5) (fieldOf w 6 5) (fieldOf w 16 16)⟩,
    ⟨"cmp", 0x7C000000#32, 0xFC6007FF#32, fun w => .cmp (fieldOf w 6 3) (bitOf w 10) (fieldOf w 11 5) (fieldOf w 16 5)⟩,
    ⟨"subfc", 0x7C000010#32, 0xFC0003FE#32, fun w => .subfc (fieldOf w 6 5) (fieldOf w 11 5) (fieldOf w 16 5) (bitOf w 21) (bitOf w 31)⟩,
    ⟨"cmpl", 0x7C000040#32, 0xFC6007FF#32, fun w => .cmpl (fieldOf w 6 3) (bitOf w 10) (fieldOf w 11 5) (fieldOf w 16 5)⟩,
    ⟨"mfmsr", 0x7C0000A6#32, 0xFC1FFFFF#32, fun w => .mfmsr (fieldOf w 6 5)⟩,
    ⟨"mtcrf", 0x7C000120#32, 0xFC100FFF#32, fun w => .mtcrf (fieldOf w 12 8) (fieldOf w 6 5)⟩,
    ⟨"mtmsr", 0x7C000124#32, 0xFC1FFFFF#32, fun w => .mtmsr (fieldOf w 6 5)⟩,
    ⟨"mfspr", 0x7C0002A6#32, 0xFC0007FF#32, fun w => .mfspr (fieldOf w 6 5) (sprField w)⟩,
    ⟨"mftb", 0x7C0002E6#32, 0xFC0007FF#32, fun w => .mftb (fieldOf w 6 5) (sprField w)⟩,
    ⟨"mtspr", 0x7C0003A6#32, 0xFC0007FF#32, fun w => .mtspr (sprField w) (fieldOf w 6 5)⟩,
    ⟨"mcrxr", 0x7C000400#32, 0xFC7FFFFF#32, fun w => .mcrxr (fieldOf w 6 3)⟩,
    ⟨"lwz", 0x80000000#32, 0xFC000000#32, fun w => .lwz (fieldOf w 6 5) (fieldOf w 11 5) (fieldOf w 16 16)⟩,
    ⟨"mtfsb1", 0xFC00004C#32, 0xFC1FFFFE#32, fun w => .mtfsb1 (fieldOf w 6 5) (bitOf w 31)⟩,
    ⟨"mcrfs", 0xFC000080#32, 0xFC63FFFF#32, fun w => .mcrfs (fieldOf w 6 3) (fieldOf w 11 3)⟩,
    ⟨"mtfsb0", 0xFC00008C#32, 0xFC1FFFFE#32, fun w => .mtfsb0 (fieldOf w 6 5) (bitOf w 31)⟩,
    ⟨"mtfsfi", 0xFC00010C#32, 0xFC7F0FFE#32, fun w => .mtfsfi (fieldOf w 6 3) (fieldOf w 16 4) (bitOf w 31)⟩,
    ⟨"mtfsf", 0xFC00058E#32, 0xFE0107FE#32, fun w => .mtfsf (fieldOf w 7 8) (fieldOf w 16 5) (bitOf w 31)⟩
  ]

/-- The instruction a word stands for, or its rejection (R160, R171). -/
def decodeWord (w : Word) : Except Reject Instr :=
  match opcodeRows.find? (fun r => r.holds w) with
  | some r => .ok (r.build w)
  | none => .error (.noRow w)

/-- The decoder: the instruction in the first four bytes (R150: every instruction is one 32-bit word). -/
def decode : List Byte → Except Reject Instr
  | b0 :: b1 :: b2 :: b3 :: _ => decodeWord (wordOfBytes b0 b1 b2 b3)
  | _ => .error .truncated

/-- The host's question: the instruction the decoder reads from the word whose number is `w`. The table numbers the bits
of its 32-bit words from the least significant one; the bytes go to the decoder as the hardware stores them (R123). -/
def decodeTableWord (nbits w : Nat) : Option Instr :=
  match decode (bytesOfWord (BitVec.ofNat 32 (w % 2 ^ nbits))) with
  | .ok i => some i
  | .error _ => none

/-- A field value put at bits `a : a+n-1` of a word that is zero elsewhere (R5). -/
def place {n : Nat} (x : BitVec n) (a : Nat) : Word := x.setWidth 32 <<< (32 - a - n)

/-- One option bit at bit `i` (R5). -/
def placeBit (x : Bool) (i : Nat) : Word := place (BitVec.ofBool x) i

/-- Format D (R152): OPCD, two register fields, a 16-bit immediate. -/
def formD (opcd : BitVec 6) (d a : Five) (imm : BitVec 16) : Word :=
  place opcd 0 ||| place d 6 ||| place a 11 ||| place imm 16

/-- Format D of the compares (R152): crfD, a zero, L, rA, a 16-bit immediate. -/
def formDCompare (opcd : BitVec 6) (crfD : FieldNum) (l : Bool) (a : Five) (imm : BitVec 16) : Word :=
  place opcd 0 ||| place crfD 6 ||| placeBit l 10 ||| place a 11 ||| place imm 16

/-- Formats X, XL and XFX (R152): OPCD, three 5-bit fields, a 10-bit XO, and the last bit (Rc, LK or 0). -/
def formX (opcd : BitVec 6) (d a b : Five) (xo : BitVec 10) (last : Bool) : Word :=
  place opcd 0 ||| place d 6 ||| place a 11 ||| place b 16 ||| place xo 21 ||| placeBit last 31

/-- Format X with CR or FPSCR field numbers at 6:8 and 11:13 (R152). -/
def formXFields (opcd : BitVec 6) (crfD crfS : FieldNum) (b : Five) (xo : BitVec 10) (last : Bool) : Word :=
  place opcd 0 ||| place crfD 6 ||| place crfS 11 ||| place b 16 ||| place xo 21 ||| placeBit last 31

/-- Format X of the compares (R152). -/
def formXCompare (crfD : FieldNum) (l : Bool) (a b : Five) (xo : BitVec 10) : Word :=
  place 31#6 0 ||| place crfD 6 ||| placeBit l 10 ||| place a 11 ||| place b 16 ||| place xo 21

/-- The instruction words (R151, R152): the encoder. -/
def encode : Instr → Word
  | .cmpli crfD l rA uimm => formDCompare 10 crfD l rA uimm
  | .cmpi crfD l rA simm => formDCompare 11 crfD l rA simm
  | .addicDot rD rA simm => formD 13 rD rA simm
  | .addi rD rA simm => formD 14 rD rA simm
  | .bc bo bi bd aa lk => place 16#6 0 ||| place bo 6 ||| place bi 11 ||| place bd 16 ||| placeBit aa 30 ||| placeBit lk 31
  | .sc => place 17#6 0 ||| placeBit true 30
  | .b li aa lk => place 18#6 0 ||| place li 6 ||| placeBit aa 30 ||| placeBit lk 31
  | .mcrf crfD crfS => formXFields 19 crfD crfS 0 0 false
  | .bclr bo bi lk => formX 19 bo bi 0 16 lk
  | .rfi => formX 19 0 0 0 50 false
  | .bcctr bo bi lk => formX 19 bo bi 0 528 lk
  | .andiDot rA rS uimm => formD 28 rS rA uimm
  | .andisDot rA rS uimm => formD 29 rS rA uimm
  | .cmp crfD l rA rB => formXCompare crfD l rA rB 0
  | .subfc rD rA rB oe rc =>
    place 31#6 0 ||| place rD 6 ||| place rA 11 ||| place rB 16 ||| placeBit oe 21 ||| place 8#9 22 ||| placeBit rc 31
  | .cmpl crfD l rA rB => formXCompare crfD l rA rB 32
  | .mfmsr rD => formX 31 rD 0 0 83 false
  | .mtcrf crm rS => place 31#6 0 ||| place rS 6 ||| place crm 12 ||| place 144#10 21
  | .mtmsr rS => formX 31 rS 0 0 146 false
  | .mfspr rD spr => formX 31 rD (spr.extractLsb' 0 5) (spr.extractLsb' 5 5) 339 false
  | .mftb rD tbr => formX 31 rD (tbr.extractLsb' 0 5) (tbr.extractLsb' 5 5) 371 false
  | .mtspr spr rS => formX 31 rS (spr.extractLsb' 0 5) (spr.extractLsb' 5 5) 467 false
  | .mcrxr crfD => formXFields 31 crfD 0 0 512 false
  | .lwz rD rA d => formD 32 rD rA d
  | .mtfsb1 crbD rc => formX 63 crbD 0 0 38 rc
  | .mcrfs crfD crfS => formXFields 63 crfD crfS 0 64 false
  | .mtfsb0 crbD rc => formX 63 crbD 0 0 70 rc
  | .mtfsfi crfD imm rc => place 63#6 0 ||| place crfD 6 ||| place imm 16 ||| place 134#10 21 ||| placeBit rc 31
  | .mtfsf fm frB rc => place 63#6 0 ||| place fm 7 ||| place frB 16 ||| place 711#10 21 ||| placeBit rc 31

end Sys2Proof
end

