-- ==== Sys2Proof/Config.lean ====
section
/-! DEFINITION. What an implementation or the platform fixes (00_scope.md R4), and the free values: opaque
constants, so that no proof can lean on what they are. -/
namespace Sys2Proof.Config

/-- FREE VALUE (log 9). The exception-specific information of R354: what SRR1[0:15] receives at the `k`-th exception
entry. The source does not give it (D14), so nothing is known of it. -/
opaque exceptionInfo : Nat → BitVec 16

/-- FREE VALUE (log 10). The parameter `fx_on_mtfsf` of R4 and R185: whether `mtfsf` and `mtfsfi` set FPSCR[FX] when
they raise an exception bit without writing field 0. Every claim holds for both values (D21). -/
opaque fxOnMtfsf : Bool

/-- DESIGN CHOICE (log 2, unsafe). The parameter `reset_ip` of R4 as `State.reset` takes it: MSR[IP] after reset.
`State.powerOn` takes it as an argument. -/
def resetIp : Bool := false

/-- The exception vector table with MSR[IP] = 0 (R350). -/
def lowVectorBase : Word := 0x00000000#32

/-- The exception vector table with MSR[IP] = 1 (R350, conflict C3). -/
def highVectorBase : Word := 0xFFF00000#32

end Sys2Proof.Config
end

