-- ==== Sys2Proof/Machine/State.lean ====
section
/-! DEFINITION. The state of one RCPU (10_state.md R20) as plain data, the reasons a step can stop, and reset
(10_state.md R110, 70_reset_and_hazards.md R390 to R392). -/
namespace Sys2Proof.Machine

/-- Memory: the bytes that are plain memory, with their contents, addresses strictly rising. Its domain is the parameter
`mem_map` of R4 and R121: an address that is not listed is not memory (log 6). -/
abbrev Memory := List Host.Cell

/-- The exceptions of the vector table (R350). The model takes `externalInterrupt`, `program`, `fpUnavailable`,
`decrementer`, `systemCall` and `softwareEmulation`; `systemReset` gives the place where execution starts (R392); the
others are listed by the spec and never taken (R363 to R367). -/
inductive ExceptionKind where
  | systemReset | machineCheck | dataAccess | instructionAccess | externalInterrupt | alignment | program
  | fpUnavailable | decrementer | systemCall | trace | fpAssist | softwareEmulation
deriving DecidableEq, Repr

/-- What the processor prefers to do at an instruction boundary (R362). A preference for an exception that is not
pending and enabled lets the instruction run. -/
inductive Recognition where
  /-- Execute the instruction at `pc`. -/
  | execute
  /-- Take the external interrupt if it is pending and enabled. -/
  | external
  /-- Take the decrementer exception if it is pending and enabled. -/
  | decrementer
  /-- Take a pending enabled exception if there is one, the external interrupt first. -/
  | anyPending
deriving DecidableEq, Repr

/-- Whose step comes next (R362, R370, R371): the agents interleave in any order, and the order is data (log 7). -/
inductive Turn where
  /-- The processor: one instruction, or one asynchronous exception. -/
  | processor (r : Recognition)
  /-- One step of the time-base agent (R370). -/
  | timeBase
  /-- One step of the decrementer agent (R371). -/
  | decrementer
  /-- The environment sets the level of the external interrupt request input (R360). -/
  | externalRequest (level : Bool)
deriving DecidableEq, Repr

/-- The registers the spec names without giving them a meaning (R87, R88, R89), 32 bits each (R4). No instruction
reaches them (R297). -/
structure UnitRegs where
  cmpa : Word
  cmpb : Word
  cmpc : Word
  cmpd : Word
  ecr : Word
  der : Word
  counta : Word
  countb : Word
  cmpe : Word
  cmpf : Word
  cmpg : Word
  cmph : Word
  lctrl1 : Word
  lctrl2 : Word
  ictrl : Word
  bar : Word
  dpdr : Word
  iccst : Word
  icadr : Word
  icdat : Word
  fpecr : Word
deriving DecidableEq, Repr

/-- The whole state (R20). -/
structure State where
  /-- GPR0 to GPR31 (R21) -/
  gpr : Vector Word 32
  /-- FPR0 to FPR31 (R26) -/
  fpr : Vector DWord 32
  /-- The storable bits of the FPSCR; FEX (bit 1), VX (bit 2) and bit 20 are no storage (R30, R32, R33) -/
  fpscr : Word
  /-- CR (R45) -/
  cr : Word
  /-- XER, SPR 1 (R50) -/
  xer : Word
  /-- LR, SPR 8 (R55) -/
  lr : Word
  /-- CTR, SPR 9 (R57) -/
  ctr : Word
  /-- TB = TBU || TBL (R60) -/
  tb : DWord
  /-- MSR (R65) -/
  msr : Word
  /-- DSISR, SPR 18 (R75) -/
  dsisr : Word
  /-- DAR, SPR 19 (R76) -/
  dar : Word
  /-- DEC, SPR 22 (R77) -/
  dec : Word
  /-- `dec_req`: a decrementer exception request is pending (R78) -/
  decReq : Bool
  /-- SRR0, SPR 26 (R80) -/
  srr0 : Word
  /-- SRR1[0:15]: exception-specific information (R81) -/
  srr1Info : BitVec 16
  /-- SRR1[16:31]: the saved MSR[16:31] (R81) -/
  srr1Msr : BitVec 16
  /-- SPRG0, SPR 272 (R82) -/
  sprg0 : Word
  /-- SPRG1, SPR 273 (R82) -/
  sprg1 : Word
  /-- SPRG2, SPR 274 (R82) -/
  sprg2 : Word
  /-- SPRG3, SPR 275 (R82) -/
  sprg3 : Word
  /-- PVR, SPR 287, read-only: the constant `pvr_value` (R83) -/
  pvr : Word
  /-- ICCST, ICADR, ICDAT, the development-support registers, FPECR (R87 to R89) -/
  units : UnitRegs
  /-- The address of the instruction being executed (R24) -/
  pc : Word
  /-- The external interrupt request input `ext_irq` (R115, R360) -/
  extIrq : Bool
  /-- Memory (R121) -/
  mem : Memory
  /-- The model's own field: the turns still to come; empty means the processor's turn with `anyPending` (log 7) -/
  schedule : List Turn
  /-- The model's own field: how many free values have been drawn (log 9) -/
  draws : Nat
deriving DecidableEq, Repr

/-- Why the machine stops with a fault. -/
inductive Fault where
  /-- Raised by an instruction fetch and by `lwz` when a byte of the word at `addr` is not memory (R121). Safe: the
  model has no step where the hardware may go on. -/
  | outsideMemMap (addr : Word)
deriving DecidableEq, Repr

/-- Why the model gives no meaning. All are safe: the model stops where the spec says it has no step. -/
inductive Refusal where
  /-- Raised by an arm of `exec` whose instruction has no meaning yet. -/
  | notModelled (mnemonic : String)
  /-- Raised by the fetch of a word that is the word of no row of the opcode map (R171). -/
  | noSuchInstruction (w : Word)
  /-- Raised by an instruction fetch and by `lwz` while MSR[LE] = 1 (R123). -/
  | littleEndianAccess
  /-- Raised by every exception entry while MSR[ILE] = 1 (R352). -/
  | littleEndianEntry
  /-- Raised by an instruction fetch while MSR[SE] = 1 or MSR[BE] = 1 (R364, R267). -/
  | tracing
  /-- Raised when FPSCR[FEX] = 1 and MSR[FE0] or MSR[FE1] is 1: by the FPSCR moves, the writes of the MSR and at an
  instruction boundary (R186, R348). -/
  | fpEnabledException
  /-- Raised by `lwz` at an address that is no multiple of 4 (R125). -/
  | misalignedAccess (addr : Word)
  /-- Raised by a compare with L = 1, which no encoding holds (R172). -/
  | compareDoubleword
  /-- Raised by `bcctr` with BO[2] = 0 (R266). -/
  | bcctrWithDecrement
  /-- Raised by `mtspr`, `mfspr` and `mftb` with a number that is not listed for that direction (R298). -/
  | unlistedSpr (n : BitVec 10)
  /-- Raised by `mtspr` to PVR at supervisor level (R296). -/
  | readOnlyPvr
  /-- Raised by `mtspr` and `mfspr` at supervisor level naming a register the source lists without defining (R297). -/
  | undescribedRegister (u : UnitReg)
deriving DecidableEq, Repr

/-- Every unit register zero (log 5). -/
def UnitRegs.zero : UnitRegs :=
  { cmpa := 0, cmpb := 0, cmpc := 0, cmpd := 0, ecr := 0, der := 0, counta := 0, countb := 0, cmpe := 0, cmpf := 0,
    cmpg := 0, cmph := 0, lctrl1 := 0, lctrl2 := 0, ictrl := 0, bar := 0, dpdr := 0, iccst := 0, icadr := 0, icdat := 0,
    fpecr := 0 }

/-- The values `State.reset` names for everything the spec leaves without a reset value: zero, no request, no memory
listed, no turn listed (DESIGN CHOICE, logs 1 to 7). -/
def State.zeroed : State :=
  { gpr := Vector.replicate 32 0, fpr := Vector.replicate 32 0, fpscr := 0, cr := 0, xer := 0, lr := 0, ctr := 0,
    tb := 0, msr := 0, dsisr := 0, dar := 0, dec := 0, decReq := false, srr0 := 0, srr1Info := 0, srr1Msr := 0,
    sprg0 := 0, sprg1 := 0, sprg2 := 0, sprg3 := 0, pvr := 0, units := UnitRegs.zero, pc := 0, extIrq := false,
    mem := [], schedule := [], draws := 0 }

/-- The machine right after power-on with `reset_ip = ip`, when every piece of state that reset does not write holds what
`held` says (R110, R390): the MSR is zero but for ME, which reset leaves alone, and IP (R67); execution starts at the
system reset vector (R392); reserved bits hold nothing (R23). Every state the spec admits after reset is
`State.powerOn ip held` for some `ip` and `held`. -/
def State.powerOn (ip : Bool) (held : State) : State :=
  { held with
    msr := (held.msr &&& 0x00001000#32) ||| (if ip then 0x00000040#32 else 0#32)
    pc := (if ip then Config.highVectorBase else Config.lowVectorBase) + 0x00000100#32
    xer := held.xer &&& 0xE000FF7F#32
    fpscr := held.fpscr &&& 0x9FFFF7FF#32 }

/-- The machine right after reset (R110, R392): the values the spec states, and for the rest the values of
`State.zeroed` and `Config.resetIp` (DESIGN CHOICE, unsafe; logs 1 to 7). -/
def State.reset : State := State.powerOn Config.resetIp State.zeroed

end Sys2Proof.Machine
end

