-- ==== Sys2Proof/Machine/Ops.lean ====
section
/-! DEFINITION. The operations the instructions share: bits and 4-bit fields of a word (00_scope.md R5), memory
(20_memory.md R121, R123), the registers and their write masks (10_state.md R23, R50, R66; 40_fpscr_moves.md R184), the
counters (10 R60, R78), exception entry (60_exceptions.md R352 to R355) and the return from one (45_msr_access.md R316). -/
namespace Sys2Proof.Machine

/-- What a meaning answers. -/
abbrev Result := Host.Outcome State Fault Refusal

/-! ## Bits and fields of a word -/

/-- The mask of bit `i`, bit 0 being the most significant (R5). -/
def bitMask (i : Nat) : Word := 0x80000000#32 >>> i

/-- `v` with bit `i` (R5) made `b`. -/
def withBit (v : Word) (i : Nat) (b : Bool) : Word := (v &&& ~~~(bitMask i)) ||| (if b then bitMask i else 0#32)

/-- `FM4(i)`: the mask of 4-bit field `i` of the CR or the FPSCR (40_fpscr_moves.md, helper). -/
def fieldMask (n : FieldNum) : Word := 0xF0000000#32 >>> (4 * n.toNat)

/-- Field `n` of a word: bits `4n : 4n+3` (R45). -/
def fieldAt (v : Word) (n : FieldNum) : BitVec 4 := v.extractLsb' (28 - 4 * n.toNat) 4

/-- `v` with field `n` made `f` (R214). -/
def withField (v : Word) (n : FieldNum) (f : BitVec 4) : Word :=
  (v &&& ~~~(fieldMask n)) ||| (f.setWidth 32 <<< (28 - 4 * n.toNat))

/-! ## Memory -/

/-- The byte at address `a`, if `a` is memory (R121). -/
def Memory.read : Memory → Nat → Option Byte
  | [], _ => none
  | (k, b) :: rest, a => if k = a then some b else Memory.read rest a

/-- Memory with the byte `b` at address `a`, in rising order (R121). -/
def Memory.write : Memory → Nat → Byte → Memory
  | [], a, b => [(a, b)]
  | (k, c) :: rest, a, b =>
    if a < k then (a, b) :: (k, c) :: rest
    else if a = k then (k, b) :: rest
    else (k, c) :: Memory.write rest a b

/-- The canonical form from address `lo` on: addresses at least `lo`, strictly rising, below 2^32. -/
def Memory.wfFrom (lo : Nat) : Memory → Bool
  | [] => true
  | (k, _) :: rest => decide (lo ≤ k) && decide (k < 2 ^ 32) && Memory.wfFrom (k + 1) rest

/-- The canonical form: addresses strictly rising, below 2^32. (An unlisted address is not memory, so no entry can be
equal to what an unlisted address reads as.) -/
def Memory.wf (m : Memory) : Bool := Memory.wfFrom 0 m

/-- `MemWrite(addr, 4, v)` in big-endian order, addresses modulo 2^32 (R121, R123). No instruction stores (R170); this is
how a program is loaded from outside (log 6). -/
def Memory.writeWord (m : Memory) (a : Word) (v : Word) : Memory :=
  (((m.write a.toNat (fieldOf v 0 8)).write (a + 1#32).toNat (fieldOf v 8 8)).write (a + 2#32).toNat
    (fieldOf v 16 8)).write (a + 3#32).toNat (fieldOf v 24 8)

/-- The byte at address `a` (R121). -/
def State.readByte (s : State) (a : Word) : Option Byte := s.mem.read a.toNat

/-- `MemRead(a, 4)`: the big-endian word at `a`, addresses modulo 2^32, if its four bytes are memory (R121, R123). -/
def State.memRead (s : State) (a : Word) : Option Word :=
  match s.readByte a, s.readByte (a + 1#32), s.readByte (a + 2#32), s.readByte (a + 3#32) with
  | some b0, some b1, some b2, some b3 => some (wordOfBytes b0 b1 b2 b3)
  | _, _, _, _ => none

/-! ## Registers -/

/-- `x[r]`: general register `r` (R6, R21). -/
def State.gprAt (s : State) (r : Five) : Word := s.gpr[r.toNat]'r.isLt

/-- `x[r] <- v` (R6, R21). -/
def State.setGpr (s : State) (r : Five) (v : Word) : State := { s with gpr := s.gpr.set r.toNat v r.isLt }

/-- `f[r]`: floating-point register `r` (R6, R26). -/
def State.fprAt (s : State) (r : Five) : DWord := s.fpr[r.toNat]'r.isLt

/-- The instruction is done: the next one is at `pc + 4`, modulo 2^32 (R25). -/
def State.advance (s : State) : State := { s with pc := s.pc + 4#32 }

/-- Branch to `target` (R25). -/
def State.branchTo (s : State) (target : Word) : State := { s with pc := target }

/-- `LR <- pc + 4` when the link option is set (R262). -/
def State.link (s : State) (lk : Bool) : State := { s with lr := if lk then s.pc + 4#32 else s.lr }

/-- Field `n` of the CR made `f` (R45). -/
def State.setCrField (s : State) (n : FieldNum) (f : BitVec 4) : State := { s with cr := withField s.cr n f }

/-- A write of the XER: bits 3:15 and 24 are ignored (R50). -/
def State.setXer (s : State) (v : Word) : State := { s with xer := v &&& 0xE000FF7F#32 }

/-- `FpscrStore(v)`: FEX, VX and bit 20 cannot be written (R184). -/
def State.setFpscr (s : State) (v : Word) : State := { s with fpscr := v &&& 0x9FFFF7FF#32 }

/-- A write of the MSR: reserved bits are ignored (R66). -/
def State.setMsr (s : State) (v : Word) : State := { s with msr := v &&& 0x0001FF43#32 }

/-- A new DEC value, by software (R288) or by counting (R371): a request is signalled when bit 0 goes from 0 to 1; a
pending request stays (R78). -/
def State.setDec (s : State) (v : Word) : State :=
  { s with dec := v, decReq := s.decReq || (!bitOf s.dec 0 && bitOf v 0) }

/-- TBU = TB[0:31] (R60). -/
def State.tbu (s : State) : Word := s.tb.extractLsb' 32 32

/-- TBL = TB[32:63] (R60). -/
def State.tbl (s : State) : Word := s.tb.extractLsb' 0 32

/-- A write of TBU leaves TBL as it is (R61). -/
def State.setTbu (s : State) (v : Word) : State := { s with tb := v ++ s.tbl }

/-- A write of TBL leaves TBU as it is (R61). -/
def State.setTbl (s : State) (v : Word) : State := { s with tb := s.tbu ++ v }

/-- SRR1 as one register (R81). -/
def State.srr1 (s : State) : Word := s.srr1Info ++ s.srr1Msr

/-- A write of all 32 bits of SRR1 (R287). -/
def State.setSrr1 (s : State) (v : Word) : State := { s with srr1Info := v.extractLsb' 16 16, srr1Msr := v.extractLsb' 0 16 }

/-! ## The bits of the MSR (R65) -/

/-- MSR[ILE] -/
def State.ile (s : State) : Bool := bitOf s.msr 15
/-- MSR[EE] -/
def State.ee (s : State) : Bool := bitOf s.msr 16
/-- MSR[PR]: user level -/
def State.pr (s : State) : Bool := bitOf s.msr 17
/-- MSR[FP] -/
def State.fp (s : State) : Bool := bitOf s.msr 18
/-- MSR[FE0] | MSR[FE1]: floating-point precise mode (R70) -/
def State.fpPrecise (s : State) : Bool := bitOf s.msr 20 || bitOf s.msr 23
/-- MSR[SE] | MSR[BE]: tracing (R364) -/
def State.traced (s : State) : Bool := bitOf s.msr 21 || bitOf s.msr 22
/-- MSR[IP] -/
def State.ip (s : State) : Bool := bitOf s.msr 25
/-- MSR[LE] -/
def State.le (s : State) : Bool := bitOf s.msr 31

/-! ## Exceptions -/

/-- Where the exception vector table starts (R350). -/
def vectorBase (ip : Bool) : Word := if ip then Config.highVectorBase else Config.lowVectorBase

/-- The offset of each exception in the vector table (R350). -/
def ExceptionKind.offset : ExceptionKind → Word
  | .systemReset => 0x00100#32
  | .machineCheck => 0x00200#32
  | .dataAccess => 0x00300#32
  | .instructionAccess => 0x00400#32
  | .externalInterrupt => 0x00500#32
  | .alignment => 0x00600#32
  | .program => 0x00700#32
  | .fpUnavailable => 0x00800#32
  | .decrementer => 0x00900#32
  | .systemCall => 0x00C00#32
  | .trace => 0x00D00#32
  | .fpAssist => 0x00E00#32
  | .softwareEmulation => 0x01000#32

/-- The MSR after exception entry (R355): EE, PR, FP, FE0, SE, BE, FE1 and RI are cleared, LE becomes ILE, and ILE, ME
and IP stay. -/
def entryMsr (m : Word) : Word := (m &&& 0x00011040#32) ||| (if bitOf m 15 then 0x00000001#32 else 0#32)

/-- `Take(E, resume)` (R352): the one way any exception is taken. SRR1[0:15] receives a free value (log 9). -/
def State.take (s : State) (e : ExceptionKind) (resume : Word) : Result :=
  if s.ile then .refused .littleEndianEntry
  else .next
    { s with
      srr0 := resume
      srr1Info := Config.exceptionInfo s.draws
      srr1Msr := s.msr.extractLsb' 0 16
      draws := s.draws + 1
      msr := entryMsr s.msr
      decReq := if e = .decrementer then false else s.decReq
      pc := vectorBase s.ip + e.offset }

/-- The state a return from an exception restores (R316): MSR[16:31] from SRR1[16:31], MSR[0:15] kept, `pc` from SRR0
without its two low-order bits. -/
def State.returnFromException (s : State) : State :=
  (s.setMsr ((s.msr &&& 0xFFFF0000#32) ||| s.srr1Msr.setWidth 32)).branchTo (s.srr0 &&& 0xFFFFFFFC#32)

/-! ## The agents beside the instruction stream -/

/-- One step of the time-base agent (R370). -/
def State.tickTimeBase (s : State) : State := { s with tb := s.tb + 1#64 }

/-- One step of the decrementer agent (R371). -/
def State.tickDecrementer (s : State) : State := s.setDec (s.dec - 1#32)

/-- The environment sets the external interrupt request input (R360). -/
def State.setExtIrq (s : State) (level : Bool) : State := { s with extIrq := level }

/-- The turn that comes next (log 7). -/
def State.nextTurn (s : State) : Turn := s.schedule.headD (.processor .anyPending)

/-- That turn taken off the schedule (log 7). -/
def State.popTurn (s : State) : State := { s with schedule := s.schedule.tail }

end Sys2Proof.Machine
end

