-- ==== Sys2Proof/Machine/Operands.lean ====
section
/-! DEFINITION. The operand forms (30_encoding.md R153 to R156): immediates, the base register that reads as zero,
displacements and branch targets, field masks, and the special-purpose register numbers with their level and direction
(10_state.md R100). -/
namespace Sys2Proof.Machine

/-! ## Immediates and addresses -/

/-- `sext_32(SIMM)` (R154). -/
def signedImm (x : BitVec 16) : Word := x.signExtend 32

/-- `zext_32(UIMM)` (R154). -/
def unsignedImm (x : BitVec 16) : Word := x.setWidth 32

/-- `UIMM || 0x0000` (R154). -/
def shiftedImm (x : BitVec 16) : Word := x ++ 0#16

/-- `(rA|0)`: register number 0 means the value zero (R330, R331). -/
def State.baseOrZero (s : State) (rA : Five) : Word := if rA = 0#5 then 0#32 else s.gprAt rA

/-- The effective address of `lwz`, modulo 2^32 (R331). -/
def State.effectiveAddress (s : State) (rA : Five) (d : BitVec 16) : Word := s.baseOrZero rA + signedImm d

/-- An address used as an instruction address: the two low-order bits are ignored (R260). -/
def instructionAddress (v : Word) : Word := v &&& 0xFFFFFFFC#32

/-- `sext_32(LI || 0b00)` (R154). -/
def displacement24 (li : BitVec 24) : Word := (li ++ 0#2).signExtend 32

/-- `sext_32(BD || 0b00)` (R154). -/
def displacement14 (bd : BitVec 14) : Word := (bd ++ 0#2).signExtend 32

/-- The target of `b` and `bc` (R263, R264). -/
def State.branchTarget (s : State) (aa : Bool) (disp : Word) : Word := if aa then disp else s.pc + disp

/-! ## Branch conditions (R155) -/

/-- BO[2] = 0: the count register is decremented and tested (R155). -/
def decrementsCtr (bo : Five) : Bool := !bo.getMsbD 2

/-- The count register after the decrement that BO asks for (R261). -/
def State.countAfter (s : State) (bo : Five) : Word := if decrementsCtr bo then s.ctr - 1#32 else s.ctr

/-- `cond_ok` (R264): BO[0] = 1, or CR bit BI equals BO[1]. -/
def State.conditionHolds (s : State) (bo bi : Five) : Bool :=
  bo.getMsbD 0 || (bitOf s.cr bi.toNat == bo.getMsbD 1)

/-- `ctr_ok` (R264), on the count after the decrement: BO[2] = 1, or (CTR ≠ 0) xor BO[3]. -/
def countTest (bo : Five) (count : Word) : Bool := bo.getMsbD 2 || (count != 0#32) ^^ bo.getMsbD 3

/-- `BranchCond(BO, BI)` without the decrement itself (43_branches.md, section 2). -/
def State.branchTaken (s : State) (bo bi : Five) : Bool := countTest bo (s.countAfter bo) && s.conditionHolds bo bi

/-! ## Field masks -/

/-- The OR of `FM4(i)` over the bits `i` of an 8-bit field mask, bit 0 the leftmost (CRM of R215, FM of R191). -/
def fieldsMask (m : BitVec 8) : Word :=
  (List.range 8).foldl (fun acc i => if m.getMsbD i then acc ||| fieldMask (BitVec.ofNat 3 i) else acc) 0#32

/-! ## Special-purpose register numbers -/

/-- The register an SPR number names in `mtspr` and `mfspr`; 268 and 269 are no SPR numbers (R100, R290). -/
def sprOfNumber (n : BitVec 10) : Option Spr :=
  match n.toNat with
  | 1 => some .xer
  | 8 => some .lr
  | 9 => some .ctr
  | 18 => some .dsisr
  | 19 => some .dar
  | 22 => some .dec
  | 26 => some .srr0
  | 27 => some .srr1
  | 80 => some .eie
  | 81 => some .eid
  | 82 => some .nri
  | 144 => some (.unit .cmpa)
  | 145 => some (.unit .cmpb)
  | 146 => some (.unit .cmpc)
  | 147 => some (.unit .cmpd)
  | 148 => some (.unit .ecr)
  | 149 => some (.unit .der)
  | 150 => some (.unit .counta)
  | 151 => some (.unit .countb)
  | 152 => some (.unit .cmpe)
  | 153 => some (.unit .cmpf)
  | 154 => some (.unit .cmpg)
  | 155 => some (.unit .cmph)
  | 156 => some (.unit .lctrl1)
  | 157 => some (.unit .lctrl2)
  | 158 => some (.unit .ictrl)
  | 159 => some (.unit .bar)
  | 272 => some .sprg0
  | 273 => some .sprg1
  | 274 => some .sprg2
  | 275 => some .sprg3
  | 284 => some .tbl
  | 285 => some .tbu
  | 287 => some .pvr
  | 560 => some (.unit .iccst)
  | 561 => some (.unit .icadr)
  | 562 => some (.unit .icdat)
  | 630 => some (.unit .dpdr)
  | 1022 => some (.unit .fpecr)
  | _ => none

/-- The half of the time base a TBR number names in `mftb` (R282). -/
def tbrOfNumber (n : BitVec 10) : Option Tbr :=
  match n.toNat with
  | 268 => some .lower
  | 269 => some .upper
  | _ => none

/-- XER, LR and CTR are user level; every other special-purpose register is supervisor level (R283). -/
def sprSupervisor : Spr → Bool
  | .xer | .lr | .ctr => false
  | .dsisr | .dar | .dec | .srr0 | .srr1 | .sprg0 | .sprg1 | .sprg2 | .sprg3 | .pvr | .tbl | .tbu
  | .eie | .eid | .nri | .unit _ => true

/-- The register an SPR number names for reading: the write numbers of the time base are no read numbers (R290, R298). -/
def sprForRead (n : BitVec 10) : Option Spr :=
  match sprOfNumber n with
  | some .tbl => none
  | some .tbu => none
  | r => r

/-- What `mfspr` reads from a register that can be read (R281); `none` for EIE, EID and NRI, for the write numbers of the
time base, and for the registers the spec does not describe. -/
def State.sprValue (s : State) : Spr → Option Word
  | .xer => some s.xer
  | .lr => some s.lr
  | .ctr => some s.ctr
  | .dsisr => some s.dsisr
  | .dar => some s.dar
  | .dec => some s.dec
  | .srr0 => some s.srr0
  | .srr1 => some s.srr1
  | .sprg0 => some s.sprg0
  | .sprg1 => some s.sprg1
  | .sprg2 => some s.sprg2
  | .sprg3 => some s.sprg3
  | .pvr => some s.pvr
  | .tbl | .tbu | .eie | .eid | .nri | .unit _ => none

/-- What `mtspr` does with a value to a register that can be written (R280, R285 to R292); `none` for PVR (R296) and for
the registers the spec does not describe (R297). EIE, EID and NRI set MSR[EE] and MSR[RI] and ignore the value (R292). -/
def State.sprWritten (s : State) (r : Spr) (v : Word) : Option State :=
  match r with
  | .xer => some (s.setXer v)
  | .lr => some { s with lr := v }
  | .ctr => some { s with ctr := v }
  | .dsisr => some { s with dsisr := v }
  | .dar => some { s with dar := v }
  | .dec => some (s.setDec v)
  | .srr0 => some { s with srr0 := v }
  | .srr1 => some (s.setSrr1 v)
  | .sprg0 => some { s with sprg0 := v }
  | .sprg1 => some { s with sprg1 := v }
  | .sprg2 => some { s with sprg2 := v }
  | .sprg3 => some { s with sprg3 := v }
  | .tbl => some (s.setTbl v)
  | .tbu => some (s.setTbu v)
  | .eie => some (s.setMsr (withBit (withBit s.msr 16 true) 30 true))
  | .eid => some (s.setMsr (withBit (withBit s.msr 16 false) 30 true))
  | .nri => some (s.setMsr (withBit (withBit s.msr 16 false) 30 false))
  | .pvr | .unit _ => none

/-- Whether `mtspr` to the register is a write of the MSR (R292), after which R186 asks for its check. -/
def sprWritesMsr : Spr → Bool
  | .eie | .eid | .nri => true
  | _ => false

end Sys2Proof.Machine
end

