-- ==== Sys2Proof/Machine/Flags.lean ====
section
/-! DEFINITION. Every flag computation of the spec: the computed FPSCR bits (10_state.md R32, R33), the FX rule
(40_fpscr_moves.md R185), CR0 and CR1 after record forms (41_cr_moves_and_compares.md R210, R211), compares (R212), the
carry and overflow of the XER (42_xer_arithmetic.md R240 to R246), and the check for a floating-point enabled exception
(40 R186, 60_exceptions.md R348). -/
namespace Sys2Proof.Machine

/-! ## FPSCR -/

/-- The exception bits other than FX, FEX and VX: `EXC` (R31). -/
def fpscrExceptionBits : Word := 0x1FF80700#32

/-- The sticky bits: `STICKY` (R30, R34). -/
def fpscrStickyBits : Word := 0x9FF80700#32

/-- VX of the stored bits: the OR of the invalid operation bits (R33). -/
def fpscrVx (stored : Word) : Bool := stored &&& 0x01F80700#32 != 0#32

/-- FEX of the stored bits: the OR of the exception bits masked with their enable bits (R32). -/
def fpscrFex (stored : Word) : Bool :=
  (fpscrVx stored && bitOf stored 24) || (bitOf stored 3 && bitOf stored 25) || (bitOf stored 4 && bitOf stored 26)
    || (bitOf stored 5 && bitOf stored 27) || (bitOf stored 6 && bitOf stored 28)

/-- What a read of the FPSCR sees: the stored bits with the computed FEX and VX (R184). -/
def fpscrImage (stored : Word) : Word := withBit (withBit stored 1 (fpscrFex stored)) 2 (fpscrVx stored)

/-- The FPSCR as it reads (R184). -/
def State.fpscrRead (s : State) : Word := fpscrImage s.fpscr

/-- FX after `mtfsf` or `mtfsfi` (R185): when field 0 is not written and `fx` holds (`fx_on_mtfsf`), an exception bit that
goes from 0 to 1 sets FX; otherwise FX is as written. The exception bits come first, so that `fx` is asked only then. -/
def fxAfterMove (fx field0Written : Bool) (old new : Word) : Word :=
  if !field0Written && (~~~old &&& new &&& fpscrExceptionBits != 0#32) && fx then new ||| bitMask 0 else new

/-- A floating-point enabled exception is due: FEX = 1 in precise mode (R186, R348). -/
def State.fpExceptionDue (s : State) : Bool := s.fpPrecise && fpscrFex s.fpscr

/-- The instruction is done, unless it leaves a floating-point enabled exception due (R186, R348). -/
def State.finishChecked (s : State) : Result := if s.fpExceptionDue then .refused .fpEnabledException else .next s

/-! ## CR -/

/-- The four bits of a CR field in the order LT, GT, EQ, SO (R46). -/
def crBits (lt gt eq so : Bool) : BitVec 4 := BitVec.ofBool lt ++ BitVec.ofBool gt ++ BitVec.ofBool eq ++ BitVec.ofBool so

/-- XER[SO] -/
def State.so (s : State) : Bool := bitOf s.xer 0

/-- `SetCR0(r)` (R210): the result compared with zero as a signed quantity, and the final XER[SO]. -/
def State.recordCr0 (s : State) (r : Word) : State :=
  s.setCrField 0#3 (crBits (r.slt 0#32) ((0#32).slt r) (r == 0#32) s.so)

/-- CR1 <- FPSCR[0:3] when Rc = 1 (R187, R211). -/
def State.recordCr1 (s : State) (rc : Bool) : State :=
  if rc then s.setCrField 1#3 (fieldAt s.fpscrRead 0#3) else s

/-- `SetCRnCompare(n, a, b, signed)` (R212). -/
def State.recordCompare (s : State) (n : FieldNum) (a b : Word) (signed : Bool) : State :=
  s.setCrField n
    (if signed then crBits (a.slt b) (b.slt a) (a == b) s.so else crBits (a.ult b) (b.ult a) (a == b) s.so)

/-! ## XER -/

/-- The 33-bit sum of two words and a carry in; bit 0 is the carry out of bit 0 (R242). -/
def carrySum (a b : Word) (carryIn : Bool) : BitVec 33 :=
  a.setWidth 33 + b.setWidth 33 + (BitVec.ofBool carryIn).setWidth 33

/-- The carry out of bit 0 (R242). -/
def carryOut (a b : Word) (carryIn : Bool) : Bool := (carrySum a b carryIn).getMsbD 0

/-- The carry out of bit 1: the 31 low-order bits summed in 32 bits (R241, R245). -/
def carryOutOfBit1 (a b : Word) (carryIn : Bool) : Bool :=
  ((a.extractLsb' 0 31).setWidth 32 + (b.extractLsb' 0 31).setWidth 32 + (BitVec.ofBool carryIn).setWidth 32).getMsbD 0

/-- XER[CA] <- the carry out of bit 0 (R242). -/
def State.setCa (s : State) (ca : Bool) : State := s.setXer (withBit s.xer 2 ca)

/-- OV <- the overflow, SO <- SO | OV, when OE = 1 (R240, R241). -/
def State.setOverflow (s : State) (oe ov : Bool) : State :=
  if oe then s.setXer (withBit (withBit s.xer 1 ov) 0 (s.so || ov)) else s

end Sys2Proof.Machine
end

