-- ==== Sys2Proof/Machine/Arith.lean ====
section
/-! DEFINITION. The arithmetic and logical instructions: `addi` (46_support.md), `addic.` and `subfc`
(42_xer_arithmetic.md), `andi.` and `andis.` (41_cr_moves_and_compares.md). -/
namespace Sys2Proof.Machine

/-- `addi rD,rA,SIMM` (R330). -/
def execAddi (rD rA : Five) (simm : BitVec 16) (s : State) : Result :=
  .next (s.setGpr rD (s.baseOrZero rA + signedImm simm)).advance

/-- `addic. rD,rA,SIMM` (R246): rA = 0 names GPR0; CA and CR0 always. -/
def execAddicDot (rD rA : Five) (simm : BitVec 16) (s : State) : Result :=
  let t := carrySum (s.gprAt rA) (signedImm simm) false
  let r : Word := t.extractLsb' 0 32
  .next (((s.setGpr rD r).setCa (t.getMsbD 0)).recordCr0 r).advance

/-- `subfc rD,rA,rB` with OE and Rc (R245): the one three-operand sum `~(rA) + (rB) + 1` (R244). -/
def execSubfc (rD rA rB : Five) (oe rc : Bool) (s : State) : Result :=
  let a := ~~~(s.gprAt rA)
  let b := s.gprAt rB
  let t := carrySum a b true
  let r : Word := t.extractLsb' 0 32
  let s' := ((s.setGpr rD r).setCa (t.getMsbD 0)).setOverflow oe (t.getMsbD 0 != carryOutOfBit1 a b true)
  .next (if rc then s'.recordCr0 r else s').advance

/-- `andi. rA,rS,UIMM` (R220). -/
def execAndiDot (rA rS : Five) (uimm : BitVec 16) (s : State) : Result :=
  let r := s.gprAt rS &&& unsignedImm uimm
  .next ((s.setGpr rA r).recordCr0 r).advance

/-- `andis. rA,rS,UIMM` (R221). -/
def execAndisDot (rA rS : Five) (uimm : BitVec 16) (s : State) : Result :=
  let r := s.gprAt rS &&& shiftedImm uimm
  .next ((s.setGpr rA r).recordCr0 r).advance

end Sys2Proof.Machine
end

