-- ==== Sys2Proof/Machine/Branch.lean ====
section
/-! DEFINITION. The branches (43_branches.md R260 to R266). -/
namespace Sys2Proof.Machine

/-- `b target` with AA and LK (R263). -/
def execB (li : BitVec 24) (aa lk : Bool) (s : State) : Result :=
  .next ((s.link lk).branchTo (s.branchTarget aa (displacement24 li)))

/-- A conditional branch to `target`: the count is stored, LR is written taken or not (R262), and `pc` goes to the target
or to the next instruction. -/
def State.conditionalBranch (s : State) (count : Word) (taken : Bool) (target : Word) (lk : Bool) : State :=
  ({ s with ctr := count }.link lk).branchTo (if taken then target else s.pc + 4#32)

/-- `bc BO,BI,target` with AA and LK (R264). -/
def execBc (bo bi : Five) (bd : BitVec 14) (aa lk : Bool) (s : State) : Result :=
  .next (s.conditionalBranch (s.countAfter bo) (s.branchTaken bo bi) (s.branchTarget aa (displacement14 bd)) lk)

/-- `bclr BO,BI` with LK (R265): the target is the LR from before this instruction. -/
def execBclr (bo bi : Five) (lk : Bool) (s : State) : Result :=
  .next (s.conditionalBranch (s.countAfter bo) (s.branchTaken bo bi) (instructionAddress s.lr) lk)

/-- `bcctr BO,BI` with LK (R266): a form that decrements the count is refused. -/
def execBcctr (bo bi : Five) (lk : Bool) (s : State) : Result :=
  if decrementsCtr bo then .refused .bcctrWithDecrement
  else .next (s.conditionalBranch s.ctr (s.conditionHolds bo bi) (instructionAddress s.ctr) lk)

end Sys2Proof.Machine
end

