-- ==== Sys2Proof/Machine/Compare.lean ====
section
/-! DEFINITION. The compares (41_cr_moves_and_compares.md R216 to R219). L = 1 is refused (30_encoding.md R172); no
encoding holds it. -/
namespace Sys2Proof.Machine

/-- A compare of two words into CR field `crfD` (R212), with L = 0 (R172). -/
def compareInto (crfD : FieldNum) (l : Bool) (a b : Word) (signed : Bool) (s : State) : Result :=
  if l then .refused .compareDoubleword else .next (s.recordCompare crfD a b signed).advance

/-- `cmp crfD,L,rA,rB` (R216). -/
def execCmp (crfD : FieldNum) (l : Bool) (rA rB : Five) (s : State) : Result :=
  compareInto crfD l (s.gprAt rA) (s.gprAt rB) true s

/-- `cmpi crfD,L,rA,SIMM` (R217). -/
def execCmpi (crfD : FieldNum) (l : Bool) (rA : Five) (simm : BitVec 16) (s : State) : Result :=
  compareInto crfD l (s.gprAt rA) (signedImm simm) true s

/-- `cmpl crfD,L,rA,rB` (R218). -/
def execCmpl (crfD : FieldNum) (l : Bool) (rA rB : Five) (s : State) : Result :=
  compareInto crfD l (s.gprAt rA) (s.gprAt rB) false s

/-- `cmpli crfD,L,rA,UIMM` (R219). -/
def execCmpli (crfD : FieldNum) (l : Bool) (rA : Five) (uimm : BitVec 16) (s : State) : Result :=
  compareInto crfD l (s.gprAt rA) (unsignedImm uimm) false s

end Sys2Proof.Machine
end

