-- ==== Sys2Proof/Machine/CondReg.lean ====
section
/-! DEFINITION. The moves to the condition register (41_cr_moves_and_compares.md R214, R215, R222). -/
namespace Sys2Proof.Machine

/-- `mcrf crfD,crfS` (R214). -/
def execMcrf (crfD crfS : FieldNum) (s : State) : Result :=
  .next (s.setCrField crfD (fieldAt s.cr crfS)).advance

/-- `mtcrf CRM,rS` (R215). -/
def execMtcrf (crm : BitVec 8) (rS : Five) (s : State) : Result :=
  let m := fieldsMask crm
  let v := (s.gprAt rS &&& m) ||| (s.cr &&& ~~~m)
  .next { s with cr := v }.advance

/-- `mcrxr crfD` (R222): XER[0:3] goes to the field and is cleared. -/
def execMcrxr (crfD : FieldNum) (s : State) : Result :=
  .next ((s.setCrField crfD (fieldAt s.xer 0#3)).setXer (s.xer &&& 0x0FFFFFFF#32)).advance

end Sys2Proof.Machine
end

