-- ==== Sys2Proof/Machine/Fpscr.lean ====
section
/-! DEFINITION. The FPSCR moves (40_fpscr_moves.md R183 to R193): with MSR[FP] = 0 each takes the floating-point
unavailable exception (R183); after each a floating-point enabled exception that is due is refused (R186). -/
namespace Sys2Proof.Machine

/-- Availability (R183, 60_exceptions.md R372), then the instruction, then the check of R186. -/
def floatingPoint (effect : State → State) (s : State) : Result :=
  if s.fp then (effect s).advance.finishChecked else s.take .fpUnavailable s.pc

/-- `mcrfs crfD,crfS` (R189): the field goes to the CR as it reads; its sticky bits are cleared. -/
def execMcrfs (crfD crfS : FieldNum) (s : State) : Result :=
  floatingPoint
    (fun s => (s.setCrField crfD (fieldAt s.fpscrRead crfS)).setFpscr
      (s.fpscr &&& ~~~(fieldMask crfS &&& fpscrStickyBits))) s

/-- The FPSCR after a move of `v` to the bits of `m` (R190, R191), with FX as R185 says. -/
def State.moveToFpscr (s : State) (m v : Word) (field0Written : Bool) : State :=
  let moved := s.setFpscr ((v &&& m) ||| (s.fpscr &&& ~~~m))
  moved.setFpscr (fxAfterMove Config.fxOnMtfsf field0Written s.fpscr moved.fpscr)

/-- `mtfsfi crfD,IMM` (R190). -/
def execMtfsfi (crfD : FieldNum) (imm : BitVec 4) (rc : Bool) (s : State) : Result :=
  floatingPoint
    (fun s => (s.moveToFpscr (fieldMask crfD) (withField 0#32 crfD imm) (crfD == 0#3)).recordCr1 rc) s

/-- `mtfsf FM,frB` (R191): the low-order word of the FPR is the image. -/
def execMtfsf (fm : BitVec 8) (frB : Five) (rc : Bool) (s : State) : Result :=
  floatingPoint
    (fun s => (s.moveToFpscr (fieldsMask fm) ((s.fprAt frB).extractLsb' 0 32) (fm.getMsbD 0)).recordCr1 rc) s

/-- `mtfsb0 crbD` (R192): bits 1, 2 and 20 are no storage, so clearing them changes nothing. -/
def execMtfsb0 (crbD : Five) (rc : Bool) (s : State) : Result :=
  floatingPoint (fun s => (s.setFpscr (s.fpscr &&& ~~~(bitMask crbD.toNat))).recordCr1 rc) s

/-- `mtfsb1 crbD` (R193): an exception bit that goes from 0 to 1 sets FX; bits 1, 2 and 20 are no storage. -/
def execMtfsb1 (crbD : Five) (rc : Bool) (s : State) : Result :=
  floatingPoint
    (fun s =>
      let b := bitMask crbD.toNat
      let raised := b &&& fpscrExceptionBits &&& ~~~s.fpscr != 0#32
      (s.setFpscr (s.fpscr ||| b ||| (if raised then bitMask 0 else 0#32))).recordCr1 rc) s

end Sys2Proof.Machine
end

