-- ==== Sys2Proof/Machine/Load.lean ====
section
/-! DEFINITION. The load `lwz` (46_support.md R331; 20_memory.md R121, R123, R125). -/
namespace Sys2Proof.Machine

/-- `lwz rD,d(rA)` (R331): little-endian mode and a misaligned address are refused, an address that is not memory stops. -/
def execLwz (rD rA : Five) (d : BitVec 16) (s : State) : Result :=
  let ea := s.effectiveAddress rA d
  if s.le then .refused .littleEndianAccess
  else if ea &&& 3#32 != 0#32 then .refused (.misalignedAccess ea)
  else match s.memRead ea with
    | some v => .next (s.setGpr rD v).advance
    | none => .fault (.outsideMemMap ea)

end Sys2Proof.Machine
end

