-- ==== Sys2Proof/Machine/SprMoves.lean ====
section
/-! DEFINITION. The moves to and from the special-purpose registers and the time base (44_spr_access.md R280 to R298). -/
namespace Sys2Proof.Machine

/-- `mtspr SPR,rS` (R280): an unlisted number is refused (R298); a supervisor-level register at user level takes the
program exception (R283, R369); PVR (R296) and the undescribed registers (R297) are refused; a write of the MSR is
checked (R186). -/
def execMtspr (n : BitVec 10) (rS : Five) (s : State) : Result :=
  match sprOfNumber n with
  | none => .refused (.unlistedSpr n)
  | some r =>
    if sprSupervisor r && s.pr then s.take .program s.pc
    else match r with
      | .unit u => .refused (.undescribedRegister u)
      | r =>
        match s.sprWritten r (s.gprAt rS) with
        | none => .refused .readOnlyPvr
        | some s' => if sprWritesMsr r then s'.advance.finishChecked else .next s'.advance

/-- `mfspr rD,SPR` (R281): as `mtspr`; EIE, EID and NRI take the software emulation exception (R292, R365). -/
def execMfspr (rD : Five) (n : BitVec 10) (s : State) : Result :=
  match sprForRead n with
  | none => .refused (.unlistedSpr n)
  | some r =>
    if sprSupervisor r && s.pr then s.take .program s.pc
    else match r with
      | .unit u => .refused (.undescribedRegister u)
      | r =>
        match s.sprValue r with
        | none => s.take .softwareEmulation s.pc
        | some v => .next (s.setGpr rD v).advance

/-- `mftb rD,TBR` (R282): at either level. -/
def execMftb (rD : Five) (n : BitVec 10) (s : State) : Result :=
  match tbrOfNumber n with
  | none => .refused (.unlistedSpr n)
  | some .lower => .next (s.setGpr rD s.tbl).advance
  | some .upper => .next (s.setGpr rD s.tbu).advance

end Sys2Proof.Machine
end

