-- ==== Sys2Proof/Machine/System.lean ====
section
/-! DEFINITION. The instructions that read and write the MSR (45_msr_access.md R310 to R316). At user level `mfmsr`,
`mtmsr` and `rfi` take the program exception (60_exceptions.md R369). -/
namespace Sys2Proof.Machine

/-- `mfmsr rD` (R310). -/
def execMfmsr (rD : Five) (s : State) : Result :=
  if s.pr then s.take .program s.pc else .next (s.setGpr rD s.msr).advance

/-- `mtmsr rS` (R311), checked (R186). -/
def execMtmsr (rS : Five) (s : State) : Result :=
  if s.pr then s.take .program s.pc else (s.setMsr (s.gprAt rS)).advance.finishChecked

/-- `sc` (R314, R368): the system call exception, resuming after it. -/
def execSc (s : State) : Result := s.take .systemCall (s.pc + 4#32)

/-- `rfi` (R316), checked (R348). -/
def execRfi (s : State) : Result :=
  if s.pr then s.take .program s.pc else s.returnFromException.finishChecked

end Sys2Proof.Machine
end

