-- ==== Sys2Proof/Machine/Dispatch.lean ====
section
/-! DEFINITION. Which meaning runs for which instruction: one arm per constructor of `Instr`. -/
namespace Sys2Proof.Machine

def exec (i : Instr) (s : State) : Host.Outcome State Fault Refusal :=
  match i with
  | .cmpli crfD l rA uimm => Sys2Proof.Machine.execCmpli crfD l rA uimm s
  | .cmpi crfD l rA simm => Sys2Proof.Machine.execCmpi crfD l rA simm s
  | .addicDot rD rA simm => Sys2Proof.Machine.execAddicDot rD rA simm s
  | .addi rD rA simm => Sys2Proof.Machine.execAddi rD rA simm s
  | .bc bo bi bd aa lk => Sys2Proof.Machine.execBc bo bi bd aa lk s
  | .sc => Sys2Proof.Machine.execSc s
  | .b li aa lk => Sys2Proof.Machine.execB li aa lk s
  | .mcrf crfD crfS => Sys2Proof.Machine.execMcrf crfD crfS s
  | .bclr bo bi lk => Sys2Proof.Machine.execBclr bo bi lk s
  | .rfi => Sys2Proof.Machine.execRfi s
  | .bcctr bo bi lk => Sys2Proof.Machine.execBcctr bo bi lk s
  | .andiDot rA rS uimm => Sys2Proof.Machine.execAndiDot rA rS uimm s
  | .andisDot rA rS uimm => Sys2Proof.Machine.execAndisDot rA rS uimm s
  | .cmp crfD l rA rB => Sys2Proof.Machine.execCmp crfD l rA rB s
  | .subfc rD rA rB oe rc => Sys2Proof.Machine.execSubfc rD rA rB oe rc s
  | .cmpl crfD l rA rB => Sys2Proof.Machine.execCmpl crfD l rA rB s
  | .mfmsr rD => Sys2Proof.Machine.execMfmsr rD s
  | .mtcrf crm rS => Sys2Proof.Machine.execMtcrf crm rS s
  | .mtmsr rS => Sys2Proof.Machine.execMtmsr rS s
  | .mfspr rD spr => Sys2Proof.Machine.execMfspr rD spr s
  | .mftb rD tbr => Sys2Proof.Machine.execMftb rD tbr s
  | .mtspr spr rS => Sys2Proof.Machine.execMtspr spr rS s
  | .mcrxr crfD => Sys2Proof.Machine.execMcrxr crfD s
  | .lwz rD rA d => Sys2Proof.Machine.execLwz rD rA d s
  | .mtfsb1 crbD rc => Sys2Proof.Machine.execMtfsb1 crbD rc s
  | .mcrfs crfD crfS => Sys2Proof.Machine.execMcrfs crfD crfS s
  | .mtfsb0 crbD rc => Sys2Proof.Machine.execMtfsb0 crbD rc s
  | .mtfsfi crfD imm rc => Sys2Proof.Machine.execMtfsfi crfD imm rc s
  | .mtfsf fm frB rc => Sys2Proof.Machine.execMtfsf fm frB rc s

end Sys2Proof.Machine
end

