-- ==== Sys2Proof/Machine/Cycle.lean ====
section
/-! DEFINITION. One turn of the machine: the processor fetches and runs an instruction, or takes an asynchronous
exception at the instruction boundary (60_exceptions.md R360 to R362); or another agent makes its step (R370, R371).
Also how the host places an instruction where the next step fetches it. -/
namespace Sys2Proof.Machine

/-- The external interrupt is pending and enabled (R360). -/
def State.externalPending (s : State) : Bool := s.ee && s.extIrq

/-- The decrementer exception is pending and enabled (R361). -/
def State.decrementerPending (s : State) : Bool := s.ee && s.decReq

/-- The asynchronous exception taken at this boundary, if any (R362). With `anyPending` the external interrupt comes
first (DESIGN CHOICE, log 8). -/
def State.interruptTaken (s : State) : Recognition → Option ExceptionKind
  | .execute => none
  | .external => if s.externalPending then some .externalInterrupt else none
  | .decrementer => if s.decrementerPending then some .decrementer else none
  | .anyPending =>
    if s.externalPending then some .externalInterrupt else if s.decrementerPending then some .decrementer else none

/-- Fetch the word at `pc` and run it (R150): refused in little-endian mode (R123) and while tracing (R364). -/
def State.runInstruction (s : State) : Result :=
  if s.le then .refused .littleEndianAccess
  else if s.traced then .refused .tracing
  else match s.memRead s.pc with
    | none => .fault (.outsideMemMap s.pc)
    | some w =>
      match decodeWord w with
      | .error _ => .refused (.noSuchInstruction w)
      | .ok i => exec i s

/-- The processor's turn (R362): it does not go on while a floating-point enabled exception is due (R348); an
asynchronous exception resumes at `pc` (R353). -/
def State.processorTurn (s : State) (r : Recognition) : Result :=
  if s.fpExceptionDue then .refused .fpEnabledException
  else match s.interruptTaken r with
    | some e => s.take e s.pc
    | none => s.runInstruction

/-- The turn of one agent (R360, R362, R370, R371). -/
def State.turn (s : State) : Turn → Result
  | .processor r => s.processorTurn r
  | .timeBase => .next s.tickTimeBase
  | .decrementer => .next s.tickDecrementer
  | .externalRequest level => .next (s.setExtIrq level)

/-- The next turn is the processor's and runs an instruction. -/
def State.instructionIsNext (s : State) : Bool :=
  match s.nextTurn with
  | .processor r => (s.interruptTaken r).isNone
  | _ => false

/-- The word `w` stored at `pc`, with what its fetch by the very next step needs (log 6): MSR[LE], MSR[SE] and MSR[BE]
zero, MSR[FE0] and MSR[FE1] zero if an enabled exception is due, and the processor's turn to execute. -/
def State.placeWord (s : State) (w : Word) : State :=
  { s with
    mem := s.mem.writeWord s.pc w
    msr := s.msr &&& ~~~(0x00000601#32 ||| (if s.fpExceptionDue then 0x00000900#32 else 0#32))
    schedule := if s.instructionIsNext then s.schedule else .processor .execute :: s.schedule }

end Sys2Proof.Machine
end

