-- ==== Sys2Proof/Machine/Step.lean ====
section
/-! DEFINITION. One step of the machine, and the host's way to place an instruction. -/
namespace Sys2Proof.Machine

/-- One step: the turn that comes next in the schedule is taken off it and made (log 7). -/
def step (s : State) : Host.Outcome State Fault Refusal := s.popTurn.turn s.nextTurn

/-- `s` with the instruction whose `nbits` bits are `w` stored where `step` fetches its next instruction, so that the very
next step runs it (log 6). -/
def State.withFetchWord (s : State) (nbits w : Nat) : State := s.placeWord (BitVec.ofNat 32 (w % 2 ^ nbits))

end Sys2Proof.Machine
end

