-- ==== Sys2Proof/Safety.lean ====
section
/-! DEFINITION. The terms in which claims about runs are stated: the pieces of state a frame speaks of, what an exception
entry leaves, the invariant of the machine, and safe runs. -/
namespace Sys2Proof.Machine

/-- One piece of the state, as a program or an observer can tell it apart: a frame is said piece by piece. The status
registers are split into bits, the CR into its fields, memory into bytes. `pc` is not among them. -/
inductive Part where
  | gpr (r : Five)
  | fpr (r : Five)
  | fpscrBit (i : Five)
  | crField (n : FieldNum)
  | xerBit (i : Five)
  | lr | ctr | tbu | tbl
  | msrBit (i : Five)
  | dsisr | dar | dec | decReq | srr0 | srr1
  | sprg0 | sprg1 | sprg2 | sprg3 | pvr | units
  | memory (a : Word)
  | extIrq | schedule | draws
deriving DecidableEq, Repr

/-- The piece is in `t` what it was in `s`. Bits are numbered from the most significant (R5); the FPSCR is taken as it
reads (R184); memory is read byte by byte (R121). -/
def Part.same : Part → State → State → Prop
  | .gpr r, s, t => t.gprAt r = s.gprAt r
  | .fpr r, s, t => t.fprAt r = s.fprAt r
  | .fpscrBit i, s, t => bitOf t.fpscrRead i.toNat = bitOf s.fpscrRead i.toNat
  | .crField n, s, t => fieldAt t.cr n = fieldAt s.cr n
  | .xerBit i, s, t => bitOf t.xer i.toNat = bitOf s.xer i.toNat
  | .lr, s, t => t.lr = s.lr
  | .ctr, s, t => t.ctr = s.ctr
  | .tbu, s, t => t.tbu = s.tbu
  | .tbl, s, t => t.tbl = s.tbl
  | .msrBit i, s, t => bitOf t.msr i.toNat = bitOf s.msr i.toNat
  | .dsisr, s, t => t.dsisr = s.dsisr
  | .dar, s, t => t.dar = s.dar
  | .dec, s, t => t.dec = s.dec
  | .decReq, s, t => t.decReq = s.decReq
  | .srr0, s, t => t.srr0 = s.srr0
  | .srr1, s, t => t.srr1 = s.srr1
  | .sprg0, s, t => t.sprg0 = s.sprg0
  | .sprg1, s, t => t.sprg1 = s.sprg1
  | .sprg2, s, t => t.sprg2 = s.sprg2
  | .sprg3, s, t => t.sprg3 = s.sprg3
  | .pvr, s, t => t.pvr = s.pvr
  | .units, s, t => t.units = s.units
  | .memory a, s, t => t.readByte a = s.readByte a
  | .extIrq, s, t => t.extIrq = s.extIrq
  | .schedule, s, t => t.schedule = s.schedule
  | .draws, s, t => t.draws = s.draws

/-- The frame: every piece of state but those listed is unchanged (`pc` aside). -/
def Unchanged (changed : List Part) (s t : State) : Prop := ∀ p : Part, p ∉ changed → p.same s t

/-- The pieces an exception entry writes (R352): SRR0, SRR1, nine bits of the MSR, and the count of draws. -/
def entryParts : List Part :=
  [.srr0, .srr1, .msrBit 16, .msrBit 17, .msrBit 18, .msrBit 20, .msrBit 21, .msrBit 22, .msrBit 23, .msrBit 30,
    .msrBit 31, .draws]

/-- `t` is what the entry sequence makes of `s` (R352 to R355) for a vector offset and an address to resume at: SRR0,
SRR1[16:31], the MSR, the target by MSR[IP], and nothing else but the pieces listed in `also`. Nothing is said of
SRR1[0:15]. -/
structure EntersException (offset resume : Word) (also : List Part) (s t : State) : Prop where
  savedAddress : t.srr0 = resume
  savedStatus : t.srr1.extractLsb' 0 16 = s.msr.extractLsb' 0 16
  cleared : ∀ i ∈ [16, 17, 18, 20, 21, 22, 23, 30], bitOf t.msr i = false
  byteOrder : bitOf t.msr 31 = bitOf s.msr 15
  target : t.pc = (if bitOf s.msr 25 then 0xFFF00000#32 else 0x00000000#32) + offset
  frame : Unchanged (entryParts ++ also) s t

/-- The reserved bits of MSR, XER and FPSCR, and the two computed FPSCR bits, hold nothing (R23, R30, R50, R66). -/
abbrev State.ReservedZero (s : State) : Prop :=
  s.msr &&& 0xFFFE00BC#32 = 0#32 ∧ s.xer &&& 0x1FFF0080#32 = 0#32 ∧ s.fpscr &&& 0x60000800#32 = 0#32

/-- What holds of every state the machine can be in: reserved bits hold nothing, `pc` is word-aligned (R24), memory is in
its canonical form, and no floating-point enabled exception is due (R348). -/
abbrev State.Inv (s : State) : Prop :=
  s.ReservedZero ∧ s.pc &&& 3#32 = 0#32 ∧ s.mem.wf = true ∧ s.fpExceptionDue = false

/-- The pieces of state that only supervisor-level instructions may write (R341): the MSR, the exception registers, DEC
and its request, the time base, the SPRGs, PVR, the undescribed registers. -/
def Part.supervisor : Part → Bool
  | .tbu | .tbl | .msrBit _ | .dsisr | .dar | .dec | .decReq | .srr0 | .srr1 | .sprg0 | .sprg1 | .sprg2 | .sprg3
  | .pvr | .units => true
  | .gpr _ | .fpr _ | .fpscrBit _ | .crField _ | .xerBit _ | .lr | .ctr | .memory _ | .extIrq | .schedule | .draws => false

/-! ## Terms of the claims about instructions -/

/-- The four bits of a CR field for two exact values: less, greater, equal, and SO (R46, R210, R212). -/
def orderField (a b : Int) (so : Bool) : BitVec 4 :=
  BitVec.ofBool (decide (a < b)) ++ BitVec.ofBool (decide (b < a)) ++ BitVec.ofBool (decide (a = b)) ++ BitVec.ofBool so

/-- The CR fields that an 8-bit field mask selects, bit `n` from the left selecting field `n` (R156). -/
def selectedFields (crm : BitVec 8) : List Part :=
  (([0, 1, 2, 3, 4, 5, 6, 7] : List FieldNum).filter (fun n => crm.getMsbD n.toNat)).map Part.crField

/-- The 32 bits of the FPSCR. -/
def fpscrParts : List Part := (List.range 32).map (fun i => Part.fpscrBit (BitVec.ofNat 5 i))

/-- The 32 bits of the XER. -/
def xerParts : List Part := (List.range 32).map (fun i => Part.xerBit (BitVec.ofNat 5 i))

/-- The 32 bits of the MSR. -/
def msrParts : List Part := (List.range 32).map (fun i => Part.msrBit (BitVec.ofNat 5 i))

/-- Some exception bit (`EXC`, R31) is 0 in `old` and 1 in `new`. -/
def raisesException (old new : Word) : Bool := ~~~old &&& new &&& 0x1FF80700#32 != 0#32

/-- The five FPSCR moves (40_fpscr_moves.md). -/
def isFpscrMove : Instr → Bool
  | .mcrfs _ _ | .mtfsfi _ _ _ | .mtfsf _ _ _ | .mtfsb0 _ _ | .mtfsb1 _ _ => true
  | _ => false

/-- The instructions that write CR fields, and the fields each may write (R47, R210, R211). -/
def crFieldsWritten : Instr → List Part
  | .cmp crfD _ _ _ | .cmpi crfD _ _ _ | .cmpl crfD _ _ _ | .cmpli crfD _ _ _ => [.crField crfD]
  | .mcrf crfD _ | .mcrxr crfD | .mcrfs crfD _ => [.crField crfD]
  | .mtcrf crm _ => selectedFields crm
  | .addicDot _ _ _ | .andiDot _ _ _ | .andisDot _ _ _ => [.crField 0]
  | .subfc _ _ _ _ rc => if rc then [.crField 0] else []
  | .mtfsfi _ _ rc | .mtfsf _ _ rc | .mtfsb0 _ rc | .mtfsb1 _ rc => if rc then [.crField 1] else []
  | _ => []

/-- The branch condition in the words of R155: BO[0] = 1 means do not test the CR bit, BO[1] is the value it must have,
BO[2] = 1 means do not test the count, BO[3] = 1 means branch if the count is 0, BO[3] = 0 if it is not. -/
abbrev TakenBy (bo bi : Five) (cr count : Word) : Prop :=
  (bo.getMsbD 2 = true ∨ (bo.getMsbD 3 = true ↔ count = 0#32)) ∧
    (bo.getMsbD 0 = true ∨ cr.getMsbD bi.toNat = bo.getMsbD 1)

/-- LR after an instruction, by the only ways it changes: a branch with LK = 1 (R262) and `mtspr 8` (R286). -/
def lrAfter (i : Instr) (s : State) : Word :=
  match i with
  | .b _ _ lk | .bc _ _ _ _ lk | .bclr _ _ lk | .bcctr _ _ lk => if lk then s.pc + 4#32 else s.lr
  | .mtspr n rS => if n = 8#10 then s.gprAt rS else s.lr
  | _ => s.lr

/-- The request input after a turn: the environment's turn alone drives it (R360). -/
def requestAfter (turn : Turn) (before : Bool) : Bool :=
  match turn with
  | .externalRequest level => level
  | .processor _ | .timeBase | .decrementer => before

/-- `s` in ignore-exceptions mode: MSR[FE0] = MSR[FE1] = 0 (R70). -/
def State.ignoringFpExceptions (s : State) : State := { s with msr := s.msr &&& 0xFFFFF6FF#32 }

/-- The next step fetches an instruction, and the word it fetches is `w` (R123, R150, R362, R364). -/
abbrev State.Fetches (s : State) (w : Word) : Prop :=
  s.instructionIsNext = true ∧ s.fpExceptionDue = false ∧ s.le = false ∧ s.traced = false ∧ s.memRead s.pc = some w

/-- The eight supervisor-level storage registers of R287: number, piece of state, and content. -/
def storageSprs : List (BitVec 10 × Part × (State → Word)) :=
  [(18, .dsisr, State.dsisr), (19, .dar, State.dar), (26, .srr0, State.srr0), (27, .srr1, State.srr1),
    (272, .sprg0, State.sprg0), (273, .sprg1, State.sprg1), (274, .sprg2, State.sprg2), (275, .sprg3, State.sprg3)]

/-- The six exceptions the machine takes, with their offsets in the vector table as R350 writes them. -/
def takenExceptions : List (ExceptionKind × Word) :=
  [(.externalInterrupt, 0x00500#32), (.program, 0x00700#32), (.fpUnavailable, 0x00800#32), (.decrementer, 0x00900#32),
    (.systemCall, 0x00C00#32), (.softwareEmulation, 0x01000#32)]

/-- The registers the spec lists without defining them, by number (R297). -/
def undescribedNumbers : List (BitVec 10) :=
  [144, 145, 146, 147, 148, 149, 150, 151, 152, 153, 154, 155, 156, 157, 158, 159, 560, 561, 562, 630, 1022]

/-- The supervisor-level numbers of R100 that `mtspr` lists. -/
def supervisorWriteNumbers : List (BitVec 10) :=
  [18, 19, 22, 26, 27, 80, 81, 82, 272, 273, 274, 275, 284, 285, 287] ++ undescribedNumbers

/-- The supervisor-level numbers of R100 that `mfspr` lists. -/
def supervisorReadNumbers : List (BitVec 10) :=
  [18, 19, 22, 26, 27, 80, 81, 82, 272, 273, 274, 275, 287] ++ undescribedNumbers

/-- The user-level numbers of R100 for `mtspr` and `mfspr`. -/
def userNumbers : List (BitVec 10) := [1, 8, 9]

/-- The first `n` steps from `s` all answer a next state: the run neither faults nor is refused. -/
def SafeRun : Nat → State → Prop
  | 0, _ => True
  | n + 1, s => ∃ t, step s = .next t ∧ SafeRun n t

end Sys2Proof.Machine
end

