-- ==== Sys2Proof/Certificates/Slice0/Obligations.lean ====
section
/-! DEFINITION. The statements for the provers. Each docstring names the rule of spec/ it formalises. -/
open Sys2Proof Sys2Proof.Machine

/-! ## Encoding (30_encoding.md) -/

/-- Decoding the bytes of an encoded well-formed instruction, whatever follows them, gives that instruction (R152 to R160). -/
def Obligations.DecodeInvertsEncode : Prop :=
  ∀ (i : Instr) (rest : List Byte), i.wellFormed = true → decode (bytesOfWord (encode i) ++ rest) = .ok i

/-- Encoding what a word decodes to gives the word back: no bit of it is dropped, and what decodes is well-formed. -/
def Obligations.EncodeInvertsDecode : Prop :=
  ∀ (w : Word) (i : Instr), decodeWord w = .ok i → i.wellFormed = true ∧ encode i = w

/-- No word matches two rows of the opcode map (R160). -/
def Obligations.NoWordMatchesTwoRows : Prop :=
  ∀ (w : Word) (r r' : OpcodeRow), r ∈ opcodeRows → r' ∈ opcodeRows → w &&& r.mask = r.pattern → w &&& r'.mask = r'.pattern →
    r.mnemonic = r'.mnemonic

/-- R153: the number is `(word[16:20] << 5) | word[11:15]`, for `mfspr`, `mtspr` and `mftb`, and the field as it stands in
the word is the number with its halves swapped. -/
def Obligations.SprNumberHalvesAreSwapped : Prop :=
  (∀ (w : Word) (r : Five) (n : BitVec 10),
    decodeWord w = .ok (.mfspr r n) ∨ decodeWord w = .ok (.mtspr n r) ∨ decodeWord w = .ok (.mftb r n) →
      n = ((fieldOf w 16 5).setWidth 10 <<< 5) ||| (fieldOf w 11 5).setWidth 10) ∧
  (∀ (r : Five) (n : BitVec 10),
    fieldOf (encode (.mfspr r n)) 11 10 = ((n &&& 0x1F#10) <<< 5) ||| (n >>> 5) ∧
    fieldOf (encode (.mtspr n r)) 11 10 = ((n &&& 0x1F#10) <<< 5) ||| (n >>> 5) ∧
    fieldOf (encode (.mftb r n)) 11 10 = ((n &&& 0x1F#10) <<< 5) ||| (n >>> 5))

/-- Words written out in 95_test_vectors.md, group 30, decode to the instructions they stand for. -/
def Obligations.SampleWordsDecode : Prop :=
  decodeWord 0x7C7043A6#32 = .ok (.mtspr 272 3) ∧ decodeWord 0x4082FFF0#32 = .ok (.bc 4 2 0x3FFC false false) ∧
  decodeWord 0x7C642C11#32 = .ok (.subfc 3 4 5 true true) ∧ decodeWord 0xFDFE0D8E#32 = .ok (.mtfsf 0xFF 1 false) ∧
  decodeWord 0x7C681120#32 = .ok (.mtcrf 0x81 3) ∧ decodeWord 0x80640000#32 = .ok (.lwz 3 4 0)

/-- R171: a word is rejected exactly when it matches no row, and a step that fetches such a word is refused: it neither
executes nor raises an exception. The refusal is a choice of the spec (decision D17), not the source's. -/
def Obligations.UnmatchedWordsAreRefused : Prop :=
  (∀ w : Word, decodeWord w = .error (.noRow w) ↔ ∀ r ∈ opcodeRows, w &&& r.mask ≠ r.pattern) ∧
  (∀ (s : State) (w : Word), s.Fetches w → (∀ r ∈ opcodeRows, w &&& r.mask ≠ r.pattern) →
    step s = .refused (.noSuchInstruction w))

/-! ## Fetching and stepping -/

/-- When the processor's turn comes, no exception is taken, and the four bytes at `pc` decode to `i`, the step is `exec i`
on the state with the turn taken off the schedule; taking a turn off changes nothing else, and nothing at all when the
schedule is empty. The schedule is the model's way to hold the order of the agents (log 7). -/
def Obligations.StepRunsTheDecodedInstruction : Prop :=
  ∀ (s : State) (b0 b1 b2 b3 : Byte) (i : Instr),
    s.instructionIsNext = true → s.fpExceptionDue = false → bitOf s.msr 31 = false → bitOf s.msr 21 = false →
    bitOf s.msr 22 = false →
    s.readByte s.pc = some b0 → s.readByte (s.pc + 1#32) = some b1 → s.readByte (s.pc + 2#32) = some b2 →
    s.readByte (s.pc + 3#32) = some b3 → decode [b0, b1, b2, b3] = .ok i →
    step s = exec i s.popTurn ∧ (s.schedule = [] → s.popTurn = s) ∧ s.popTurn.pc = s.pc ∧
      Unchanged [.schedule] s s.popTurn

/-- A fetch is refused in little-endian mode (R123) and while SE or BE is set (R364), and stops where a byte of the word
at `pc` is not memory (R121).
Each of the three stops is a choice of the spec (decisions D3, D25, D5; logs 12, 24, 6). -/
def Obligations.FetchStops : Prop :=
  ∀ s : State, s.instructionIsNext = true → s.fpExceptionDue = false →
    (bitOf s.msr 31 = true → step s = .refused .littleEndianAccess) ∧
    (bitOf s.msr 31 = false → (bitOf s.msr 21 = true ∨ bitOf s.msr 22 = true) → step s = .refused .tracing) ∧
    (bitOf s.msr 31 = false → bitOf s.msr 21 = false → bitOf s.msr 22 = false →
      (s.readByte s.pc = none ∨ s.readByte (s.pc + 1#32) = none ∨ s.readByte (s.pc + 2#32) = none ∨
        s.readByte (s.pc + 3#32) = none) → step s = .fault (.outsideMemMap s.pc))

/-- Placing an instruction where the next step fetches it (log 6): whatever the state, the very next step runs it; placing
it changes nothing but the four bytes at `pc`, five MSR bits and the schedule. -/
def Obligations.PlacedInstructionRunsNext : Prop :=
  ∀ (s : State) (nbits w : Nat) (i : Instr), decodeTableWord nbits w = some i →
    step (s.withFetchWord nbits w) = exec i (s.withFetchWord nbits w).popTurn ∧ (s.withFetchWord nbits w).pc = s.pc ∧
    Unchanged [.schedule, .msrBit 20, .msrBit 21, .msrBit 22, .msrBit 23, .msrBit 31, .memory s.pc,
      .memory (s.pc + 1#32), .memory (s.pc + 2#32), .memory (s.pc + 3#32)] s (s.withFetchWord nbits w)

/-! ## Arithmetic, logic, load -/

/-- R330: `addi` adds the sign-extended immediate to `(rA|0)` and changes nothing else. -/
def Obligations.AddiAddsToBaseOrZero : Prop :=
  ∀ (rD rA : Five) (simm : BitVec 16) (s : State), ∃ t, exec (.addi rD rA simm) s = .next t ∧
    t.gprAt rD = (if rA = 0#5 then 0#32 else s.gprAt rA) + BitVec.ofInt 32 simm.toInt ∧ t.pc = s.pc + 4#32 ∧
    Unchanged [.gpr rD] s t

/-- R246: `addic.` adds the sign-extended immediate to GPR `rA` (GPR0 too); CA is the carry out of the word, CR0 records
the stored result as a signed quantity with SO; OV and SO stay. -/
def Obligations.AddicDotAddsCarriesAndRecords : Prop :=
  ∀ (rD rA : Five) (simm : BitVec 16) (s : State), s.ReservedZero → ∃ t, exec (.addicDot rD rA simm) s = .next t ∧
    t.gprAt rD = s.gprAt rA + BitVec.ofInt 32 simm.toInt ∧
    bitOf t.xer 2 = decide (2 ^ 32 ≤ (s.gprAt rA).toNat + (BitVec.ofInt 32 simm.toInt).toNat) ∧
    fieldAt t.cr 0 = orderField (t.gprAt rD).toInt 0 (bitOf s.xer 0) ∧ t.pc = s.pc + 4#32 ∧
    Unchanged [.gpr rD, .xerBit 2, .crField 0] s t

/-- R245: `subfc` computes `(rB) - (rA)`; CA = 1 iff `(rB)` is not below `(rA)` unsigned; with OE, OV = 1 iff the signed
difference does not fit in 32 bits and SO collects OV; with Rc, CR0 records the result with the new SO. -/
def Obligations.SubfcSubtractsWithFlags : Prop :=
  ∀ (rD rA rB : Five) (oe rc : Bool) (s : State), s.ReservedZero → ∃ t, exec (.subfc rD rA rB oe rc) s = .next t ∧
    t.gprAt rD = s.gprAt rB - s.gprAt rA ∧
    bitOf t.xer 2 = decide ((s.gprAt rA).toNat ≤ (s.gprAt rB).toNat) ∧
    (oe = true →
      bitOf t.xer 1 = decide ((s.gprAt rB).toInt - (s.gprAt rA).toInt < -2 ^ 31 ∨
        2 ^ 31 ≤ (s.gprAt rB).toInt - (s.gprAt rA).toInt) ∧
      bitOf t.xer 0 = (bitOf s.xer 0 || bitOf t.xer 1)) ∧
    (rc = true → fieldAt t.cr 0 = orderField (t.gprAt rD).toInt 0 (bitOf t.xer 0)) ∧
    t.pc = s.pc + 4#32 ∧
    Unchanged ([.gpr rD, .xerBit 2] ++ (if oe then [.xerBit 0, .xerBit 1] else []) ++ (if rc then [.crField 0] else [])) s t

/-- R220, R221: `andi.` and `andis.` AND with the immediate in the low or the high half and record CR0. -/
def Obligations.AndImmediateRecords : Prop :=
  ∀ (rA rS : Five) (uimm : BitVec 16) (s : State),
    (∃ t, exec (.andiDot rA rS uimm) s = .next t ∧
      t.gprAt rA = s.gprAt rS &&& BitVec.ofNat 32 uimm.toNat ∧
      fieldAt t.cr 0 = orderField (t.gprAt rA).toInt 0 (bitOf s.xer 0) ∧ t.pc = s.pc + 4#32 ∧
      Unchanged [.gpr rA, .crField 0] s t) ∧
    (∃ t, exec (.andisDot rA rS uimm) s = .next t ∧
      t.gprAt rA = s.gprAt rS &&& BitVec.ofNat 32 (uimm.toNat * 2 ^ 16) ∧
      fieldAt t.cr 0 = orderField (t.gprAt rA).toInt 0 (bitOf s.xer 0) ∧ t.pc = s.pc + 4#32 ∧
      Unchanged [.gpr rA, .crField 0] s t)

/-- R212, R216 to R219: the compares with L = 0 put less, greater, equal and SO into field `crfD`, the algebraic ones
comparing signed values, the logical ones unsigned values, immediates included, and change nothing else; with L = 1 all
four are refused (R172). The refusal of L = 1 is the spec's sentence in R172,
general knowledge (log 14, PRESUMED). -/
def Obligations.ComparesSetOneField : Prop :=
  ∀ (crfD : FieldNum) (rA rB : Five) (imm : BitVec 16) (s : State),
    (∃ t, exec (.cmp crfD false rA rB) s = .next t ∧
      fieldAt t.cr crfD = orderField (s.gprAt rA).toInt (s.gprAt rB).toInt (bitOf s.xer 0) ∧ t.pc = s.pc + 4#32 ∧
      Unchanged [.crField crfD] s t) ∧
    (∃ t, exec (.cmpi crfD false rA imm) s = .next t ∧
      fieldAt t.cr crfD = orderField (s.gprAt rA).toInt imm.toInt (bitOf s.xer 0) ∧ t.pc = s.pc + 4#32 ∧
      Unchanged [.crField crfD] s t) ∧
    (∃ t, exec (.cmpl crfD false rA rB) s = .next t ∧
      fieldAt t.cr crfD = orderField (s.gprAt rA).toNat (s.gprAt rB).toNat (bitOf s.xer 0) ∧ t.pc = s.pc + 4#32 ∧
      Unchanged [.crField crfD] s t) ∧
    (∃ t, exec (.cmpli crfD false rA imm) s = .next t ∧
      fieldAt t.cr crfD = orderField (s.gprAt rA).toNat imm.toNat (bitOf s.xer 0) ∧ t.pc = s.pc + 4#32 ∧
      Unchanged [.crField crfD] s t) ∧
    exec (.cmp crfD true rA rB) s = .refused .compareDoubleword ∧
    exec (.cmpi crfD true rA imm) s = .refused .compareDoubleword ∧
    exec (.cmpl crfD true rA rB) s = .refused .compareDoubleword ∧
    exec (.cmpli crfD true rA imm) s = .refused .compareDoubleword

/-- R331: `lwz` at an aligned address of memory, in big-endian mode, loads the word whose most significant byte is at the
address (R123) and changes nothing else. -/
def Obligations.LwzLoadsBigEndianWord : Prop :=
  ∀ (rD rA : Five) (d : BitVec 16) (s : State) (ea : Word) (b0 b1 b2 b3 : Byte),
    ea = (if rA = 0#5 then 0#32 else s.gprAt rA) + BitVec.ofInt 32 d.toInt → bitOf s.msr 31 = false → ea.toNat % 4 = 0 →
    s.readByte ea = some b0 → s.readByte (ea + 1#32) = some b1 → s.readByte (ea + 2#32) = some b2 →
    s.readByte (ea + 3#32) = some b3 →
    ∃ t, exec (.lwz rD rA d) s = .next t ∧
      (t.gprAt rD).toNat = b0.toNat * 2 ^ 24 + b1.toNat * 2 ^ 16 + b2.toNat * 2 ^ 8 + b3.toNat ∧ t.pc = s.pc + 4#32 ∧
      Unchanged [.gpr rD] s t

/-- R331: `lwz` is refused in little-endian mode (R123) and at a misaligned address (R125), and stops at an address that
is not memory (R121). The stops are choices of the spec (decisions D3, D4, D5; logs 12, 13, 6). -/
def Obligations.LwzStops : Prop :=
  ∀ (rD rA : Five) (d : BitVec 16) (s : State) (ea : Word),
    ea = (if rA = 0#5 then 0#32 else s.gprAt rA) + BitVec.ofInt 32 d.toInt →
    (bitOf s.msr 31 = true → exec (.lwz rD rA d) s = .refused .littleEndianAccess) ∧
    (bitOf s.msr 31 = false → ea.toNat % 4 ≠ 0 → exec (.lwz rD rA d) s = .refused (.misalignedAccess ea)) ∧
    (bitOf s.msr 31 = false → ea.toNat % 4 = 0 →
      (s.readByte ea = none ∨ s.readByte (ea + 1#32) = none ∨ s.readByte (ea + 2#32) = none ∨
        s.readByte (ea + 3#32) = none) → exec (.lwz rD rA d) s = .fault (.outsideMemMap ea))

/-! ## Moves to the condition register -/

/-- R214: `mcrf` copies one CR field to another and changes nothing else. -/
def Obligations.McrfCopiesOneField : Prop :=
  ∀ (crfD crfS : FieldNum) (s : State), ∃ t, exec (.mcrf crfD crfS) s = .next t ∧
    fieldAt t.cr crfD = fieldAt s.cr crfS ∧ t.pc = s.pc + 4#32 ∧ Unchanged [.crField crfD] s t

/-- R215: `mtcrf` moves the selected fields of GPR `rS` to the CR and changes no other field. -/
def Obligations.MtcrfMovesSelectedFields : Prop :=
  ∀ (crm : BitVec 8) (rS : Five) (s : State), ∃ t, exec (.mtcrf crm rS) s = .next t ∧
    (∀ n : FieldNum, crm.getMsbD n.toNat = true → fieldAt t.cr n = fieldAt (s.gprAt rS) n) ∧ t.pc = s.pc + 4#32 ∧
    Unchanged (selectedFields crm) s t

/-- R222: `mcrxr` copies SO, OV, CA and a zero to field `crfD` and clears them; XER[16:23] and BYTES stay. -/
def Obligations.McrxrMovesAndClears : Prop :=
  ∀ (crfD : FieldNum) (s : State), s.ReservedZero → ∃ t, exec (.mcrxr crfD) s = .next t ∧
    fieldAt t.cr crfD = BitVec.ofBool (bitOf s.xer 0) ++ BitVec.ofBool (bitOf s.xer 1) ++ BitVec.ofBool (bitOf s.xer 2) ++ 0#1 ∧
    bitOf t.xer 0 = false ∧ bitOf t.xer 1 = false ∧ bitOf t.xer 2 = false ∧ t.pc = s.pc + 4#32 ∧
    Unchanged [.crField crfD, .xerBit 0, .xerBit 1, .xerBit 2] s t

/-! ## FPSCR moves (40_fpscr_moves.md). Each completes with MSR[FP] = 1 in ignore-exceptions mode as said here; precise
mode is `EnabledFpExceptionIsRefused`, MSR[FP] = 0 is `FpscrMovesNeedFpAvailable`. Bits 1 and 2 are
`FexAndVxAreComputed`. -/

/-- R189: `mcrfs` copies a field as it reads and clears exactly its sticky bits. -/
def Obligations.McrfsCopiesAndClearsSticky : Prop :=
  ∀ (crfD crfS : FieldNum) (s : State), s.ReservedZero → bitOf s.msr 18 = true → bitOf s.msr 20 = false → bitOf s.msr 23 = false →
    ∃ t, exec (.mcrfs crfD crfS) s = .next t ∧ fieldAt t.cr crfD = fieldAt s.fpscrRead crfS ∧
      (∀ j : Five, j ≠ 1 → j ≠ 2 → bitOf t.fpscrRead j.toNat =
        (bitOf s.fpscrRead j.toNat && !(decide (j.toNat / 4 = crfS.toNat) && bitOf 0x9FF80700#32 j.toNat))) ∧
      t.pc = s.pc + 4#32 ∧ Unchanged (.crField crfD :: fpscrParts) s t

/-- R190: `mtfsfi` writes one field from the immediate; FX, when field 0 is not written, follows R185 for either value of
`fx_on_mtfsf`; the record form copies the final FPSCR[0:3] to CR1 (R187).
`fx_on_mtfsf` is a free value (decision D21, log 10). -/
def Obligations.MtfsfiWritesOneField : Prop :=
  ∀ (crfD : FieldNum) (imm : BitVec 4) (rc : Bool) (s : State),
    s.ReservedZero → bitOf s.msr 18 = true → bitOf s.msr 20 = false → bitOf s.msr 23 = false →
    ∃ t, exec (.mtfsfi crfD imm rc) s = .next t ∧
      (∀ j : Five, j ≠ 0 → j ≠ 1 → j ≠ 2 → j ≠ 20 → bitOf t.fpscrRead j.toNat =
        if j.toNat / 4 = crfD.toNat then imm.getMsbD (j.toNat % 4) else bitOf s.fpscrRead j.toNat) ∧
      bitOf t.fpscrRead 20 = false ∧
      bitOf t.fpscrRead 0 = (if crfD = 0#3 then imm.getMsbD 0
        else bitOf s.fpscrRead 0 || (Config.fxOnMtfsf && raisesException s.fpscrRead t.fpscrRead)) ∧
      (rc = true → fieldAt t.cr 1 = fieldAt t.fpscrRead 0) ∧ t.pc = s.pc + 4#32 ∧
      Unchanged (fpscrParts ++ if rc then [.crField 1] else []) s t

/-- R191: `mtfsf` writes the fields that FM selects from the low-order word of the FPR, with FX, CR1 and the rest as for
`mtfsfi`. `fx_on_mtfsf` is a free value (decision D21, log 10). -/
def Obligations.MtfsfWritesSelectedFields : Prop :=
  ∀ (fm : BitVec 8) (frB : Five) (rc : Bool) (s : State),
    s.ReservedZero → bitOf s.msr 18 = true → bitOf s.msr 20 = false → bitOf s.msr 23 = false →
    ∃ t, exec (.mtfsf fm frB rc) s = .next t ∧
      (∀ j : Five, j ≠ 0 → j ≠ 1 → j ≠ 2 → j ≠ 20 → bitOf t.fpscrRead j.toNat =
        if fm.getMsbD (j.toNat / 4) = true then (s.fprAt frB).getMsbD (32 + j.toNat) else bitOf s.fpscrRead j.toNat) ∧
      bitOf t.fpscrRead 20 = false ∧
      bitOf t.fpscrRead 0 = (if fm.getMsbD 0 = true then (s.fprAt frB).getMsbD 32
        else bitOf s.fpscrRead 0 || (Config.fxOnMtfsf && raisesException s.fpscrRead t.fpscrRead)) ∧
      (rc = true → fieldAt t.cr 1 = fieldAt t.fpscrRead 0) ∧ t.pc = s.pc + 4#32 ∧
      Unchanged (fpscrParts ++ if rc then [.crField 1] else []) s t

/-- R192: `mtfsb0` clears one bit; clearing bit 1, 2 or 20 changes nothing. -/
def Obligations.Mtfsb0ClearsOneBit : Prop :=
  ∀ (crbD : Five) (rc : Bool) (s : State),
    s.ReservedZero → bitOf s.msr 18 = true → bitOf s.msr 20 = false → bitOf s.msr 23 = false →
    ∃ t, exec (.mtfsb0 crbD rc) s = .next t ∧
      (∀ j : Five, j ≠ 1 → j ≠ 2 → bitOf t.fpscrRead j.toNat = (bitOf s.fpscrRead j.toNat && !decide (j = crbD))) ∧
      (crbD = 1 ∨ crbD = 2 ∨ crbD = 20 → t.fpscrRead = s.fpscrRead) ∧
      (rc = true → fieldAt t.cr 1 = fieldAt t.fpscrRead 0) ∧ t.pc = s.pc + 4#32 ∧
      Unchanged (fpscrParts ++ if rc then [.crField 1] else []) s t

/-- R193: `mtfsb1` sets one bit; an exception bit that goes from 0 to 1 sets FX; setting bit 1, 2 or 20 changes nothing. -/
def Obligations.Mtfsb1SetsOneBit : Prop :=
  ∀ (crbD : Five) (rc : Bool) (s : State),
    s.ReservedZero → bitOf s.msr 18 = true → bitOf s.msr 20 = false → bitOf s.msr 23 = false →
    ∃ t, exec (.mtfsb1 crbD rc) s = .next t ∧
      (∀ j : Five, j ≠ 0 → j ≠ 1 → j ≠ 2 → j ≠ 20 →
        bitOf t.fpscrRead j.toNat = (bitOf s.fpscrRead j.toNat || decide (j = crbD))) ∧
      bitOf t.fpscrRead 0 = (bitOf s.fpscrRead 0 || decide (crbD = 0) ||
        (bitOf 0x1FF80700#32 crbD.toNat && !bitOf s.fpscrRead crbD.toNat)) ∧
      (crbD = 1 ∨ crbD = 2 ∨ crbD = 20 → t.fpscrRead = s.fpscrRead) ∧
      (rc = true → fieldAt t.cr 1 = fieldAt t.fpscrRead 0) ∧ t.pc = s.pc + 4#32 ∧
      Unchanged (fpscrParts ++ if rc then [.crField 1] else []) s t

/-- R183, R372: with MSR[FP] = 0 every FPSCR move takes the floating-point unavailable exception, offset 0x00800, with
SRR0 = `pc`, and has no other effect. That exception is a choice of the spec (decision D28, log 15). -/
def Obligations.FpscrMovesNeedFpAvailable : Prop :=
  ∀ (i : Instr) (s : State), isFpscrMove i = true → s.ReservedZero → bitOf s.msr 18 = false → bitOf s.msr 15 = false →
    ∃ t, exec i s = .next t ∧ EntersException 0x00800#32 s.pc [] s t

/-- R186: an FPSCR move that leaves FEX = 1 while FE0 or FE1 is 1 is refused; otherwise the mode makes no difference to
what it does. The refusal is a choice of the spec (decision D22, log 11). -/
def Obligations.EnabledFpExceptionIsRefused : Prop :=
  ∀ (i : Instr) (s t : State), isFpscrMove i = true → bitOf s.msr 18 = true → exec i s.ignoringFpExceptions = .next t →
    exec i s = if (bitOf s.msr 20 || bitOf s.msr 23) && bitOf t.fpscrRead 1 then .refused .fpEnabledException
      else .next { t with msr := s.msr }

/-- R32, R33: in every state VX is the OR of the invalid operation bits, and FEX the OR of the exception bits masked with
their enable bits. -/
def Obligations.FexAndVxAreComputed : Prop :=
  ∀ s : State,
    (bitOf s.fpscrRead 2 = true ↔ ∃ j ∈ [7, 8, 9, 10, 11, 12, 21, 22, 23], bitOf s.fpscrRead j = true) ∧
    bitOf s.fpscrRead 1 =
      ((bitOf s.fpscrRead 2 && bitOf s.fpscrRead 24) || (bitOf s.fpscrRead 3 && bitOf s.fpscrRead 25) ||
        (bitOf s.fpscrRead 4 && bitOf s.fpscrRead 26) || (bitOf s.fpscrRead 5 && bitOf s.fpscrRead 27) ||
        (bitOf s.fpscrRead 6 && bitOf s.fpscrRead 28))

/-- R34: a sticky FPSCR bit that is 1 is cleared by `mcrfs`, `mtfsfi`, `mtfsf` and `mtfsb0` only; and no instruction but
the FPSCR moves changes the FPSCR at all (R37). -/
def Obligations.StickyBitsAreClearedOnlyByMoves : Prop :=
  ∀ (i : Instr) (s t : State), s.ReservedZero → exec i s = .next t →
    (∀ j : Five, bitOf 0x9FF80700#32 j.toNat = true → bitOf s.fpscrRead j.toNat = true → bitOf t.fpscrRead j.toNat = false →
      (∃ crfD crfS, i = .mcrfs crfD crfS) ∨ (∃ crfD imm rc, i = .mtfsfi crfD imm rc) ∨
      (∃ fm frB rc, i = .mtfsf fm frB rc) ∨ (∃ crbD rc, i = .mtfsb0 crbD rc)) ∧
    (isFpscrMove i = false → t.fpscrRead = s.fpscrRead)

/-! ## Branches (43_branches.md) -/

/-- R263: `b` goes to the displacement, absolute or from `pc`, modulo 2^32, and writes LR with LK. -/
def Obligations.BranchGoesToTarget : Prop :=
  ∀ (li : BitVec 24) (aa lk : Bool) (s : State), ∃ t, exec (.b li aa lk) s = .next t ∧
    t.pc = (if aa then 0#32 else s.pc) + BitVec.ofInt 32 (4 * li.toInt) ∧
    t.lr = (if lk then s.pc + 4#32 else s.lr) ∧ Unchanged [.lr] s t

/-- R264, R261: `bc` decrements the count when BO[2] = 0, taken or not, modulo 2^32; it is taken as R155 says of the
decremented count and the CR bit. -/
def Obligations.BranchConditional : Prop :=
  ∀ (bo bi : Five) (bd : BitVec 14) (aa lk : Bool) (s : State) (count : Word),
    count = (if bo.getMsbD 2 then s.ctr else s.ctr - 1#32) →
    ∃ t, exec (.bc bo bi bd aa lk) s = .next t ∧
      t.pc = (if TakenBy bo bi s.cr count then (if aa then 0#32 else s.pc) + BitVec.ofInt 32 (4 * bd.toInt) else s.pc + 4#32) ∧
      t.ctr = count ∧ t.lr = (if lk then s.pc + 4#32 else s.lr) ∧ Unchanged [.lr, .ctr] s t

/-- R265, R260: `bclr` goes to the old LR without its two low-order bits; LR keeps all 32 bits unless LK is set. -/
def Obligations.BranchToLinkRegister : Prop :=
  ∀ (bo bi : Five) (lk : Bool) (s : State) (count : Word),
    count = (if bo.getMsbD 2 then s.ctr else s.ctr - 1#32) →
    ∃ t, exec (.bclr bo bi lk) s = .next t ∧
      t.pc = (if TakenBy bo bi s.cr count then s.lr.extractLsb' 2 30 ++ 0#2 else s.pc + 4#32) ∧
      t.ctr = count ∧ t.lr = (if lk then s.pc + 4#32 else s.lr) ∧ Unchanged [.lr, .ctr] s t

/-- R266: `bcctr` with BO[2] = 1 goes to CTR without its two low-order bits and leaves CTR alone; with BO[2] = 0 it is
refused. The refusal is a choice of the spec (decision D17, log 14). -/
def Obligations.BranchToCountRegister : Prop :=
  ∀ (bo bi : Five) (lk : Bool) (s : State),
    (bo.getMsbD 2 = true → ∃ t, exec (.bcctr bo bi lk) s = .next t ∧
      t.pc = (if TakenBy bo bi s.cr s.ctr then s.ctr.extractLsb' 2 30 ++ 0#2 else s.pc + 4#32) ∧
      t.lr = (if lk then s.pc + 4#32 else s.lr) ∧ Unchanged [.lr] s t) ∧
    (bo.getMsbD 2 = false → exec (.bcctr bo bi lk) s = .refused .bcctrWithDecrement)

/-- R262 as a rule of the whole machine: LR receives `pc + 4` from a branch with LK = 1, taken or not, the GPR from
`mtspr 8`, and nothing else changes it. -/
def Obligations.LinkRegisterIsWrittenByLinkAndMove : Prop :=
  ∀ (i : Instr) (s t : State), exec i s = .next t →
    t.lr = lrAfter i s

/-! ## Special-purpose registers (44_spr_access.md) -/

/-- R285, R286: XER, LR and CTR are written and read at either level: XER through its mask, LR and CTR whole. -/
def Obligations.UserRegistersMove : Prop :=
  ∀ (r : Five) (s : State),
    (∃ t, exec (.mtspr 1 r) s = .next t ∧ t.xer = s.gprAt r &&& 0xE000FF7F#32 ∧ t.pc = s.pc + 4#32 ∧ Unchanged xerParts s t) ∧
    (∃ t, exec (.mtspr 8 r) s = .next t ∧ t.lr = s.gprAt r ∧ t.pc = s.pc + 4#32 ∧ Unchanged [.lr] s t) ∧
    (∃ t, exec (.mtspr 9 r) s = .next t ∧ t.ctr = s.gprAt r ∧ t.pc = s.pc + 4#32 ∧ Unchanged [.ctr] s t) ∧
    (∃ t, exec (.mfspr r 1) s = .next t ∧ t.gprAt r = s.xer ∧ (s.ReservedZero → t.gprAt r &&& 0x1FFF0080#32 = 0#32) ∧
      t.pc = s.pc + 4#32 ∧ Unchanged [.gpr r] s t) ∧
    (∃ t, exec (.mfspr r 8) s = .next t ∧ t.gprAt r = s.lr ∧ t.pc = s.pc + 4#32 ∧ Unchanged [.gpr r] s t) ∧
    (∃ t, exec (.mfspr r 9) s = .next t ∧ t.gprAt r = s.ctr ∧ t.pc = s.pc + 4#32 ∧ Unchanged [.gpr r] s t)

/-- R287: DSISR, DAR, SRR0, SRR1 and the SPRGs are 32 bits of storage at supervisor level, no bit lost and nothing else
touched; no instruction but the `mtspr` of its number changes an SPRG, DSISR or DAR. That the machine itself never writes
DSISR and DAR rests on the spec never taking the exceptions that do (R352, R366, decision D4, log 13). -/
def Obligations.SupervisorStorageMoves : Prop :=
  (∀ row ∈ storageSprs, ∀ (r : Five) (s : State), bitOf s.msr 17 = false →
    (∃ t, exec (.mtspr row.1 r) s = .next t ∧ row.2.2 t = s.gprAt r ∧ t.pc = s.pc + 4#32 ∧ Unchanged [row.2.1] s t) ∧
    (∃ t, exec (.mfspr r row.1) s = .next t ∧ t.gprAt r = row.2.2 s ∧ t.pc = s.pc + 4#32 ∧ Unchanged [.gpr r] s t)) ∧
  (∀ row ∈ storageSprs, row.1 ≠ 26#10 → row.1 ≠ 27#10 → ∀ (i : Instr) (s t : State), exec i s = .next t →
    (∀ r, i ≠ .mtspr row.1 r) → row.2.1.same s t)

/-- R288: a write of DEC replaces it and signals a request exactly when bit 0 goes from 0 to 1, cancelling none; a read
changes neither DEC nor the request. -/
def Obligations.DecrementerMoves : Prop :=
  ∀ (r : Five) (s : State), bitOf s.msr 17 = false →
    (∃ t, exec (.mtspr 22 r) s = .next t ∧ t.dec = s.gprAt r ∧
      (t.decReq = true ↔ s.decReq = true ∨ (0 ≤ s.dec.toInt ∧ (s.gprAt r).toInt < 0)) ∧ t.pc = s.pc + 4#32 ∧
      Unchanged [.dec, .decReq] s t) ∧
    (∃ t, exec (.mfspr r 22) s = .next t ∧ t.gprAt r = s.dec ∧ t.pc = s.pc + 4#32 ∧ Unchanged [.gpr r] s t)

/-- R290: TBL and TBU are written apart, each leaving the other; the read numbers write nothing and the write numbers read
nothing. The refusal is a choice of the spec (R298, decision D17, log 21). -/
def Obligations.TimeBaseHalvesAreWrittenApart : Prop :=
  ∀ (r : Five) (s : State),
    (bitOf s.msr 17 = false →
      (∃ t, exec (.mtspr 284 r) s = .next t ∧ t.tbl = s.gprAt r ∧ t.pc = s.pc + 4#32 ∧ Unchanged [.tbl] s t) ∧
      (∃ t, exec (.mtspr 285 r) s = .next t ∧ t.tbu = s.gprAt r ∧ t.pc = s.pc + 4#32 ∧ Unchanged [.tbu] s t)) ∧
    (∀ n ∈ ([268, 269] : List (BitVec 10)), exec (.mtspr n r) s = .refused (.unlistedSpr n) ∧
      exec (.mfspr r n) s = .refused (.unlistedSpr n)) ∧
    (∀ n ∈ ([284, 285] : List (BitVec 10)), exec (.mfspr r n) s = .refused (.unlistedSpr n) ∧
      exec (.mftb r n) s = .refused (.unlistedSpr n))

/-- R292: at supervisor level `mtspr` to EIE, EID and NRI sets MSR[EE] and MSR[RI] as Table 2-14 says, ignoring the GPR and
changing no other bit; a read takes the software emulation exception, offset 0x01000 (R365).
The offset is general knowledge (K8) and the MSR bits an entry clears are decision D14 (R355; log 15). -/
def Obligations.EieEidNriSetEeAndRi : Prop :=
  ∀ (r : Five) (s : State), s.ReservedZero → bitOf s.msr 17 = false →
    (s.fpExceptionDue = false →
      (∃ t, exec (.mtspr 80 r) s = .next t ∧ bitOf t.msr 16 = true ∧ bitOf t.msr 30 = true ∧ t.pc = s.pc + 4#32 ∧
        Unchanged [.msrBit 16, .msrBit 30] s t) ∧
      (∃ t, exec (.mtspr 81 r) s = .next t ∧ bitOf t.msr 16 = false ∧ bitOf t.msr 30 = true ∧ t.pc = s.pc + 4#32 ∧
        Unchanged [.msrBit 16, .msrBit 30] s t) ∧
      (∃ t, exec (.mtspr 82 r) s = .next t ∧ bitOf t.msr 16 = false ∧ bitOf t.msr 30 = false ∧ t.pc = s.pc + 4#32 ∧
        Unchanged [.msrBit 16, .msrBit 30] s t)) ∧
    (bitOf s.msr 15 = false → ∀ n ∈ ([80, 81, 82] : List (BitVec 10)),
      ∃ t, exec (.mfspr r n) s = .next t ∧ EntersException 0x01000#32 s.pc [] s t)

/-- R291, R296: PVR is read at supervisor level and cannot be written.
The refusal of the write is a choice of the spec (decision D18, log 21). -/
def Obligations.PvrIsReadOnly : Prop :=
  ∀ (r : Five) (s : State), bitOf s.msr 17 = false →
    (∃ t, exec (.mfspr r 287) s = .next t ∧ t.gprAt r = s.pvr ∧ t.pc = s.pc + 4#32 ∧ Unchanged [.gpr r] s t) ∧
    exec (.mtspr 287 r) s = .refused .readOnlyPvr

/-- R369, R283: at user level `mfmsr`, `mtmsr`, `rfi`, and `mtspr` or `mfspr` naming a supervisor-level register take the
program exception, offset 0x00700, with SRR0 = `pc`, and have no other effect.
The exception is a choice of the spec (decision D16, log 15). -/
def Obligations.PrivilegeViolationTakesProgram : Prop :=
  ∀ (i : Instr) (s : State), s.ReservedZero → bitOf s.msr 17 = true → bitOf s.msr 15 = false →
    ((∃ r, i = .mfmsr r) ∨ (∃ r, i = .mtmsr r) ∨ i = .rfi ∨ (∃ n ∈ supervisorWriteNumbers, ∃ r, i = .mtspr n r) ∨
      (∃ n ∈ supervisorReadNumbers, ∃ r, i = .mfspr r n)) →
    ∃ t, exec i s = .next t ∧ EntersException 0x00700#32 s.pc [] s t

/-- R298: a number outside R100, or listed for the other direction, is refused at either level.
The refusal is a choice of the spec (decision D17), and the place of this check before the privilege check is
read from R280 and R298 (log 21). -/
def Obligations.UnlistedNumbersAreRefused : Prop :=
  ∀ (n : BitVec 10) (r : Five) (s : State),
    (n ∉ supervisorWriteNumbers ++ userNumbers → exec (.mtspr n r) s = .refused (.unlistedSpr n)) ∧
    (n ∉ supervisorReadNumbers ++ userNumbers → exec (.mfspr r n) s = .refused (.unlistedSpr n)) ∧
    (n ∉ ([268, 269] : List (BitVec 10)) → exec (.mftb r n) s = .refused (.unlistedSpr n))

/-- R297: at supervisor level `mtspr` and `mfspr` to the registers the source lists without defining them are refused,
under the register's own name; at user level the privilege check comes first.
The refusal is a choice of the spec (decision D19, log 5). -/
def Obligations.UndescribedRegistersAreRefused : Prop :=
  ∀ (n : BitVec 10) (r : Five) (s : State), n ∈ undescribedNumbers →
    (bitOf s.msr 17 = false → ∃ u : UnitReg, sprOfNumber n = some (.unit u) ∧
      exec (.mtspr n r) s = .refused (.undescribedRegister u) ∧ exec (.mfspr r n) s = .refused (.undescribedRegister u)) ∧
    (s.ReservedZero → bitOf s.msr 17 = true → bitOf s.msr 15 = false →
      (∃ t, exec (.mtspr n r) s = .next t ∧ EntersException 0x00700#32 s.pc [] s t) ∧
      (∃ t, exec (.mfspr r n) s = .next t ∧ EntersException 0x00700#32 s.pc [] s t))

/-- R282: `mftb` reads TBL (268) or TBU (269) at either level and changes nothing else. -/
def Obligations.MftbReadsOneHalf : Prop :=
  ∀ (r : Five) (s : State),
    (∃ t, exec (.mftb r 268) s = .next t ∧ (t.gprAt r).toNat = s.tb.toNat % 2 ^ 32 ∧ t.pc = s.pc + 4#32 ∧
      Unchanged [.gpr r] s t) ∧
    (∃ t, exec (.mftb r 269) s = .next t ∧ (t.gprAt r).toNat = s.tb.toNat / 2 ^ 32 ∧ t.pc = s.pc + 4#32 ∧
      Unchanged [.gpr r] s t)

/-! ## MSR, system call, return (45_msr_access.md) -/

/-- R310, R311: at supervisor level `mfmsr` reads the MSR; `mtmsr` stores the GPR in the twelve defined bits, unless that
leaves a floating-point enabled exception due, which is refused (R186).
The refusal is a choice of the spec (decision D22, log 11), the mask is R66 (log 16). -/
def Obligations.MsrMoves : Prop :=
  ∀ (r : Five) (s : State), bitOf s.msr 17 = false →
    (∃ t, exec (.mfmsr r) s = .next t ∧ t.gprAt r = s.msr ∧ t.pc = s.pc + 4#32 ∧ Unchanged [.gpr r] s t) ∧
    (¬ ((bitOf (s.gprAt r) 20 = true ∨ bitOf (s.gprAt r) 23 = true) ∧ bitOf s.fpscrRead 1 = true) →
      ∃ t, exec (.mtmsr r) s = .next t ∧ t.msr = s.gprAt r &&& 0x0001FF43#32 ∧ t.pc = s.pc + 4#32 ∧
        Unchanged msrParts s t) ∧
    ((bitOf (s.gprAt r) 20 = true ∨ bitOf (s.gprAt r) 23 = true) ∧ bitOf s.fpscrRead 1 = true →
      exec (.mtmsr r) s = .refused .fpEnabledException)

/-- R314, R368: `sc` takes the system call exception at either level: SRR0 is the address after it, offset 0x00C00.
The offset is general knowledge (K8, log 15). -/
def Obligations.ScEntersSystemCall : Prop :=
  ∀ s : State, s.ReservedZero → bitOf s.msr 15 = false →
    ∃ t, exec .sc s = .next t ∧ EntersException 0x00C00#32 (s.pc + 4#32) [] s t

/-- R316: at supervisor level `rfi` restores MSR[16:31] from SRR1[16:31] with the reserved bits zero, keeps MSR[0:15], and
goes to SRR0 without its two low-order bits, unless that leaves a floating-point enabled exception due (R348).
What is restored is the spec's reading (decision D15), the refusal decision D22 (log 11). -/
def Obligations.RfiRestores : Prop :=
  ∀ s : State, s.ReservedZero → bitOf s.msr 17 = false →
    (¬ ((bitOf s.srr1 20 = true ∨ bitOf s.srr1 23 = true) ∧ bitOf s.fpscrRead 1 = true) →
      ∃ t, exec .rfi s = .next t ∧ (∀ j < 16, bitOf t.msr j = bitOf s.msr j) ∧
        (∀ j, 16 ≤ j → j < 32 → bitOf t.msr j = (bitOf s.srr1 j && bitOf 0x0000FF43#32 j)) ∧
        t.pc = s.srr0.extractLsb' 2 30 ++ 0#2 ∧ Unchanged msrParts s t) ∧
    ((bitOf s.srr1 20 = true ∨ bitOf s.srr1 23 = true) ∧ bitOf s.fpscrRead 1 = true →
      exec .rfi s = .refused .fpEnabledException)

/-! ## Exceptions, interrupts, timers (60_exceptions.md) -/

/-- R352 to R355: the entry sequence of each of the six exceptions the machine takes, at its offset of R350 written out in
`takenExceptions`; with MSR[ILE] = 1 it is refused. The decrementer exception alone clears the request; SRR1[0:15]
receives the next free value.
The MSR bits cleared and the offsets are choices of the spec (decision D14, K8, log 15);
SRR1[0:15] is a free value (log 9). -/
def Obligations.ExceptionEntrySequence : Prop :=
  ∀ (s : State) (e : ExceptionKind) (offset resume : Word), (e, offset) ∈ takenExceptions →
    (s.ReservedZero → bitOf s.msr 15 = false →
      ∃ t, s.take e resume = .next t ∧ EntersException offset resume [.decReq] s t ∧
        t.msr = s.msr &&& 0x00001040#32 ∧ t.decReq = (s.decReq && decide (e ≠ .decrementer)) ∧
        t.srr1.extractLsb' 16 16 = Config.exceptionInfo s.draws ∧ t.draws = s.draws + 1) ∧
    (bitOf s.msr 15 = true → s.take e resume = .refused .littleEndianEntry)

/-- R360 to R362: at a boundary with EE = 1 the processor may take the external interrupt while it is requested and the
decrementer exception while `dec_req` = 1, resuming at `pc`, whichever the schedule asks for; the first leaves the
request input as it is, the second clears `dec_req`. With EE = 0, or where the turn asks for an exception that is not
pending or for none, it takes neither and runs the instruction. With MSR[ILE] = 1 the taking is refused (R352, decision
D3, log 12). That the choice stands in the schedule, and that `anyPending` takes the external interrupt first, are the
model's (decision D20, logs 7 and 8). -/
def Obligations.AsynchronousExceptionsAreTakenAtBoundaries : Prop :=
  ∀ (s : State) (r : Recognition), s.nextTurn = .processor r → s.ReservedZero → s.fpExceptionDue = false →
    (bitOf s.msr 16 = true → bitOf s.msr 15 = false → s.extIrq = true → (r = .external ∨ r = .anyPending) →
      ∃ t, step s = .next t ∧ EntersException 0x00500#32 s.pc [.schedule] s t) ∧
    (bitOf s.msr 16 = true → bitOf s.msr 15 = false → s.decReq = true →
      (r = .decrementer ∨ (r = .anyPending ∧ s.extIrq = false)) →
      ∃ t, step s = .next t ∧ EntersException 0x00900#32 s.pc [.schedule, .decReq] s t ∧ t.decReq = false) ∧
    (bitOf s.msr 16 = true → bitOf s.msr 15 = true →
      (s.extIrq = true ∧ (r = .external ∨ r = .anyPending)) ∨ (s.decReq = true ∧ (r = .decrementer ∨ r = .anyPending)) →
      step s = .refused .littleEndianEntry) ∧
    (bitOf s.msr 16 = false ∨ r = .execute ∨ (s.extIrq = false ∧ s.decReq = false) ∨ (r = .external ∧ s.extIrq = false) ∨
      (r = .decrementer ∧ s.decReq = false) → step s = s.popTurn.runInstruction)

/-- R370: a turn of the time-base agent adds 1 to the 64-bit value modulo 2^64, carry into TBU included, at either level
and whatever the MSR holds, and does nothing else.
That it is an agent of its own, and the wrap, are choices of the spec (decision D8); the turn is the
model's (log 7). -/
def Obligations.TimeBaseAgentStep : Prop :=
  ∀ (s : State) (rest : List Turn), s.schedule = .timeBase :: rest →
    ∃ t, step s = .next t ∧ t.tbu.toNat * 2 ^ 32 + t.tbl.toNat = (s.tbu.toNat * 2 ^ 32 + s.tbl.toNat + 1) % 2 ^ 64 ∧
      t.schedule = rest ∧ t.pc = s.pc ∧ Unchanged [.tbu, .tbl, .schedule] s t

/-- R371: a turn of the decrementer agent subtracts 1 modulo 2^32 and signals a request exactly at the step from 0; a
pending request stays; and it does nothing else.
That it is an agent of its own is a choice of the spec (decision D8); the turn is the
model's (log 7). -/
def Obligations.DecrementerAgentStep : Prop :=
  ∀ (s : State) (rest : List Turn), s.schedule = .decrementer :: rest →
    ∃ t, step s = .next t ∧ (t.dec.toNat : Int) = ((s.dec.toNat : Int) - 1) % 2 ^ 32 ∧
      (t.decReq = true ↔ s.decReq = true ∨ s.dec = 0#32) ∧
      t.schedule = rest ∧ t.pc = s.pc ∧ Unchanged [.dec, .decReq, .schedule] s t

/-- R360: the request input changes only when the environment drives it, to the level it drives; and a turn of the
environment completes and changes nothing else. The input is the spec's parameter (decision D26); the turn is the model's
(log 7). -/
def Obligations.RequestInputIsDrivenByEnvironment : Prop :=
  (∀ s t : State, step s = .next t → t.extIrq = requestAfter s.nextTurn s.extIrq) ∧
  (∀ (s : State) (level : Bool) (rest : List Turn), s.schedule = .externalRequest level :: rest →
    ∃ t, step s = .next t ∧ t.extIrq = level ∧ t.schedule = rest ∧ t.pc = s.pc ∧ Unchanged [.extIrq, .schedule] s t)

/-! ## The whole machine -/

/-- Every step keeps the invariant: reserved bits stay zero (R23, R66), `pc` stays word-aligned (R24), memory keeps its
form, and no floating-point enabled exception is ever left due (R348).
The alignment of `pc` and the last clause are choices of the spec (decisions D1, D22). -/
def Obligations.StepKeepsInvariant : Prop :=
  ∀ s t : State, s.Inv → step s = .next t → t.Inv

/-- Every state the spec admits after reset, with memory in its form, meets the invariant; `State.reset` does. -/
def Obligations.PowerOnMeetsInvariant : Prop :=
  (∀ (ip : Bool) (held : State), held.mem.wf = true → (State.powerOn ip held).Inv) ∧ State.reset.Inv

/-- R67, R110, R392: whatever the machine held and whatever `reset_ip` is, after reset the MSR is zero but for ME and IP,
execution starts at the system reset vector, and the registers marked UNCHANGED keep what they held, reserved bits
aside. ME as a drawn value and the start address are choices of the spec (decisions D11, D13; logs 2 and 3). -/
def Obligations.ResetValues : Prop :=
  ∀ (ip : Bool) (held : State),
    (∀ j < 32, j ≠ 19 → j ≠ 25 → bitOf (State.powerOn ip held).msr j = false) ∧
    bitOf (State.powerOn ip held).msr 25 = ip ∧ bitOf (State.powerOn ip held).msr 19 = bitOf held.msr 19 ∧
    (State.powerOn ip held).pc = (if ip then 0xFFF00100#32 else 0x00000100#32) ∧
    (held.ReservedZero → Unchanged msrParts held (State.powerOn ip held))

/-- R340 to R342: a step of the processor at user level either leaves the level and every supervisor piece of state as
they are, or takes an exception, after which the level is supervisor and nothing but the entry's own pieces has changed. -/
def Obligations.UserLevelCannotReachSupervisorState : Prop :=
  ∀ (s t : State) (r : Recognition), s.Inv → bitOf s.msr 17 = true → s.nextTurn = .processor r → step s = .next t →
    (∀ p : Part, p.supervisor = true → p.same s t) ∨
    (∃ offset resume, offset ∈ [0x00500#32, 0x00700#32, 0x00800#32, 0x00900#32, 0x00C00#32] ∧
      (resume = s.pc ∨ resume = s.pc + 4#32) ∧ EntersException offset resume [.decReq, .schedule] s t)

/-- No step changes a byte of memory, so the program text is immutable (R140, D7); nor an FPR, PVR, or a register the
spec does not describe. That there is no other agent writing memory is a choice of the spec (decision D6, log 18); that
the undescribed registers stay as they are is the model's, which gives them no function (R376, log 5). -/
def Obligations.NoStepChangesMemoryOrConstants : Prop :=
  ∀ s t : State, step s = .next t →
    (∀ a : Word, t.readByte a = s.readByte a) ∧ (∀ r : Five, t.fprAt r = s.fprAt r) ∧ t.pvr = s.pvr ∧ t.units = s.units

/-- R240, R50: SO, once set, is cleared by `mtspr 1` and `mcrxr` only; XER[16:23] and BYTES are changed by `mtspr 1` only;
and no instruction but `subfc`, `addic.`, `mcrxr` and `mtspr 1` changes the XER. -/
def Obligations.SummaryOverflowIsSticky : Prop :=
  ∀ (i : Instr) (s t : State), s.ReservedZero → exec i s = .next t → (∀ r, i ≠ .mtspr 1 r) →
    (bitOf s.xer 0 = true → (∀ crfD, i ≠ .mcrxr crfD) → bitOf t.xer 0 = true) ∧
    t.xer &&& 0x0000FFFF#32 = s.xer &&& 0x0000FFFF#32 ∧
    ((∀ rD rA rB oe rc, i ≠ .subfc rD rA rB oe rc) → (∀ rD rA simm, i ≠ .addicDot rD rA simm) →
      (∀ crfD, i ≠ .mcrxr crfD) → t.xer = s.xer)

/-- R47: the CR is changed only in the ways the source lists: each instruction leaves every CR field alone but those its
rule names. -/
def Obligations.CrChangesOnlyInListedFields : Prop :=
  ∀ (i : Instr) (s t : State), exec i s = .next t → ∀ n : FieldNum, Part.crField n ∉ crFieldsWritten i →
    fieldAt t.cr n = fieldAt s.cr n
end

