-- ==== Sys2Proof/Laws/Bits.lean ====
section
/-! SUPPORT. Bits and fields of words: what `bitOf`, `withBit`, `fieldAt` and `withField` read after each other, and the
masks of the status registers. -/
namespace Sys2Proof.Machine

theorem bitOf_eq_getLsbD (v : Word) (j : Nat) (hj : j < 32) : bitOf v j = v.getLsbD (31 - j) := by
  simp [bitOf, BitVec.getMsbD, hj]

theorem word_ext {a b : Word} (h : ∀ j < 32, bitOf a j = bitOf b j) : a = b := by
  apply BitVec.eq_of_getLsbD_eq
  intro i hi
  have := h (31 - i) (by omega)
  rw [bitOf_eq_getLsbD _ _ (by omega), bitOf_eq_getLsbD _ _ (by omega)] at this
  rwa [show 31 - (31 - i) = i by omega] at this

@[simp] theorem bitOf_and (a b : Word) (j : Nat) : bitOf (a &&& b) j = (bitOf a j && bitOf b j) := by
  simp [bitOf]

@[simp] theorem bitOf_or (a b : Word) (j : Nat) : bitOf (a ||| b) j = (bitOf a j || bitOf b j) := by
  simp [bitOf]

theorem bitOf_not (a : Word) (j : Nat) (hj : j < 32) : bitOf (~~~a) j = !bitOf a j := by
  simp [bitOf, hj]

@[simp] theorem bitOf_zero (j : Nat) : bitOf 0#32 j = false := by simp [bitOf]

theorem bitOf_bitMask (i j : Nat) (hi : i < 32) (hj : j < 32) : bitOf (bitMask i) j = decide (j = i) := by
  rw [bitOf_eq_getLsbD _ _ hj, bitMask]
  interval_cases i <;> interval_cases j <;> decide

/-- Reading a bit after writing one. -/
theorem bitOf_withBit (v : Word) (i j : Nat) (b : Bool) (hi : i < 32) (hj : j < 32) :
    bitOf (withBit v i b) j = if j = i then b else bitOf v j := by
  cases b <;> by_cases h : j = i <;> simp [withBit, bitOf_not, bitOf_bitMask, hi, hj, h]

theorem bitOf_fieldMask (n : FieldNum) (j : Nat) (hj : j < 32) : bitOf (fieldMask n) j = decide (j / 4 = n.toNat) := by
  have hn := n.isLt
  rw [bitOf_eq_getLsbD _ _ hj, fieldMask]
  generalize n.toNat = k at hn ⊢
  interval_cases k <;> interval_cases j <;> decide

/-- A bit of a field placed in a word. -/
theorem bitOf_placedField (n : FieldNum) (f : BitVec 4) (j : Nat) (hj : j < 32) :
    bitOf (f.setWidth 32 <<< (28 - 4 * n.toNat)) j = (decide (j / 4 = n.toNat) && f.getMsbD (j % 4)) := by
  have hn := n.isLt
  rw [bitOf_eq_getLsbD _ _ hj]
  generalize n.toNat = k at hn ⊢
  interval_cases k <;> interval_cases j <;> simp [BitVec.getMsbD]

/-- Reading a bit after writing a field. -/
theorem bitOf_withField (v : Word) (n : FieldNum) (f : BitVec 4) (j : Nat) (hj : j < 32) :
    bitOf (withField v n f) j = if j / 4 = n.toNat then f.getMsbD (j % 4) else bitOf v j := by
  by_cases h : j / 4 = n.toNat <;> simp [withField, bitOf_not, bitOf_fieldMask, bitOf_placedField, hj, h]

/-- A bit of a field of a word. -/
theorem getMsbD_fieldAt (v : Word) (n : FieldNum) (k : Nat) (hk : k < 4) :
    (fieldAt v n).getMsbD k = bitOf v (4 * n.toNat + k) := by
  have hn := n.isLt
  rw [bitOf_eq_getLsbD _ _ (by omega)]
  simp only [fieldAt, BitVec.getMsbD, hk, decide_true, Bool.true_and, BitVec.getLsbD_extractLsb']
  rw [show 28 - 4 * n.toNat + (4 - 1 - k) = 31 - (4 * n.toNat + k) by omega]
  simp [show 4 - 1 - k < 4 by omega]

theorem field_ext {f g : BitVec 4} (h : ∀ k < 4, f.getMsbD k = g.getMsbD k) : f = g := by
  apply BitVec.eq_of_getMsbD_eq
  intro i hi
  exact h i hi

/-- Reading the field that was written. -/
@[simp] theorem fieldAt_withField_same (v : Word) (n : FieldNum) (f : BitVec 4) : fieldAt (withField v n f) n = f := by
  have hn := n.isLt
  apply field_ext
  intro k hk
  rw [getMsbD_fieldAt _ _ _ hk, bitOf_withField _ _ _ _ (by omega), if_pos (by omega)]
  congr 1
  omega

/-- Writing a field leaves every other field. -/
theorem fieldAt_withField_ne (v : Word) (n m : FieldNum) (f : BitVec 4) (h : m ≠ n) :
    fieldAt (withField v n f) m = fieldAt v m := by
  have hm := m.isLt
  have hne : m.toNat ≠ n.toNat := fun e => h (BitVec.eq_of_toNat_eq e)
  apply field_ext
  intro k hk
  rw [getMsbD_fieldAt _ _ _ hk, getMsbD_fieldAt _ _ _ hk, bitOf_withField _ _ _ _ (by omega), if_neg (by omega)]

theorem bitOf_foldl_fieldMask (m : BitVec 8) (j : Nat) (hj : j < 32) :
    ∀ (l : List Nat) (acc : Word), (∀ i ∈ l, i < 8) →
      bitOf (l.foldl (fun acc i => if m.getMsbD i then acc ||| fieldMask (BitVec.ofNat 3 i) else acc) acc) j =
        (bitOf acc j || (decide (j / 4 ∈ l) && m.getMsbD (j / 4)))
  | [], acc, _ => by simp
  | i :: l, acc, h => by
    have hi : i < 8 := h i (by simp)
    rw [List.foldl_cons, bitOf_foldl_fieldMask m j hj l _ (fun k hk => h k (by simp [hk]))]
    by_cases hji : j / 4 = i
    · subst hji
      cases hm : m.getMsbD (j / 4) <;> simp [bitOf_fieldMask, hj, Nat.mod_eq_of_lt hi]
    · cases hm : m.getMsbD i <;> simp [bitOf_fieldMask, hj, Nat.mod_eq_of_lt hi, hji]

/-- Which bits a field mask selects: bit `i` of the mask selects the bits of field `i` (R215, R191). -/
theorem bitOf_fieldsMask (m : BitVec 8) (j : Nat) (hj : j < 32) : bitOf (fieldsMask m) j = m.getMsbD (j / 4) := by
  rw [fieldsMask, bitOf_foldl_fieldMask m j hj _ _ (by simp)]
  simp [show j / 4 < 8 by omega]

/-- A word with no bit outside a mask is not changed by it. -/
theorem and_mask_eq_self {v m : Word} (h : v &&& ~~~m = 0#32) : v &&& m = v := by
  apply word_ext
  intro j hj
  have := congrArg (fun w => bitOf w j) h
  simp only [bitOf_and, bitOf_not _ _ hj, bitOf_zero] at this
  rw [bitOf_and]
  cases h1 : bitOf v j <;> cases h2 : bitOf m j <;> simp_all

end Sys2Proof.Machine
end

