-- ==== Sys2Proof/Laws/Encoding.lean ====
section
/-! SUPPORT. Fields placed in words and read from them, bytes and words, and the rows of the opcode map. -/
namespace Sys2Proof
open Machine

/-- A bit of a field placed in a word (R5). -/
theorem bitOf_place {n : Nat} (x : BitVec n) (a j : Nat) (ha : a + n ≤ 32) (hj : j < 32) :
    bitOf (place x a) j = (decide (a ≤ j) && x.getMsbD (j - a)) := by
  rw [bitOf_eq_getLsbD _ _ hj, place, BitVec.getLsbD_shiftLeft, BitVec.getLsbD_setWidth, BitVec.getMsbD]
  by_cases h1 : j < a + n
  · by_cases h2 : a ≤ j
    · have e : n - 1 - (j - a) = 31 - j - (32 - a - n) := by omega
      simp [h2, show j - a < n by omega, e, show 31 - j < 32 by omega, show ¬ (31 - j < 32 - a - n) by omega, show 31 - j - (32 - a - n) < 32 by omega]
    · have : x.getLsbD (31 - j - (32 - a - n)) = false := BitVec.getLsbD_of_ge _ _ (by omega)
      simp [h2, this]
  · simp [show ¬ (j - a < n) by omega, show 31 - j < 32 - a - n by omega]

/-- A bit of an option bit placed in a word (R5). -/
theorem bitOf_placeBit (x : Bool) (a j : Nat) (ha : a < 32) (hj : j < 32) :
    bitOf (placeBit x a) j = (decide (j = a) && x) := by
  rw [placeBit, bitOf_place _ _ _ (by omega) hj]
  by_cases h : j = a
  · subst h; cases x <;> simp
  · by_cases h2 : a ≤ j
    · have : (BitVec.ofBool x).getMsbD (j - a) = false := by
        rw [BitVec.getMsbD]; simp [show ¬ (j - a < 1) by omega]
      simp [h, h2, this]
    · simp [h, h2]

/-- A bit of a field read from a word. -/
theorem getMsbD_fieldOf (w : Word) (a n k : Nat) (ha : a + n ≤ 32) (hk : k < n) : (fieldOf w a n).getMsbD k = bitOf w (a + k) := by
  rw [bitOf_eq_getLsbD _ _ (by omega), fieldOf, BitVec.getMsbD, BitVec.getLsbD_extractLsb']
  have : 32 - a - n + (n - 1 - k) = 31 - (a + k) := by omega
  simp [hk, this]; omega

/-- The bytes of a word, put together again (R123). -/
theorem wordOfBytes_bytesOfWord (w : Word) : wordOfBytes (fieldOf w 0 8) (fieldOf w 8 8) (fieldOf w 16 8) (fieldOf w 24 8) = w := by
  apply BitVec.eq_of_getLsbD_eq
  intro i hi
  have h : ∀ (a b c d : Byte) (k : Nat), (a ++ b ++ c ++ d : BitVec (8+8+8+8)).getLsbD k = if k < 8 then d.getLsbD k else if k - 8 < 8 then c.getLsbD (k - 8) else if k - 8 - 8 < 8 then b.getLsbD (k-8-8) else a.getLsbD (k-8-8-8) := by
    intro a b c d k
    rw [BitVec.getLsbD_append, BitVec.getLsbD_append, BitVec.getLsbD_append]
  refine (h _ _ _ _ i).trans ?_
  simp only [fieldOf, BitVec.getLsbD_extractLsb']
  split
  · next h => simp only [h, decide_true, Bool.true_and]; congr 1; omega
  · split
    · next h => simp only [h, decide_true, Bool.true_and]; congr 1; omega
    · split
      · next h => simp only [h, decide_true, Bool.true_and]; congr 1; omega
      · simp only [show i - 8 - 8 - 8 < 8 by omega, decide_true, Bool.true_and]; congr 1; omega

/-- The decoder reads the word whose bytes come first (R150). -/
theorem decode_bytesOfWord (w : Word) (rest : List Byte) : decode (bytesOfWord w ++ rest) = decodeWord w := by
  show decodeWord (wordOfBytes _ _ _ _) = _
  rw [wordOfBytes_bytesOfWord]

/-- A word is the word of a row when every bit in the mask is the bit of the pattern (R160). -/
theorem holds_of_bits {w m p : Word} (hp : p &&& m = p) (h : ∀ j < 32, bitOf m j = true → bitOf w j = bitOf p j) : w &&& m = p := by
  apply word_ext
  intro j hj
  have := congrArg (fun v => bitOf v j) hp
  simp only [bitOf_and] at this
  rw [bitOf_and]
  cases hm : bitOf m j
  · rw [hm] at this; simp at this ⊢; exact this
  · rw [h j hj hm]; simp

/-- A bit inside the mask of a row (R160). -/
theorem bitOf_of_holds {w m p : Word} (h : w &&& m = p) (j : Nat) (hm : bitOf m j = true) : bitOf w j = bitOf p j := by
  rw [← h, bitOf_and, hm, Bool.and_true]

/-- Two rows differ in a bit that both masks hold (R160). -/
theorem rows_disjoint : opcodeRows.Pairwise (fun r r' => r.mask &&& r'.mask &&& (r.pattern ^^^ r'.pattern) ≠ 0#32) := by
  decide

/-- No word is the word of two rows. -/
theorem not_both {r r' : OpcodeRow} {w : Word} (hd : r.mask &&& r'.mask &&& (r.pattern ^^^ r'.pattern) ≠ 0#32) (h : w &&& r.mask = r.pattern) : w &&& r'.mask ≠ r'.pattern := by
  intro h'
  apply hd
  rw [← h, ← h']
  apply word_ext
  intro j hj
  simp [bitOf]
  cases BitVec.getMsbD w j <;> simp
  intro h1 h2
  rw [h1, h2]

/-- The word of a row decodes to what the row builds (R160). -/
theorem decodeWord_of_row {r : OpcodeRow} {w : Word} (hr : r ∈ opcodeRows) (h : w &&& r.mask = r.pattern) : decodeWord w = .ok (r.build w) := by
  have key : ∀ l : List OpcodeRow, l.Pairwise (fun r r' => r.mask &&& r'.mask &&& (r.pattern ^^^ r'.pattern) ≠ 0#32) → r ∈ l → l.find? (fun r => r.holds w) = some r := by
    intro l
    induction l with
    | nil => intro _ hm; cases hm
    | cons q l ih =>
      intro hp hm
      rw [List.pairwise_cons] at hp
      rcases List.mem_cons.mp hm with rfl | hm
      · rw [List.find?_cons_of_pos]; simp [OpcodeRow.holds, h]
      · rw [List.find?_cons_of_neg]
        · exact ih hp.2 hm
        · intro hq
          simp only [OpcodeRow.holds, beq_iff_eq] at hq
          exact not_both (hp.1 r hm) hq h
  rw [decodeWord, key _ rows_disjoint hr]

/-- What decodes is the word of a row (R160). -/
theorem decodeWord_ok {w : Word} {i : Instr} (h : decodeWord w = .ok i) : ∃ r ∈ opcodeRows, w &&& r.mask = r.pattern ∧ i = r.build w := by
  unfold decodeWord at h
  split at h
  · next r hr =>
    have h1 := List.find?_some hr
    have h2 := List.mem_of_find?_eq_some hr
    simp only [OpcodeRow.holds, beq_iff_eq] at h1
    exact ⟨r, h2, h1, (Except.ok.inj h).symm⟩
  · cases h

/-- A field lies outside a mask whatever its value, when its whole place does. -/
theorem place_and_eq_zero {n : Nat} (x : BitVec n) (a : Nat) (m : Word) (h : place (BitVec.allOnes n) a &&& m = 0#32) :
    place x a &&& m = 0#32 := by
  apply BitVec.eq_of_getLsbD_eq
  intro i hi
  have := congrArg (fun v => v.getLsbD i) h
  simp only [place, BitVec.getLsbD_and, BitVec.getLsbD_shiftLeft, BitVec.getLsbD_setWidth, BitVec.getLsbD_zero, BitVec.getLsbD_allOnes] at this ⊢
  cases hx : x.getLsbD (i - (32 - a - n))
  · simp
  · have hlt : i - (32 - a - n) < n := by
      by_contra hge
      rw [BitVec.getLsbD_of_ge _ _ (by omega)] at hx
      cases hx
    simpa [hlt] using this


/-- A field, bit by bit. -/
theorem fieldOf_ext {n : Nat} {w : Word} {a : Nat} {x : BitVec n} (ha : a + n ≤ 32) (h : ∀ k < n, bitOf w (a + k) = x.getMsbD k) : fieldOf w a n = x := by
  apply BitVec.eq_of_getMsbD_eq
  intro k hk
  rw [getMsbD_fieldOf _ _ _ _ ha hk, h k hk]

/-- A field of an OR. -/
theorem fieldOf_or {n : Nat} (v w : Word) (a : Nat) (ha : a + n ≤ 32) : fieldOf (v ||| w) a n = fieldOf v a n ||| fieldOf w a n := by
  apply BitVec.eq_of_getMsbD_eq
  intro k hk
  rw [getMsbD_fieldOf _ _ _ _ ha hk, BitVec.getMsbD_or, getMsbD_fieldOf _ _ _ _ ha hk, getMsbD_fieldOf _ _ _ _ ha hk, bitOf_or]

/-- Reading the field that was placed. -/
theorem fieldOf_place_same {n : Nat} (x : BitVec n) (a : Nat) (ha : a + n ≤ 32) : fieldOf (place x a) a n = x := by
  apply fieldOf_ext ha
  intro k hk
  rw [bitOf_place _ _ _ ha (by omega)]
  simp

/-- Reading beside a field that was placed. -/
theorem fieldOf_place_out {n m : Nat} (x : BitVec m) (a b : Nat) (ha : a + n ≤ 32) (hb : b + m ≤ 32) (h : b + m ≤ a ∨ a + n ≤ b) : fieldOf (place x b) a n = 0#n := by
  apply fieldOf_ext ha
  intro k hk
  rw [bitOf_place _ _ _ hb (by omega), BitVec.getMsbD_zero]
  rcases h with h | h
  · have : x.getMsbD (a + k - b) = false := BitVec.getMsbD_of_ge _ _ (by omega)
    simp [this]
  · simp [show ¬ b ≤ a + k by omega]

/-- A bit beside a field that was placed. -/
theorem bitOf_place_out {m : Nat} (x : BitVec m) (a b : Nat) (ha : a < 32) (hb : b + m ≤ 32) (h : b + m ≤ a ∨ a < b) : bitOf (place x b) a = false := by
  rw [bitOf_place _ _ _ hb ha]
  rcases h with h | h
  · have : x.getMsbD (a - b) = false := BitVec.getMsbD_of_ge _ _ (by omega)
    simp [this]
  · simp [show ¬ b ≤ a by omega]

/-- The option bit that was placed. -/
theorem bitOf_placeBit_same (x : Bool) (a : Nat) (ha : a < 32) : bitOf (placeBit x a) a = x := by simp [bitOf_placeBit _ _ _ ha ha]

/-- A bit beside an option bit. -/
theorem bitOf_placeBit_out (x : Bool) (a b : Nat) (ha : a < 32) (hb : b < 32) (h : a ≠ b) : bitOf (placeBit x b) a = false := by simp [bitOf_placeBit _ _ _ hb ha, h]

/-- A field beside an option bit. -/
theorem fieldOf_placeBit_out {n : Nat} (x : Bool) (a b : Nat) (ha : a + n ≤ 32) (hb : b < 32) (h : b < a ∨ a + n ≤ b) : fieldOf (placeBit x b) a n = 0#n := fieldOf_place_out _ _ _ ha (by omega) (by omega)

/-- A register number from its halves (R153). -/
theorem spr_halves (n : BitVec 10) : n.extractLsb' 5 5 ++ n.extractLsb' 0 5 = n := by
  have h : ∀ (m k : Nat) (v : BitVec (m + k)), v.extractLsb' k m ++ v.extractLsb' 0 k = v := by intros; simp
  exact h 5 5 n

/-- Placing a field where it was read keeps its bits (R5). -/
theorem place_fieldOf (w : Word) (a n : Nat) (ha : a + n ≤ 32) :
    place (fieldOf w a n) a = w &&& place (BitVec.allOnes n) a := by
  apply word_ext
  intro j hj
  rw [bitOf_and, bitOf_place _ _ _ ha hj, bitOf_place _ _ _ ha hj]
  by_cases h1 : a ≤ j
  · by_cases h2 : j - a < n
    · rw [getMsbD_fieldOf _ _ _ _ ha h2, BitVec.getMsbD_allOnes]
      simp [h1, h2, show a + (j - a) = j by omega]
    · rw [BitVec.getMsbD_of_ge _ _ (by omega), BitVec.getMsbD_of_ge _ _ (by omega)]
      simp
  · simp [h1]

/-- Placing an option bit where it was read keeps it (R5). -/
theorem placeBit_bitOf (w : Word) (a : Nat) (ha : a < 32) : placeBit (bitOf w a) a = w &&& placeBit true a := by
  apply word_ext
  intro j hj
  rw [bitOf_and, bitOf_placeBit _ _ _ ha hj, bitOf_placeBit _ _ _ ha hj]
  by_cases h : j = a
  · subst h; simp
  · simp [h]

/-- The halves of a register number read from a word (R153). -/
theorem sprField_low (w : Word) : (sprField w).extractLsb' 0 5 = fieldOf w 11 5 := by
  apply BitVec.eq_of_getLsbD_eq
  intro i hi
  rw [BitVec.getLsbD_extractLsb']
  refine Eq.trans (congrArg _ (BitVec.getLsbD_append (x := fieldOf w 16 5) (y := fieldOf w 11 5))) ?_
  simp [hi]

theorem sprField_high (w : Word) : (sprField w).extractLsb' 5 5 = fieldOf w 16 5 := by
  apply BitVec.eq_of_getLsbD_eq
  intro i hi
  rw [BitVec.getLsbD_extractLsb']
  refine Eq.trans (congrArg _ (BitVec.getLsbD_append (x := fieldOf w 16 5) (y := fieldOf w 11 5))) ?_
  simp [hi]

end Sys2Proof
end

