-- ==== Sys2Proof/Laws/State.lean ====
section
/-! SUPPORT. One lemma per field per update of State, true by rfl: later proofs simplify with them and unfold no record
update. -/
namespace Sys2Proof.Machine
variable (s : State)

/-! ### `State.setGpr` -/

@[simp] theorem State.setGpr_gpr (r : Five) (v : Word) : (s.setGpr r v).gpr = s.gpr.set r.toNat v r.isLt := rfl
@[simp] theorem State.setGpr_fpr (r : Five) (v : Word) : (s.setGpr r v).fpr = s.fpr := rfl
@[simp] theorem State.setGpr_fpscr (r : Five) (v : Word) : (s.setGpr r v).fpscr = s.fpscr := rfl
@[simp] theorem State.setGpr_cr (r : Five) (v : Word) : (s.setGpr r v).cr = s.cr := rfl
@[simp] theorem State.setGpr_xer (r : Five) (v : Word) : (s.setGpr r v).xer = s.xer := rfl
@[simp] theorem State.setGpr_lr (r : Five) (v : Word) : (s.setGpr r v).lr = s.lr := rfl
@[simp] theorem State.setGpr_ctr (r : Five) (v : Word) : (s.setGpr r v).ctr = s.ctr := rfl
@[simp] theorem State.setGpr_tb (r : Five) (v : Word) : (s.setGpr r v).tb = s.tb := rfl
@[simp] theorem State.setGpr_msr (r : Five) (v : Word) : (s.setGpr r v).msr = s.msr := rfl
@[simp] theorem State.setGpr_dsisr (r : Five) (v : Word) : (s.setGpr r v).dsisr = s.dsisr := rfl
@[simp] theorem State.setGpr_dar (r : Five) (v : Word) : (s.setGpr r v).dar = s.dar := rfl
@[simp] theorem State.setGpr_dec (r : Five) (v : Word) : (s.setGpr r v).dec = s.dec := rfl
@[simp] theorem State.setGpr_decReq (r : Five) (v : Word) : (s.setGpr r v).decReq = s.decReq := rfl
@[simp] theorem State.setGpr_srr0 (r : Five) (v : Word) : (s.setGpr r v).srr0 = s.srr0 := rfl
@[simp] theorem State.setGpr_srr1Info (r : Five) (v : Word) : (s.setGpr r v).srr1Info = s.srr1Info := rfl
@[simp] theorem State.setGpr_srr1Msr (r : Five) (v : Word) : (s.setGpr r v).srr1Msr = s.srr1Msr := rfl
@[simp] theorem State.setGpr_sprg0 (r : Five) (v : Word) : (s.setGpr r v).sprg0 = s.sprg0 := rfl
@[simp] theorem State.setGpr_sprg1 (r : Five) (v : Word) : (s.setGpr r v).sprg1 = s.sprg1 := rfl
@[simp] theorem State.setGpr_sprg2 (r : Five) (v : Word) : (s.setGpr r v).sprg2 = s.sprg2 := rfl
@[simp] theorem State.setGpr_sprg3 (r : Five) (v : Word) : (s.setGpr r v).sprg3 = s.sprg3 := rfl
@[simp] theorem State.setGpr_pvr (r : Five) (v : Word) : (s.setGpr r v).pvr = s.pvr := rfl
@[simp] theorem State.setGpr_units (r : Five) (v : Word) : (s.setGpr r v).units = s.units := rfl
@[simp] theorem State.setGpr_pc (r : Five) (v : Word) : (s.setGpr r v).pc = s.pc := rfl
@[simp] theorem State.setGpr_extIrq (r : Five) (v : Word) : (s.setGpr r v).extIrq = s.extIrq := rfl
@[simp] theorem State.setGpr_mem (r : Five) (v : Word) : (s.setGpr r v).mem = s.mem := rfl
@[simp] theorem State.setGpr_schedule (r : Five) (v : Word) : (s.setGpr r v).schedule = s.schedule := rfl
@[simp] theorem State.setGpr_draws (r : Five) (v : Word) : (s.setGpr r v).draws = s.draws := rfl

/-! ### `State.advance` -/

@[simp] theorem State.advance_gpr : s.advance.gpr = s.gpr := rfl
@[simp] theorem State.advance_fpr : s.advance.fpr = s.fpr := rfl
@[simp] theorem State.advance_fpscr : s.advance.fpscr = s.fpscr := rfl
@[simp] theorem State.advance_cr : s.advance.cr = s.cr := rfl
@[simp] theorem State.advance_xer : s.advance.xer = s.xer := rfl
@[simp] theorem State.advance_lr : s.advance.lr = s.lr := rfl
@[simp] theorem State.advance_ctr : s.advance.ctr = s.ctr := rfl
@[simp] theorem State.advance_tb : s.advance.tb = s.tb := rfl
@[simp] theorem State.advance_msr : s.advance.msr = s.msr := rfl
@[simp] theorem State.advance_dsisr : s.advance.dsisr = s.dsisr := rfl
@[simp] theorem State.advance_dar : s.advance.dar = s.dar := rfl
@[simp] theorem State.advance_dec : s.advance.dec = s.dec := rfl
@[simp] theorem State.advance_decReq : s.advance.decReq = s.decReq := rfl
@[simp] theorem State.advance_srr0 : s.advance.srr0 = s.srr0 := rfl
@[simp] theorem State.advance_srr1Info : s.advance.srr1Info = s.srr1Info := rfl
@[simp] theorem State.advance_srr1Msr : s.advance.srr1Msr = s.srr1Msr := rfl
@[simp] theorem State.advance_sprg0 : s.advance.sprg0 = s.sprg0 := rfl
@[simp] theorem State.advance_sprg1 : s.advance.sprg1 = s.sprg1 := rfl
@[simp] theorem State.advance_sprg2 : s.advance.sprg2 = s.sprg2 := rfl
@[simp] theorem State.advance_sprg3 : s.advance.sprg3 = s.sprg3 := rfl
@[simp] theorem State.advance_pvr : s.advance.pvr = s.pvr := rfl
@[simp] theorem State.advance_units : s.advance.units = s.units := rfl
@[simp] theorem State.advance_pc : s.advance.pc = s.pc + 4#32 := rfl
@[simp] theorem State.advance_extIrq : s.advance.extIrq = s.extIrq := rfl
@[simp] theorem State.advance_mem : s.advance.mem = s.mem := rfl
@[simp] theorem State.advance_schedule : s.advance.schedule = s.schedule := rfl
@[simp] theorem State.advance_draws : s.advance.draws = s.draws := rfl

/-! ### `State.branchTo` -/

@[simp] theorem State.branchTo_gpr (a : Word) : (s.branchTo a).gpr = s.gpr := rfl
@[simp] theorem State.branchTo_fpr (a : Word) : (s.branchTo a).fpr = s.fpr := rfl
@[simp] theorem State.branchTo_fpscr (a : Word) : (s.branchTo a).fpscr = s.fpscr := rfl
@[simp] theorem State.branchTo_cr (a : Word) : (s.branchTo a).cr = s.cr := rfl
@[simp] theorem State.branchTo_xer (a : Word) : (s.branchTo a).xer = s.xer := rfl
@[simp] theorem State.branchTo_lr (a : Word) : (s.branchTo a).lr = s.lr := rfl
@[simp] theorem State.branchTo_ctr (a : Word) : (s.branchTo a).ctr = s.ctr := rfl
@[simp] theorem State.branchTo_tb (a : Word) : (s.branchTo a).tb = s.tb := rfl
@[simp] theorem State.branchTo_msr (a : Word) : (s.branchTo a).msr = s.msr := rfl
@[simp] theorem State.branchTo_dsisr (a : Word) : (s.branchTo a).dsisr = s.dsisr := rfl
@[simp] theorem State.branchTo_dar (a : Word) : (s.branchTo a).dar = s.dar := rfl
@[simp] theorem State.branchTo_dec (a : Word) : (s.branchTo a).dec = s.dec := rfl
@[simp] theorem State.branchTo_decReq (a : Word) : (s.branchTo a).decReq = s.decReq := rfl
@[simp] theorem State.branchTo_srr0 (a : Word) : (s.branchTo a).srr0 = s.srr0 := rfl
@[simp] theorem State.branchTo_srr1Info (a : Word) : (s.branchTo a).srr1Info = s.srr1Info := rfl
@[simp] theorem State.branchTo_srr1Msr (a : Word) : (s.branchTo a).srr1Msr = s.srr1Msr := rfl
@[simp] theorem State.branchTo_sprg0 (a : Word) : (s.branchTo a).sprg0 = s.sprg0 := rfl
@[simp] theorem State.branchTo_sprg1 (a : Word) : (s.branchTo a).sprg1 = s.sprg1 := rfl
@[simp] theorem State.branchTo_sprg2 (a : Word) : (s.branchTo a).sprg2 = s.sprg2 := rfl
@[simp] theorem State.branchTo_sprg3 (a : Word) : (s.branchTo a).sprg3 = s.sprg3 := rfl
@[simp] theorem State.branchTo_pvr (a : Word) : (s.branchTo a).pvr = s.pvr := rfl
@[simp] theorem State.branchTo_units (a : Word) : (s.branchTo a).units = s.units := rfl
@[simp] theorem State.branchTo_pc (a : Word) : (s.branchTo a).pc = a := rfl
@[simp] theorem State.branchTo_extIrq (a : Word) : (s.branchTo a).extIrq = s.extIrq := rfl
@[simp] theorem State.branchTo_mem (a : Word) : (s.branchTo a).mem = s.mem := rfl
@[simp] theorem State.branchTo_schedule (a : Word) : (s.branchTo a).schedule = s.schedule := rfl
@[simp] theorem State.branchTo_draws (a : Word) : (s.branchTo a).draws = s.draws := rfl

/-! ### `State.link` -/

@[simp] theorem State.link_gpr (lk : Bool) : (s.link lk).gpr = s.gpr := rfl
@[simp] theorem State.link_fpr (lk : Bool) : (s.link lk).fpr = s.fpr := rfl
@[simp] theorem State.link_fpscr (lk : Bool) : (s.link lk).fpscr = s.fpscr := rfl
@[simp] theorem State.link_cr (lk : Bool) : (s.link lk).cr = s.cr := rfl
@[simp] theorem State.link_xer (lk : Bool) : (s.link lk).xer = s.xer := rfl
@[simp] theorem State.link_lr (lk : Bool) : (s.link lk).lr = if lk then s.pc + 4#32 else s.lr := rfl
@[simp] theorem State.link_ctr (lk : Bool) : (s.link lk).ctr = s.ctr := rfl
@[simp] theorem State.link_tb (lk : Bool) : (s.link lk).tb = s.tb := rfl
@[simp] theorem State.link_msr (lk : Bool) : (s.link lk).msr = s.msr := rfl
@[simp] theorem State.link_dsisr (lk : Bool) : (s.link lk).dsisr = s.dsisr := rfl
@[simp] theorem State.link_dar (lk : Bool) : (s.link lk).dar = s.dar := rfl
@[simp] theorem State.link_dec (lk : Bool) : (s.link lk).dec = s.dec := rfl
@[simp] theorem State.link_decReq (lk : Bool) : (s.link lk).decReq = s.decReq := rfl
@[simp] theorem State.link_srr0 (lk : Bool) : (s.link lk).srr0 = s.srr0 := rfl
@[simp] theorem State.link_srr1Info (lk : Bool) : (s.link lk).srr1Info = s.srr1Info := rfl
@[simp] theorem State.link_srr1Msr (lk : Bool) : (s.link lk).srr1Msr = s.srr1Msr := rfl
@[simp] theorem State.link_sprg0 (lk : Bool) : (s.link lk).sprg0 = s.sprg0 := rfl
@[simp] theorem State.link_sprg1 (lk : Bool) : (s.link lk).sprg1 = s.sprg1 := rfl
@[simp] theorem State.link_sprg2 (lk : Bool) : (s.link lk).sprg2 = s.sprg2 := rfl
@[simp] theorem State.link_sprg3 (lk : Bool) : (s.link lk).sprg3 = s.sprg3 := rfl
@[simp] theorem State.link_pvr (lk : Bool) : (s.link lk).pvr = s.pvr := rfl
@[simp] theorem State.link_units (lk : Bool) : (s.link lk).units = s.units := rfl
@[simp] theorem State.link_pc (lk : Bool) : (s.link lk).pc = s.pc := rfl
@[simp] theorem State.link_extIrq (lk : Bool) : (s.link lk).extIrq = s.extIrq := rfl
@[simp] theorem State.link_mem (lk : Bool) : (s.link lk).mem = s.mem := rfl
@[simp] theorem State.link_schedule (lk : Bool) : (s.link lk).schedule = s.schedule := rfl
@[simp] theorem State.link_draws (lk : Bool) : (s.link lk).draws = s.draws := rfl

/-! ### `State.setCrField` -/

@[simp] theorem State.setCrField_gpr (n : FieldNum) (f : BitVec 4) : (s.setCrField n f).gpr = s.gpr := rfl
@[simp] theorem State.setCrField_fpr (n : FieldNum) (f : BitVec 4) : (s.setCrField n f).fpr = s.fpr := rfl
@[simp] theorem State.setCrField_fpscr (n : FieldNum) (f : BitVec 4) : (s.setCrField n f).fpscr = s.fpscr := rfl
@[simp] theorem State.setCrField_cr (n : FieldNum) (f : BitVec 4) : (s.setCrField n f).cr = withField s.cr n f := rfl
@[simp] theorem State.setCrField_xer (n : FieldNum) (f : BitVec 4) : (s.setCrField n f).xer = s.xer := rfl
@[simp] theorem State.setCrField_lr (n : FieldNum) (f : BitVec 4) : (s.setCrField n f).lr = s.lr := rfl
@[simp] theorem State.setCrField_ctr (n : FieldNum) (f : BitVec 4) : (s.setCrField n f).ctr = s.ctr := rfl
@[simp] theorem State.setCrField_tb (n : FieldNum) (f : BitVec 4) : (s.setCrField n f).tb = s.tb := rfl
@[simp] theorem State.setCrField_msr (n : FieldNum) (f : BitVec 4) : (s.setCrField n f).msr = s.msr := rfl
@[simp] theorem State.setCrField_dsisr (n : FieldNum) (f : BitVec 4) : (s.setCrField n f).dsisr = s.dsisr := rfl
@[simp] theorem State.setCrField_dar (n : FieldNum) (f : BitVec 4) : (s.setCrField n f).dar = s.dar := rfl
@[simp] theorem State.setCrField_dec (n : FieldNum) (f : BitVec 4) : (s.setCrField n f).dec = s.dec := rfl
@[simp] theorem State.setCrField_decReq (n : FieldNum) (f : BitVec 4) : (s.setCrField n f).decReq = s.decReq := rfl
@[simp] theorem State.setCrField_srr0 (n : FieldNum) (f : BitVec 4) : (s.setCrField n f).srr0 = s.srr0 := rfl
@[simp] theorem State.setCrField_srr1Info (n : FieldNum) (f : BitVec 4) : (s.setCrField n f).srr1Info = s.srr1Info := rfl
@[simp] theorem State.setCrField_srr1Msr (n : FieldNum) (f : BitVec 4) : (s.setCrField n f).srr1Msr = s.srr1Msr := rfl
@[simp] theorem State.setCrField_sprg0 (n : FieldNum) (f : BitVec 4) : (s.setCrField n f).sprg0 = s.sprg0 := rfl
@[simp] theorem State.setCrField_sprg1 (n : FieldNum) (f : BitVec 4) : (s.setCrField n f).sprg1 = s.sprg1 := rfl
@[simp] theorem State.setCrField_sprg2 (n : FieldNum) (f : BitVec 4) : (s.setCrField n f).sprg2 = s.sprg2 := rfl
@[simp] theorem State.setCrField_sprg3 (n : FieldNum) (f : BitVec 4) : (s.setCrField n f).sprg3 = s.sprg3 := rfl
@[simp] theorem State.setCrField_pvr (n : FieldNum) (f : BitVec 4) : (s.setCrField n f).pvr = s.pvr := rfl
@[simp] theorem State.setCrField_units (n : FieldNum) (f : BitVec 4) : (s.setCrField n f).units = s.units := rfl
@[simp] theorem State.setCrField_pc (n : FieldNum) (f : BitVec 4) : (s.setCrField n f).pc = s.pc := rfl
@[simp] theorem State.setCrField_extIrq (n : FieldNum) (f : BitVec 4) : (s.setCrField n f).extIrq = s.extIrq := rfl
@[simp] theorem State.setCrField_mem (n : FieldNum) (f : BitVec 4) : (s.setCrField n f).mem = s.mem := rfl
@[simp] theorem State.setCrField_schedule (n : FieldNum) (f : BitVec 4) : (s.setCrField n f).schedule = s.schedule := rfl
@[simp] theorem State.setCrField_draws (n : FieldNum) (f : BitVec 4) : (s.setCrField n f).draws = s.draws := rfl

/-! ### `State.setXer` -/

@[simp] theorem State.setXer_gpr (v : Word) : (s.setXer v).gpr = s.gpr := rfl
@[simp] theorem State.setXer_fpr (v : Word) : (s.setXer v).fpr = s.fpr := rfl
@[simp] theorem State.setXer_fpscr (v : Word) : (s.setXer v).fpscr = s.fpscr := rfl
@[simp] theorem State.setXer_cr (v : Word) : (s.setXer v).cr = s.cr := rfl
@[simp] theorem State.setXer_xer (v : Word) : (s.setXer v).xer = v &&& 0xE000FF7F#32 := rfl
@[simp] theorem State.setXer_lr (v : Word) : (s.setXer v).lr = s.lr := rfl
@[simp] theorem State.setXer_ctr (v : Word) : (s.setXer v).ctr = s.ctr := rfl
@[simp] theorem State.setXer_tb (v : Word) : (s.setXer v).tb = s.tb := rfl
@[simp] theorem State.setXer_msr (v : Word) : (s.setXer v).msr = s.msr := rfl
@[simp] theorem State.setXer_dsisr (v : Word) : (s.setXer v).dsisr = s.dsisr := rfl
@[simp] theorem State.setXer_dar (v : Word) : (s.setXer v).dar = s.dar := rfl
@[simp] theorem State.setXer_dec (v : Word) : (s.setXer v).dec = s.dec := rfl
@[simp] theorem State.setXer_decReq (v : Word) : (s.setXer v).decReq = s.decReq := rfl
@[simp] theorem State.setXer_srr0 (v : Word) : (s.setXer v).srr0 = s.srr0 := rfl
@[simp] theorem State.setXer_srr1Info (v : Word) : (s.setXer v).srr1Info = s.srr1Info := rfl
@[simp] theorem State.setXer_srr1Msr (v : Word) : (s.setXer v).srr1Msr = s.srr1Msr := rfl
@[simp] theorem State.setXer_sprg0 (v : Word) : (s.setXer v).sprg0 = s.sprg0 := rfl
@[simp] theorem State.setXer_sprg1 (v : Word) : (s.setXer v).sprg1 = s.sprg1 := rfl
@[simp] theorem State.setXer_sprg2 (v : Word) : (s.setXer v).sprg2 = s.sprg2 := rfl
@[simp] theorem State.setXer_sprg3 (v : Word) : (s.setXer v).sprg3 = s.sprg3 := rfl
@[simp] theorem State.setXer_pvr (v : Word) : (s.setXer v).pvr = s.pvr := rfl
@[simp] theorem State.setXer_units (v : Word) : (s.setXer v).units = s.units := rfl
@[simp] theorem State.setXer_pc (v : Word) : (s.setXer v).pc = s.pc := rfl
@[simp] theorem State.setXer_extIrq (v : Word) : (s.setXer v).extIrq = s.extIrq := rfl
@[simp] theorem State.setXer_mem (v : Word) : (s.setXer v).mem = s.mem := rfl
@[simp] theorem State.setXer_schedule (v : Word) : (s.setXer v).schedule = s.schedule := rfl
@[simp] theorem State.setXer_draws (v : Word) : (s.setXer v).draws = s.draws := rfl

/-! ### `State.setFpscr` -/

@[simp] theorem State.setFpscr_gpr (v : Word) : (s.setFpscr v).gpr = s.gpr := rfl
@[simp] theorem State.setFpscr_fpr (v : Word) : (s.setFpscr v).fpr = s.fpr := rfl
@[simp] theorem State.setFpscr_fpscr (v : Word) : (s.setFpscr v).fpscr = v &&& 0x9FFFF7FF#32 := rfl
@[simp] theorem State.setFpscr_cr (v : Word) : (s.setFpscr v).cr = s.cr := rfl
@[simp] theorem State.setFpscr_xer (v : Word) : (s.setFpscr v).xer = s.xer := rfl
@[simp] theorem State.setFpscr_lr (v : Word) : (s.setFpscr v).lr = s.lr := rfl
@[simp] theorem State.setFpscr_ctr (v : Word) : (s.setFpscr v).ctr = s.ctr := rfl
@[simp] theorem State.setFpscr_tb (v : Word) : (s.setFpscr v).tb = s.tb := rfl
@[simp] theorem State.setFpscr_msr (v : Word) : (s.setFpscr v).msr = s.msr := rfl
@[simp] theorem State.setFpscr_dsisr (v : Word) : (s.setFpscr v).dsisr = s.dsisr := rfl
@[simp] theorem State.setFpscr_dar (v : Word) : (s.setFpscr v).dar = s.dar := rfl
@[simp] theorem State.setFpscr_dec (v : Word) : (s.setFpscr v).dec = s.dec := rfl
@[simp] theorem State.setFpscr_decReq (v : Word) : (s.setFpscr v).decReq = s.decReq := rfl
@[simp] theorem State.setFpscr_srr0 (v : Word) : (s.setFpscr v).srr0 = s.srr0 := rfl
@[simp] theorem State.setFpscr_srr1Info (v : Word) : (s.setFpscr v).srr1Info = s.srr1Info := rfl
@[simp] theorem State.setFpscr_srr1Msr (v : Word) : (s.setFpscr v).srr1Msr = s.srr1Msr := rfl
@[simp] theorem State.setFpscr_sprg0 (v : Word) : (s.setFpscr v).sprg0 = s.sprg0 := rfl
@[simp] theorem State.setFpscr_sprg1 (v : Word) : (s.setFpscr v).sprg1 = s.sprg1 := rfl
@[simp] theorem State.setFpscr_sprg2 (v : Word) : (s.setFpscr v).sprg2 = s.sprg2 := rfl
@[simp] theorem State.setFpscr_sprg3 (v : Word) : (s.setFpscr v).sprg3 = s.sprg3 := rfl
@[simp] theorem State.setFpscr_pvr (v : Word) : (s.setFpscr v).pvr = s.pvr := rfl
@[simp] theorem State.setFpscr_units (v : Word) : (s.setFpscr v).units = s.units := rfl
@[simp] theorem State.setFpscr_pc (v : Word) : (s.setFpscr v).pc = s.pc := rfl
@[simp] theorem State.setFpscr_extIrq (v : Word) : (s.setFpscr v).extIrq = s.extIrq := rfl
@[simp] theorem State.setFpscr_mem (v : Word) : (s.setFpscr v).mem = s.mem := rfl
@[simp] theorem State.setFpscr_schedule (v : Word) : (s.setFpscr v).schedule = s.schedule := rfl
@[simp] theorem State.setFpscr_draws (v : Word) : (s.setFpscr v).draws = s.draws := rfl

/-! ### `State.setMsr` -/

@[simp] theorem State.setMsr_gpr (v : Word) : (s.setMsr v).gpr = s.gpr := rfl
@[simp] theorem State.setMsr_fpr (v : Word) : (s.setMsr v).fpr = s.fpr := rfl
@[simp] theorem State.setMsr_fpscr (v : Word) : (s.setMsr v).fpscr = s.fpscr := rfl
@[simp] theorem State.setMsr_cr (v : Word) : (s.setMsr v).cr = s.cr := rfl
@[simp] theorem State.setMsr_xer (v : Word) : (s.setMsr v).xer = s.xer := rfl
@[simp] theorem State.setMsr_lr (v : Word) : (s.setMsr v).lr = s.lr := rfl
@[simp] theorem State.setMsr_ctr (v : Word) : (s.setMsr v).ctr = s.ctr := rfl
@[simp] theorem State.setMsr_tb (v : Word) : (s.setMsr v).tb = s.tb := rfl
@[simp] theorem State.setMsr_msr (v : Word) : (s.setMsr v).msr = v &&& 0x0001FF43#32 := rfl
@[simp] theorem State.setMsr_dsisr (v : Word) : (s.setMsr v).dsisr = s.dsisr := rfl
@[simp] theorem State.setMsr_dar (v : Word) : (s.setMsr v).dar = s.dar := rfl
@[simp] theorem State.setMsr_dec (v : Word) : (s.setMsr v).dec = s.dec := rfl
@[simp] theorem State.setMsr_decReq (v : Word) : (s.setMsr v).decReq = s.decReq := rfl
@[simp] theorem State.setMsr_srr0 (v : Word) : (s.setMsr v).srr0 = s.srr0 := rfl
@[simp] theorem State.setMsr_srr1Info (v : Word) : (s.setMsr v).srr1Info = s.srr1Info := rfl
@[simp] theorem State.setMsr_srr1Msr (v : Word) : (s.setMsr v).srr1Msr = s.srr1Msr := rfl
@[simp] theorem State.setMsr_sprg0 (v : Word) : (s.setMsr v).sprg0 = s.sprg0 := rfl
@[simp] theorem State.setMsr_sprg1 (v : Word) : (s.setMsr v).sprg1 = s.sprg1 := rfl
@[simp] theorem State.setMsr_sprg2 (v : Word) : (s.setMsr v).sprg2 = s.sprg2 := rfl
@[simp] theorem State.setMsr_sprg3 (v : Word) : (s.setMsr v).sprg3 = s.sprg3 := rfl
@[simp] theorem State.setMsr_pvr (v : Word) : (s.setMsr v).pvr = s.pvr := rfl
@[simp] theorem State.setMsr_units (v : Word) : (s.setMsr v).units = s.units := rfl
@[simp] theorem State.setMsr_pc (v : Word) : (s.setMsr v).pc = s.pc := rfl
@[simp] theorem State.setMsr_extIrq (v : Word) : (s.setMsr v).extIrq = s.extIrq := rfl
@[simp] theorem State.setMsr_mem (v : Word) : (s.setMsr v).mem = s.mem := rfl
@[simp] theorem State.setMsr_schedule (v : Word) : (s.setMsr v).schedule = s.schedule := rfl
@[simp] theorem State.setMsr_draws (v : Word) : (s.setMsr v).draws = s.draws := rfl

/-! ### `State.setDec` -/

@[simp] theorem State.setDec_gpr (v : Word) : (s.setDec v).gpr = s.gpr := rfl
@[simp] theorem State.setDec_fpr (v : Word) : (s.setDec v).fpr = s.fpr := rfl
@[simp] theorem State.setDec_fpscr (v : Word) : (s.setDec v).fpscr = s.fpscr := rfl
@[simp] theorem State.setDec_cr (v : Word) : (s.setDec v).cr = s.cr := rfl
@[simp] theorem State.setDec_xer (v : Word) : (s.setDec v).xer = s.xer := rfl
@[simp] theorem State.setDec_lr (v : Word) : (s.setDec v).lr = s.lr := rfl
@[simp] theorem State.setDec_ctr (v : Word) : (s.setDec v).ctr = s.ctr := rfl
@[simp] theorem State.setDec_tb (v : Word) : (s.setDec v).tb = s.tb := rfl
@[simp] theorem State.setDec_msr (v : Word) : (s.setDec v).msr = s.msr := rfl
@[simp] theorem State.setDec_dsisr (v : Word) : (s.setDec v).dsisr = s.dsisr := rfl
@[simp] theorem State.setDec_dar (v : Word) : (s.setDec v).dar = s.dar := rfl
@[simp] theorem State.setDec_dec (v : Word) : (s.setDec v).dec = v := rfl
@[simp] theorem State.setDec_decReq (v : Word) : (s.setDec v).decReq = (s.decReq || (!bitOf s.dec 0 && bitOf v 0)) := rfl
@[simp] theorem State.setDec_srr0 (v : Word) : (s.setDec v).srr0 = s.srr0 := rfl
@[simp] theorem State.setDec_srr1Info (v : Word) : (s.setDec v).srr1Info = s.srr1Info := rfl
@[simp] theorem State.setDec_srr1Msr (v : Word) : (s.setDec v).srr1Msr = s.srr1Msr := rfl
@[simp] theorem State.setDec_sprg0 (v : Word) : (s.setDec v).sprg0 = s.sprg0 := rfl
@[simp] theorem State.setDec_sprg1 (v : Word) : (s.setDec v).sprg1 = s.sprg1 := rfl
@[simp] theorem State.setDec_sprg2 (v : Word) : (s.setDec v).sprg2 = s.sprg2 := rfl
@[simp] theorem State.setDec_sprg3 (v : Word) : (s.setDec v).sprg3 = s.sprg3 := rfl
@[simp] theorem State.setDec_pvr (v : Word) : (s.setDec v).pvr = s.pvr := rfl
@[simp] theorem State.setDec_units (v : Word) : (s.setDec v).units = s.units := rfl
@[simp] theorem State.setDec_pc (v : Word) : (s.setDec v).pc = s.pc := rfl
@[simp] theorem State.setDec_extIrq (v : Word) : (s.setDec v).extIrq = s.extIrq := rfl
@[simp] theorem State.setDec_mem (v : Word) : (s.setDec v).mem = s.mem := rfl
@[simp] theorem State.setDec_schedule (v : Word) : (s.setDec v).schedule = s.schedule := rfl
@[simp] theorem State.setDec_draws (v : Word) : (s.setDec v).draws = s.draws := rfl

/-! ### `State.setTbu` -/

@[simp] theorem State.setTbu_gpr (v : Word) : (s.setTbu v).gpr = s.gpr := rfl
@[simp] theorem State.setTbu_fpr (v : Word) : (s.setTbu v).fpr = s.fpr := rfl
@[simp] theorem State.setTbu_fpscr (v : Word) : (s.setTbu v).fpscr = s.fpscr := rfl
@[simp] theorem State.setTbu_cr (v : Word) : (s.setTbu v).cr = s.cr := rfl
@[simp] theorem State.setTbu_xer (v : Word) : (s.setTbu v).xer = s.xer := rfl
@[simp] theorem State.setTbu_lr (v : Word) : (s.setTbu v).lr = s.lr := rfl
@[simp] theorem State.setTbu_ctr (v : Word) : (s.setTbu v).ctr = s.ctr := rfl
@[simp] theorem State.setTbu_tb (v : Word) : (s.setTbu v).tb = v ++ s.tbl := rfl
@[simp] theorem State.setTbu_msr (v : Word) : (s.setTbu v).msr = s.msr := rfl
@[simp] theorem State.setTbu_dsisr (v : Word) : (s.setTbu v).dsisr = s.dsisr := rfl
@[simp] theorem State.setTbu_dar (v : Word) : (s.setTbu v).dar = s.dar := rfl
@[simp] theorem State.setTbu_dec (v : Word) : (s.setTbu v).dec = s.dec := rfl
@[simp] theorem State.setTbu_decReq (v : Word) : (s.setTbu v).decReq = s.decReq := rfl
@[simp] theorem State.setTbu_srr0 (v : Word) : (s.setTbu v).srr0 = s.srr0 := rfl
@[simp] theorem State.setTbu_srr1Info (v : Word) : (s.setTbu v).srr1Info = s.srr1Info := rfl
@[simp] theorem State.setTbu_srr1Msr (v : Word) : (s.setTbu v).srr1Msr = s.srr1Msr := rfl
@[simp] theorem State.setTbu_sprg0 (v : Word) : (s.setTbu v).sprg0 = s.sprg0 := rfl
@[simp] theorem State.setTbu_sprg1 (v : Word) : (s.setTbu v).sprg1 = s.sprg1 := rfl
@[simp] theorem State.setTbu_sprg2 (v : Word) : (s.setTbu v).sprg2 = s.sprg2 := rfl
@[simp] theorem State.setTbu_sprg3 (v : Word) : (s.setTbu v).sprg3 = s.sprg3 := rfl
@[simp] theorem State.setTbu_pvr (v : Word) : (s.setTbu v).pvr = s.pvr := rfl
@[simp] theorem State.setTbu_units (v : Word) : (s.setTbu v).units = s.units := rfl
@[simp] theorem State.setTbu_pc (v : Word) : (s.setTbu v).pc = s.pc := rfl
@[simp] theorem State.setTbu_extIrq (v : Word) : (s.setTbu v).extIrq = s.extIrq := rfl
@[simp] theorem State.setTbu_mem (v : Word) : (s.setTbu v).mem = s.mem := rfl
@[simp] theorem State.setTbu_schedule (v : Word) : (s.setTbu v).schedule = s.schedule := rfl
@[simp] theorem State.setTbu_draws (v : Word) : (s.setTbu v).draws = s.draws := rfl

/-! ### `State.setTbl` -/

@[simp] theorem State.setTbl_gpr (v : Word) : (s.setTbl v).gpr = s.gpr := rfl
@[simp] theorem State.setTbl_fpr (v : Word) : (s.setTbl v).fpr = s.fpr := rfl
@[simp] theorem State.setTbl_fpscr (v : Word) : (s.setTbl v).fpscr = s.fpscr := rfl
@[simp] theorem State.setTbl_cr (v : Word) : (s.setTbl v).cr = s.cr := rfl
@[simp] theorem State.setTbl_xer (v : Word) : (s.setTbl v).xer = s.xer := rfl
@[simp] theorem State.setTbl_lr (v : Word) : (s.setTbl v).lr = s.lr := rfl
@[simp] theorem State.setTbl_ctr (v : Word) : (s.setTbl v).ctr = s.ctr := rfl
@[simp] theorem State.setTbl_tb (v : Word) : (s.setTbl v).tb = s.tbu ++ v := rfl
@[simp] theorem State.setTbl_msr (v : Word) : (s.setTbl v).msr = s.msr := rfl
@[simp] theorem State.setTbl_dsisr (v : Word) : (s.setTbl v).dsisr = s.dsisr := rfl
@[simp] theorem State.setTbl_dar (v : Word) : (s.setTbl v).dar = s.dar := rfl
@[simp] theorem State.setTbl_dec (v : Word) : (s.setTbl v).dec = s.dec := rfl
@[simp] theorem State.setTbl_decReq (v : Word) : (s.setTbl v).decReq = s.decReq := rfl
@[simp] theorem State.setTbl_srr0 (v : Word) : (s.setTbl v).srr0 = s.srr0 := rfl
@[simp] theorem State.setTbl_srr1Info (v : Word) : (s.setTbl v).srr1Info = s.srr1Info := rfl
@[simp] theorem State.setTbl_srr1Msr (v : Word) : (s.setTbl v).srr1Msr = s.srr1Msr := rfl
@[simp] theorem State.setTbl_sprg0 (v : Word) : (s.setTbl v).sprg0 = s.sprg0 := rfl
@[simp] theorem State.setTbl_sprg1 (v : Word) : (s.setTbl v).sprg1 = s.sprg1 := rfl
@[simp] theorem State.setTbl_sprg2 (v : Word) : (s.setTbl v).sprg2 = s.sprg2 := rfl
@[simp] theorem State.setTbl_sprg3 (v : Word) : (s.setTbl v).sprg3 = s.sprg3 := rfl
@[simp] theorem State.setTbl_pvr (v : Word) : (s.setTbl v).pvr = s.pvr := rfl
@[simp] theorem State.setTbl_units (v : Word) : (s.setTbl v).units = s.units := rfl
@[simp] theorem State.setTbl_pc (v : Word) : (s.setTbl v).pc = s.pc := rfl
@[simp] theorem State.setTbl_extIrq (v : Word) : (s.setTbl v).extIrq = s.extIrq := rfl
@[simp] theorem State.setTbl_mem (v : Word) : (s.setTbl v).mem = s.mem := rfl
@[simp] theorem State.setTbl_schedule (v : Word) : (s.setTbl v).schedule = s.schedule := rfl
@[simp] theorem State.setTbl_draws (v : Word) : (s.setTbl v).draws = s.draws := rfl

/-! ### `State.setSrr1` -/

@[simp] theorem State.setSrr1_gpr (v : Word) : (s.setSrr1 v).gpr = s.gpr := rfl
@[simp] theorem State.setSrr1_fpr (v : Word) : (s.setSrr1 v).fpr = s.fpr := rfl
@[simp] theorem State.setSrr1_fpscr (v : Word) : (s.setSrr1 v).fpscr = s.fpscr := rfl
@[simp] theorem State.setSrr1_cr (v : Word) : (s.setSrr1 v).cr = s.cr := rfl
@[simp] theorem State.setSrr1_xer (v : Word) : (s.setSrr1 v).xer = s.xer := rfl
@[simp] theorem State.setSrr1_lr (v : Word) : (s.setSrr1 v).lr = s.lr := rfl
@[simp] theorem State.setSrr1_ctr (v : Word) : (s.setSrr1 v).ctr = s.ctr := rfl
@[simp] theorem State.setSrr1_tb (v : Word) : (s.setSrr1 v).tb = s.tb := rfl
@[simp] theorem State.setSrr1_msr (v : Word) : (s.setSrr1 v).msr = s.msr := rfl
@[simp] theorem State.setSrr1_dsisr (v : Word) : (s.setSrr1 v).dsisr = s.dsisr := rfl
@[simp] theorem State.setSrr1_dar (v : Word) : (s.setSrr1 v).dar = s.dar := rfl
@[simp] theorem State.setSrr1_dec (v : Word) : (s.setSrr1 v).dec = s.dec := rfl
@[simp] theorem State.setSrr1_decReq (v : Word) : (s.setSrr1 v).decReq = s.decReq := rfl
@[simp] theorem State.setSrr1_srr0 (v : Word) : (s.setSrr1 v).srr0 = s.srr0 := rfl
@[simp] theorem State.setSrr1_srr1Info (v : Word) : (s.setSrr1 v).srr1Info = v.extractLsb' 16 16 := rfl
@[simp] theorem State.setSrr1_srr1Msr (v : Word) : (s.setSrr1 v).srr1Msr = v.extractLsb' 0 16 := rfl
@[simp] theorem State.setSrr1_sprg0 (v : Word) : (s.setSrr1 v).sprg0 = s.sprg0 := rfl
@[simp] theorem State.setSrr1_sprg1 (v : Word) : (s.setSrr1 v).sprg1 = s.sprg1 := rfl
@[simp] theorem State.setSrr1_sprg2 (v : Word) : (s.setSrr1 v).sprg2 = s.sprg2 := rfl
@[simp] theorem State.setSrr1_sprg3 (v : Word) : (s.setSrr1 v).sprg3 = s.sprg3 := rfl
@[simp] theorem State.setSrr1_pvr (v : Word) : (s.setSrr1 v).pvr = s.pvr := rfl
@[simp] theorem State.setSrr1_units (v : Word) : (s.setSrr1 v).units = s.units := rfl
@[simp] theorem State.setSrr1_pc (v : Word) : (s.setSrr1 v).pc = s.pc := rfl
@[simp] theorem State.setSrr1_extIrq (v : Word) : (s.setSrr1 v).extIrq = s.extIrq := rfl
@[simp] theorem State.setSrr1_mem (v : Word) : (s.setSrr1 v).mem = s.mem := rfl
@[simp] theorem State.setSrr1_schedule (v : Word) : (s.setSrr1 v).schedule = s.schedule := rfl
@[simp] theorem State.setSrr1_draws (v : Word) : (s.setSrr1 v).draws = s.draws := rfl

/-! ### `State.returnFromException` -/

@[simp] theorem State.returnFromException_gpr : s.returnFromException.gpr = s.gpr := rfl
@[simp] theorem State.returnFromException_fpr : s.returnFromException.fpr = s.fpr := rfl
@[simp] theorem State.returnFromException_fpscr : s.returnFromException.fpscr = s.fpscr := rfl
@[simp] theorem State.returnFromException_cr : s.returnFromException.cr = s.cr := rfl
@[simp] theorem State.returnFromException_xer : s.returnFromException.xer = s.xer := rfl
@[simp] theorem State.returnFromException_lr : s.returnFromException.lr = s.lr := rfl
@[simp] theorem State.returnFromException_ctr : s.returnFromException.ctr = s.ctr := rfl
@[simp] theorem State.returnFromException_tb : s.returnFromException.tb = s.tb := rfl
@[simp] theorem State.returnFromException_msr : s.returnFromException.msr = ((s.msr &&& 0xFFFF0000#32) ||| s.srr1Msr.setWidth 32) &&& 0x0001FF43#32 := rfl
@[simp] theorem State.returnFromException_dsisr : s.returnFromException.dsisr = s.dsisr := rfl
@[simp] theorem State.returnFromException_dar : s.returnFromException.dar = s.dar := rfl
@[simp] theorem State.returnFromException_dec : s.returnFromException.dec = s.dec := rfl
@[simp] theorem State.returnFromException_decReq : s.returnFromException.decReq = s.decReq := rfl
@[simp] theorem State.returnFromException_srr0 : s.returnFromException.srr0 = s.srr0 := rfl
@[simp] theorem State.returnFromException_srr1Info : s.returnFromException.srr1Info = s.srr1Info := rfl
@[simp] theorem State.returnFromException_srr1Msr : s.returnFromException.srr1Msr = s.srr1Msr := rfl
@[simp] theorem State.returnFromException_sprg0 : s.returnFromException.sprg0 = s.sprg0 := rfl
@[simp] theorem State.returnFromException_sprg1 : s.returnFromException.sprg1 = s.sprg1 := rfl
@[simp] theorem State.returnFromException_sprg2 : s.returnFromException.sprg2 = s.sprg2 := rfl
@[simp] theorem State.returnFromException_sprg3 : s.returnFromException.sprg3 = s.sprg3 := rfl
@[simp] theorem State.returnFromException_pvr : s.returnFromException.pvr = s.pvr := rfl
@[simp] theorem State.returnFromException_units : s.returnFromException.units = s.units := rfl
@[simp] theorem State.returnFromException_pc : s.returnFromException.pc = s.srr0 &&& 0xFFFFFFFC#32 := rfl
@[simp] theorem State.returnFromException_extIrq : s.returnFromException.extIrq = s.extIrq := rfl
@[simp] theorem State.returnFromException_mem : s.returnFromException.mem = s.mem := rfl
@[simp] theorem State.returnFromException_schedule : s.returnFromException.schedule = s.schedule := rfl
@[simp] theorem State.returnFromException_draws : s.returnFromException.draws = s.draws := rfl

/-! ### `State.tickTimeBase` -/

@[simp] theorem State.tickTimeBase_gpr : s.tickTimeBase.gpr = s.gpr := rfl
@[simp] theorem State.tickTimeBase_fpr : s.tickTimeBase.fpr = s.fpr := rfl
@[simp] theorem State.tickTimeBase_fpscr : s.tickTimeBase.fpscr = s.fpscr := rfl
@[simp] theorem State.tickTimeBase_cr : s.tickTimeBase.cr = s.cr := rfl
@[simp] theorem State.tickTimeBase_xer : s.tickTimeBase.xer = s.xer := rfl
@[simp] theorem State.tickTimeBase_lr : s.tickTimeBase.lr = s.lr := rfl
@[simp] theorem State.tickTimeBase_ctr : s.tickTimeBase.ctr = s.ctr := rfl
@[simp] theorem State.tickTimeBase_tb : s.tickTimeBase.tb = s.tb + 1#64 := rfl
@[simp] theorem State.tickTimeBase_msr : s.tickTimeBase.msr = s.msr := rfl
@[simp] theorem State.tickTimeBase_dsisr : s.tickTimeBase.dsisr = s.dsisr := rfl
@[simp] theorem State.tickTimeBase_dar : s.tickTimeBase.dar = s.dar := rfl
@[simp] theorem State.tickTimeBase_dec : s.tickTimeBase.dec = s.dec := rfl
@[simp] theorem State.tickTimeBase_decReq : s.tickTimeBase.decReq = s.decReq := rfl
@[simp] theorem State.tickTimeBase_srr0 : s.tickTimeBase.srr0 = s.srr0 := rfl
@[simp] theorem State.tickTimeBase_srr1Info : s.tickTimeBase.srr1Info = s.srr1Info := rfl
@[simp] theorem State.tickTimeBase_srr1Msr : s.tickTimeBase.srr1Msr = s.srr1Msr := rfl
@[simp] theorem State.tickTimeBase_sprg0 : s.tickTimeBase.sprg0 = s.sprg0 := rfl
@[simp] theorem State.tickTimeBase_sprg1 : s.tickTimeBase.sprg1 = s.sprg1 := rfl
@[simp] theorem State.tickTimeBase_sprg2 : s.tickTimeBase.sprg2 = s.sprg2 := rfl
@[simp] theorem State.tickTimeBase_sprg3 : s.tickTimeBase.sprg3 = s.sprg3 := rfl
@[simp] theorem State.tickTimeBase_pvr : s.tickTimeBase.pvr = s.pvr := rfl
@[simp] theorem State.tickTimeBase_units : s.tickTimeBase.units = s.units := rfl
@[simp] theorem State.tickTimeBase_pc : s.tickTimeBase.pc = s.pc := rfl
@[simp] theorem State.tickTimeBase_extIrq : s.tickTimeBase.extIrq = s.extIrq := rfl
@[simp] theorem State.tickTimeBase_mem : s.tickTimeBase.mem = s.mem := rfl
@[simp] theorem State.tickTimeBase_schedule : s.tickTimeBase.schedule = s.schedule := rfl
@[simp] theorem State.tickTimeBase_draws : s.tickTimeBase.draws = s.draws := rfl

/-! ### `State.setExtIrq` -/

@[simp] theorem State.setExtIrq_gpr (level : Bool) : (s.setExtIrq level).gpr = s.gpr := rfl
@[simp] theorem State.setExtIrq_fpr (level : Bool) : (s.setExtIrq level).fpr = s.fpr := rfl
@[simp] theorem State.setExtIrq_fpscr (level : Bool) : (s.setExtIrq level).fpscr = s.fpscr := rfl
@[simp] theorem State.setExtIrq_cr (level : Bool) : (s.setExtIrq level).cr = s.cr := rfl
@[simp] theorem State.setExtIrq_xer (level : Bool) : (s.setExtIrq level).xer = s.xer := rfl
@[simp] theorem State.setExtIrq_lr (level : Bool) : (s.setExtIrq level).lr = s.lr := rfl
@[simp] theorem State.setExtIrq_ctr (level : Bool) : (s.setExtIrq level).ctr = s.ctr := rfl
@[simp] theorem State.setExtIrq_tb (level : Bool) : (s.setExtIrq level).tb = s.tb := rfl
@[simp] theorem State.setExtIrq_msr (level : Bool) : (s.setExtIrq level).msr = s.msr := rfl
@[simp] theorem State.setExtIrq_dsisr (level : Bool) : (s.setExtIrq level).dsisr = s.dsisr := rfl
@[simp] theorem State.setExtIrq_dar (level : Bool) : (s.setExtIrq level).dar = s.dar := rfl
@[simp] theorem State.setExtIrq_dec (level : Bool) : (s.setExtIrq level).dec = s.dec := rfl
@[simp] theorem State.setExtIrq_decReq (level : Bool) : (s.setExtIrq level).decReq = s.decReq := rfl
@[simp] theorem State.setExtIrq_srr0 (level : Bool) : (s.setExtIrq level).srr0 = s.srr0 := rfl
@[simp] theorem State.setExtIrq_srr1Info (level : Bool) : (s.setExtIrq level).srr1Info = s.srr1Info := rfl
@[simp] theorem State.setExtIrq_srr1Msr (level : Bool) : (s.setExtIrq level).srr1Msr = s.srr1Msr := rfl
@[simp] theorem State.setExtIrq_sprg0 (level : Bool) : (s.setExtIrq level).sprg0 = s.sprg0 := rfl
@[simp] theorem State.setExtIrq_sprg1 (level : Bool) : (s.setExtIrq level).sprg1 = s.sprg1 := rfl
@[simp] theorem State.setExtIrq_sprg2 (level : Bool) : (s.setExtIrq level).sprg2 = s.sprg2 := rfl
@[simp] theorem State.setExtIrq_sprg3 (level : Bool) : (s.setExtIrq level).sprg3 = s.sprg3 := rfl
@[simp] theorem State.setExtIrq_pvr (level : Bool) : (s.setExtIrq level).pvr = s.pvr := rfl
@[simp] theorem State.setExtIrq_units (level : Bool) : (s.setExtIrq level).units = s.units := rfl
@[simp] theorem State.setExtIrq_pc (level : Bool) : (s.setExtIrq level).pc = s.pc := rfl
@[simp] theorem State.setExtIrq_extIrq (level : Bool) : (s.setExtIrq level).extIrq = level := rfl
@[simp] theorem State.setExtIrq_mem (level : Bool) : (s.setExtIrq level).mem = s.mem := rfl
@[simp] theorem State.setExtIrq_schedule (level : Bool) : (s.setExtIrq level).schedule = s.schedule := rfl
@[simp] theorem State.setExtIrq_draws (level : Bool) : (s.setExtIrq level).draws = s.draws := rfl

/-! ### `State.popTurn` -/

@[simp] theorem State.popTurn_gpr : s.popTurn.gpr = s.gpr := rfl
@[simp] theorem State.popTurn_fpr : s.popTurn.fpr = s.fpr := rfl
@[simp] theorem State.popTurn_fpscr : s.popTurn.fpscr = s.fpscr := rfl
@[simp] theorem State.popTurn_cr : s.popTurn.cr = s.cr := rfl
@[simp] theorem State.popTurn_xer : s.popTurn.xer = s.xer := rfl
@[simp] theorem State.popTurn_lr : s.popTurn.lr = s.lr := rfl
@[simp] theorem State.popTurn_ctr : s.popTurn.ctr = s.ctr := rfl
@[simp] theorem State.popTurn_tb : s.popTurn.tb = s.tb := rfl
@[simp] theorem State.popTurn_msr : s.popTurn.msr = s.msr := rfl
@[simp] theorem State.popTurn_dsisr : s.popTurn.dsisr = s.dsisr := rfl
@[simp] theorem State.popTurn_dar : s.popTurn.dar = s.dar := rfl
@[simp] theorem State.popTurn_dec : s.popTurn.dec = s.dec := rfl
@[simp] theorem State.popTurn_decReq : s.popTurn.decReq = s.decReq := rfl
@[simp] theorem State.popTurn_srr0 : s.popTurn.srr0 = s.srr0 := rfl
@[simp] theorem State.popTurn_srr1Info : s.popTurn.srr1Info = s.srr1Info := rfl
@[simp] theorem State.popTurn_srr1Msr : s.popTurn.srr1Msr = s.srr1Msr := rfl
@[simp] theorem State.popTurn_sprg0 : s.popTurn.sprg0 = s.sprg0 := rfl
@[simp] theorem State.popTurn_sprg1 : s.popTurn.sprg1 = s.sprg1 := rfl
@[simp] theorem State.popTurn_sprg2 : s.popTurn.sprg2 = s.sprg2 := rfl
@[simp] theorem State.popTurn_sprg3 : s.popTurn.sprg3 = s.sprg3 := rfl
@[simp] theorem State.popTurn_pvr : s.popTurn.pvr = s.pvr := rfl
@[simp] theorem State.popTurn_units : s.popTurn.units = s.units := rfl
@[simp] theorem State.popTurn_pc : s.popTurn.pc = s.pc := rfl
@[simp] theorem State.popTurn_extIrq : s.popTurn.extIrq = s.extIrq := rfl
@[simp] theorem State.popTurn_mem : s.popTurn.mem = s.mem := rfl
@[simp] theorem State.popTurn_schedule : s.popTurn.schedule = s.schedule.tail := rfl
@[simp] theorem State.popTurn_draws : s.popTurn.draws = s.draws := rfl

end Sys2Proof.Machine
end

