-- ==== Sys2Proof/Laws/Frame.lean ====
section
/-! SUPPORT. The frame of every shared operation, once, and how frames compose; what the register operations read back. -/
namespace Sys2Proof.Machine

/-! ## Composition -/

theorem Part.same_refl (p : Part) (s : State) : p.same s s := by cases p <;> rfl

theorem Part.same_trans {p : Part} {s t u : State} (h : p.same s t) (h' : p.same t u) : p.same s u := by
  cases p <;> exact Eq.trans h' h

theorem unchanged_refl (l : List Part) (s : State) : Unchanged l s s := fun p _ => p.same_refl s

theorem Unchanged.mono {l l' : List Part} {s t : State} (h : Unchanged l s t) (hl : ∀ p ∈ l, p ∈ l') : Unchanged l' s t :=
  fun p hp => h p (fun hm => hp (hl p hm))

theorem Unchanged.trans {l l' : List Part} {s t u : State} (h : Unchanged l s t) (h' : Unchanged l' t u) :
    Unchanged (l ++ l') s u :=
  fun p hp => Part.same_trans (h p (fun hm => hp (by simp [hm]))) (h' p (fun hm => hp (by simp [hm])))

/-! ## General registers -/

@[simp] theorem gprAt_setGpr_same (s : State) (r : Five) (v : Word) : (s.setGpr r v).gprAt r = v := by
  simp [State.gprAt]

theorem gprAt_setGpr_ne (s : State) (r q : Five) (v : Word) (h : q ≠ r) : (s.setGpr r v).gprAt q = s.gprAt q := by
  have : r.toNat ≠ q.toNat := fun e => h (BitVec.eq_of_toNat_eq e.symm)
  simp [State.gprAt, this]


/-! ## One frame per operation -/

theorem setGpr_unchanged (s : State) (r : Five) (v : Word) : Unchanged [.gpr r] s (s.setGpr r v) := by
  intro p hp
  cases p with
  | gpr q => exact gprAt_setGpr_ne _ _ _ _ (by simpa using hp)
  | _ => rfl

theorem advance_unchanged (s : State) : Unchanged [] s s.advance := by
  intro p _
  cases p <;> rfl

theorem branchTo_unchanged (s : State) (a : Word) : Unchanged [] s (s.branchTo a) := by
  intro p _
  cases p <;> rfl

theorem popTurn_unchanged (s : State) : Unchanged [.schedule] s s.popTurn := by
  intro p hp
  cases p with
  | schedule => simp at hp
  | _ => rfl

theorem link_unchanged (s : State) (lk : Bool) : Unchanged [.lr] s (s.link lk) := by
  intro p hp
  cases p with
  | lr => simp at hp
  | _ => rfl

theorem setCrField_unchanged (s : State) (n : FieldNum) (f : BitVec 4) : Unchanged [.crField n] s (s.setCrField n f) := by
  intro p hp
  cases p with
  | crField m => exact fieldAt_withField_ne _ _ _ _ (by simpa using hp)
  | _ => rfl

/-- A write of the XER changes at most the bits it is given to change. -/
theorem setXer_unchanged (s : State) (v : Word) (l : List Part)
    (h : ∀ j : Five, Part.xerBit j ∉ l → bitOf (v &&& 0xE000FF7F#32) j.toNat = bitOf s.xer j.toNat) :
    Unchanged l s (s.setXer v) := by
  intro p hp
  cases p with
  | xerBit j => exact h j hp
  | _ => rfl

/-- A write of the MSR changes at most the bits it is given to change. -/
theorem setMsr_unchanged (s : State) (v : Word) (l : List Part)
    (h : ∀ j : Five, Part.msrBit j ∉ l → bitOf (v &&& 0x0001FF43#32) j.toNat = bitOf s.msr j.toNat) :
    Unchanged l s (s.setMsr v) := by
  intro p hp
  cases p with
  | msrBit j => exact h j hp
  | _ => rfl

theorem mem_fpscrParts (j : Five) : Part.fpscrBit j ∈ fpscrParts := by
  simp only [fpscrParts, List.mem_map, List.mem_range]
  exact ⟨j.toNat, j.isLt, by simp⟩

theorem mem_xerParts (j : Five) : Part.xerBit j ∈ xerParts := by
  simp only [xerParts, List.mem_map, List.mem_range]
  exact ⟨j.toNat, j.isLt, by simp⟩

theorem mem_msrParts (j : Five) : Part.msrBit j ∈ msrParts := by
  simp only [msrParts, List.mem_map, List.mem_range]
  exact ⟨j.toNat, j.isLt, by simp⟩

theorem setFpscr_unchanged (s : State) (v : Word) : Unchanged fpscrParts s (s.setFpscr v) := by
  intro p hp
  cases p with
  | fpscrBit j => exact absurd (mem_fpscrParts j) hp
  | _ => rfl

theorem setDec_unchanged (s : State) (v : Word) : Unchanged [.dec, .decReq] s (s.setDec v) := by
  intro p hp
  cases p with
  | dec => simp at hp
  | decReq => simp at hp
  | _ => rfl

/-! ## Halves of the time base and of SRR1 -/

theorem high_append {m n : Nat} (x : BitVec m) (y : BitVec n) : (x ++ y).extractLsb' n m = x := by
  apply BitVec.eq_of_getLsbD_eq
  intro i hi
  simp [BitVec.getLsbD_append, hi]

theorem low_append {m n : Nat} (x : BitVec m) (y : BitVec n) : (x ++ y).extractLsb' 0 n = y := by
  apply BitVec.eq_of_getLsbD_eq
  intro i hi
  simp [BitVec.getLsbD_append, hi]

theorem halves_append {m n : Nat} (v : BitVec (m + n)) : v.extractLsb' n m ++ v.extractLsb' 0 n = v := by
  simp

@[simp] theorem tbu_setTbu (s : State) (v : Word) : (s.setTbu v).tbu = v := high_append v s.tbl

@[simp] theorem tbl_setTbu (s : State) (v : Word) : (s.setTbu v).tbl = s.tbl := low_append v s.tbl

@[simp] theorem tbl_setTbl (s : State) (v : Word) : (s.setTbl v).tbl = v := low_append s.tbu v

@[simp] theorem tbu_setTbl (s : State) (v : Word) : (s.setTbl v).tbu = s.tbu := high_append s.tbu v

@[simp] theorem srr1_setSrr1 (s : State) (v : Word) : (s.setSrr1 v).srr1 = v := halves_append (m := 16) (n := 16) v

theorem setTbu_unchanged (s : State) (v : Word) : Unchanged [.tbu] s (s.setTbu v) := by
  intro p hp
  cases p with
  | tbu => simp at hp
  | tbl => exact tbl_setTbu s v
  | _ => rfl

theorem setTbl_unchanged (s : State) (v : Word) : Unchanged [.tbl] s (s.setTbl v) := by
  intro p hp
  cases p with
  | tbl => simp at hp
  | tbu => exact tbu_setTbl s v
  | _ => rfl

theorem setSrr1_unchanged (s : State) (v : Word) : Unchanged [.srr1] s (s.setSrr1 v) := by
  intro p hp
  cases p with
  | srr1 => simp at hp
  | _ => rfl

/-! ## Record operations -/

theorem recordCr0_unchanged (s : State) (r : Word) : Unchanged [.crField 0] s (s.recordCr0 r) := setCrField_unchanged _ _ _

theorem recordCompare_unchanged (s : State) (n : FieldNum) (a b : Word) (signed : Bool) :
    Unchanged [.crField n] s (s.recordCompare n a b signed) := setCrField_unchanged _ _ _

theorem recordCr1_unchanged (s : State) (rc : Bool) :
    Unchanged (if rc then [.crField 1] else []) s (s.recordCr1 rc) := by
  cases rc
  · exact unchanged_refl _ _
  · exact setCrField_unchanged _ _ _

/-- CA is written and no other XER bit, when the reserved bits hold nothing. -/
theorem setCa_unchanged (s : State) (ca : Bool) (h : s.xer &&& 0x1FFF0080#32 = 0#32) : Unchanged [.xerBit 2] s (s.setCa ca) := by
  apply setXer_unchanged
  intro j hj
  have hx : s.xer &&& 0xE000FF7F#32 = s.xer := and_mask_eq_self h
  have hj2 : j.toNat ≠ 2 := fun e => hj (by simp [BitVec.eq_of_toNat_eq (x := j) (y := 2#5) e])
  rw [bitOf_and, bitOf_withBit _ _ _ _ (by omega) j.isLt, if_neg hj2, ← bitOf_and, hx]

/-- Writing CA leaves no reserved bit set (R50). -/
theorem setCa_reserved (s : State) (ca : Bool) : (s.setCa ca).xer &&& 0x1FFF0080#32 = 0#32 := by
  show withBit s.xer 2 ca &&& 0xE000FF7F#32 &&& 0x1FFF0080#32 = 0#32
  rw [BitVec.and_assoc]; simp

/-- Reading CA after it is written. -/
theorem xer_setCa (s : State) (ca : Bool) : bitOf (s.setCa ca).xer 2 = ca := by
  show bitOf (withBit s.xer 2 _ &&& 0xE000FF7F#32) 2 = _
  rw [bitOf_and, bitOf_withBit _ _ _ _ (by omega) (by omega)]
  simp [bitOf]

/-- Writing CA leaves SO. -/
theorem xer_setCa_so (s : State) (ca : Bool) : bitOf (s.setCa ca).xer 0 = bitOf s.xer 0 := by
  show bitOf (withBit s.xer 2 _ &&& 0xE000FF7F#32) 0 = _
  rw [bitOf_and, bitOf_withBit _ _ _ _ (by omega) (by omega)]
  simp [bitOf]

/-- OV and SO are written with OE = 1 and no other XER bit, when the reserved bits hold nothing (R241). -/
theorem setOverflow_unchanged (s : State) (oe ov : Bool) (h : s.xer &&& 0x1FFF0080#32 = 0#32) :
    Unchanged (if oe then [.xerBit 0, .xerBit 1] else []) s (s.setOverflow oe ov) := by
  cases oe
  · exact unchanged_refl _ _
  · apply setXer_unchanged
    intro j hj
    have hx : s.xer &&& 0xE000FF7F#32 = s.xer := and_mask_eq_self h
    have h0 : j.toNat ≠ 0 := fun e => hj (by simp [BitVec.eq_of_toNat_eq (x := j) (y := 0#5) e])
    have h1 : j.toNat ≠ 1 := fun e => hj (by simp [BitVec.eq_of_toNat_eq (x := j) (y := 1#5) e])
    rw [bitOf_and, bitOf_withBit _ _ _ _ (by omega) j.isLt, if_neg h0, bitOf_withBit _ _ _ _ (by omega) j.isLt, if_neg h1, ← bitOf_and, hx]

end Sys2Proof.Machine
end

