-- ==== Sys2Proof/Laws/Operands.lean ====
section
/-! SUPPORT. What the operand forms and the flag computations amount to as integers and exact comparisons. -/
namespace Sys2Proof.Machine

/-- A sign-extended immediate as an integer (R154). -/
theorem signedImm_eq (x : BitVec 16) : signedImm x = BitVec.ofInt 32 x.toInt := by
  simp [signedImm, BitVec.signExtend]

/-- A zero-extended immediate as a number (R154). -/
theorem unsignedImm_eq (x : BitVec 16) : unsignedImm x = BitVec.ofNat 32 x.toNat := by
  apply BitVec.eq_of_toNat_eq; simp [unsignedImm]

/-- The immediate of `andis.` as a number (R154). -/
theorem shiftedImm_eq (x : BitVec 16) : shiftedImm x = BitVec.ofNat 32 (x.toNat * 2 ^ 16) := by
  apply BitVec.eq_of_toNat_eq
  have h : (x ++ 0#16 : BitVec (16 + 16)).toNat = x.toNat * 2 ^ 16 := by
    rw [BitVec.toNat_append]; simp [Nat.shiftLeft_eq]
  have := x.isLt
  rw [BitVec.toNat_ofNat, Nat.mod_eq_of_lt (by omega)]
  exact h

/-- The displacement of `b` as an integer (R154). -/
theorem displacement24_eq (li : BitVec 24) : displacement24 li = BitVec.ofInt 32 (4 * li.toInt) := by
  have h : (li ++ 0#2).toInt = 4 * li.toInt := by
    have := li.isLt
    rw [BitVec.toInt_eq_toNat_cond, BitVec.toInt_eq_toNat_cond, BitVec.toNat_append]
    simp [Nat.shiftLeft_eq]
    split <;> split <;> omega
  rw [displacement24, BitVec.signExtend, h]

/-- The displacement of `bc` as an integer (R154). -/
theorem displacement14_eq (bd : BitVec 14) : displacement14 bd = BitVec.ofInt 32 (4 * bd.toInt) := by
  have h : (bd ++ 0#2).toInt = 4 * bd.toInt := by
    have := bd.isLt
    rw [BitVec.toInt_eq_toNat_cond, BitVec.toInt_eq_toNat_cond, BitVec.toNat_append]
    simp [Nat.shiftLeft_eq]
    split <;> split <;> omega
  rw [displacement14, BitVec.signExtend, h]

/-- A register as a branch target: `v[0:29] || 0b00` (R260). -/
theorem instructionAddress_eq (v : Word) : instructionAddress v = v.extractLsb' 2 30 ++ 0#2 := by
  apply BitVec.eq_of_getLsbD_eq
  intro i hi
  refine Eq.trans ?_ (BitVec.getLsbD_append (x := v.extractLsb' 2 30) (y := 0#2)).symm
  rw [instructionAddress]
  interval_cases i <;> simp

/-- CR0 of a result (R210). -/
theorem orderField_toInt_zero (r : Word) (so : Bool) :
    orderField r.toInt 0 so = crBits (r.slt 0#32) ((0#32).slt r) (r == 0#32) so := by
  have h : (r.toInt = 0) ↔ r = 0#32 := by
    rw [← BitVec.toInt_inj]; simp
  simp [orderField, crBits, BitVec.slt, h, beq_eq_decide]

/-- The field of an algebraic compare (R212). -/
theorem orderField_signed (a b : Word) (so : Bool) :
    orderField a.toInt b.toInt so = crBits (a.slt b) (b.slt a) (a == b) so := by
  simp [orderField, crBits, BitVec.slt, beq_eq_decide, BitVec.toInt_inj]

/-- The field of a logical compare (R212). -/
theorem orderField_unsigned (a b : Word) (so : Bool) :
    orderField a.toNat b.toNat so = crBits (a.ult b) (b.ult a) (a == b) so := by
  simp [orderField, crBits, BitVec.ult, beq_eq_decide, BitVec.toNat_inj]

/-- What CR0 holds after it is recorded (R210). -/
theorem fieldAt_recordCr0 (s : State) (r : Word) :
    fieldAt (s.recordCr0 r).cr 0 = orderField r.toInt 0 (bitOf s.xer 0) := by
  rw [orderField_toInt_zero]; exact fieldAt_withField_same _ _ _

/-- What the field holds after a compare (R212). -/
theorem fieldAt_recordCompare (s : State) (n : FieldNum) (a b : Word) (signed : Bool) :
    fieldAt (s.recordCompare n a b signed).cr n =
      if signed then orderField a.toInt b.toInt (bitOf s.xer 0) else orderField a.toNat b.toNat (bitOf s.xer 0) := by
  rw [orderField_signed, orderField_unsigned]; exact fieldAt_withField_same _ _ _

/-- The low-order word of the 33-bit sum (R245, R246). -/
theorem carrySum_low (a b : Word) (c : Bool) :
    (carrySum a b c).extractLsb' 0 32 = a + b + (BitVec.ofBool c).setWidth 32 := by
  apply BitVec.eq_of_toNat_eq
  cases c <;> simp [carrySum]

/-- The carry out of bit 0 (R242). -/
theorem carrySum_carry (a b : Word) (c : Bool) :
    (carrySum a b c).getMsbD 0 = decide (2 ^ 32 ≤ a.toNat + b.toNat + c.toNat) := by
  have ha := a.isLt
  have hb := b.isLt
  simp only [BitVec.getMsbD, BitVec.getLsbD, Nat.testBit_eq_decide_div_mod_eq]
  cases c <;> simp [carrySum] <;> omega

/-- The carries out of bits 0 and 1 differ exactly when the signed sum does not fit (R241). -/
theorem carries_differ (a b : Word) (c : Bool) :
    ((carrySum a b c).getMsbD 0 != carryOutOfBit1 a b c) =
      decide (a.toInt + b.toInt + c.toNat < -2 ^ 31 ∨ 2 ^ 31 ≤ a.toInt + b.toInt + c.toNat) := by
  have ha := a.isLt
  have hb := b.isLt
  have h1 : carryOutOfBit1 a b c = decide (2 ^ 31 ≤ a.toNat % 2 ^ 31 + b.toNat % 2 ^ 31 + c.toNat) := by
    simp only [carryOutOfBit1, BitVec.getMsbD, BitVec.getLsbD, Nat.testBit_eq_decide_div_mod_eq]
    cases c <;> simp <;> omega
  rw [carrySum_carry, h1, Bool.eq_iff_iff]
  rw [BitVec.toInt_eq_toNat_cond, BitVec.toInt_eq_toNat_cond]
  have hc : c.toNat ≤ 1 := by cases c <;> simp
  simp only [bne_iff_ne, ne_eq, decide_eq_decide, decide_eq_true_eq]
  split <;> split <;> omega

/-- The value of a sign-extended immediate (R154). -/
theorem signedImm_toInt (x : BitVec 16) : (signedImm x).toInt = x.toInt := by
  rw [signedImm, BitVec.toInt_signExtend_of_le (by omega)]

/-- The value of a zero-extended immediate (R154). -/
theorem unsignedImm_toNat (x : BitVec 16) : (unsignedImm x).toNat = x.toNat := by
  have := x.isLt
  rw [unsignedImm, BitVec.toNat_setWidth, Nat.mod_eq_of_lt (by omega)]

/-- The alignment test of `lwz` (R125). -/
theorem aligned_iff (v : Word) : (v &&& 3#32 != 0#32) = decide (v.toNat % 4 ≠ 0) := by
  rw [Bool.eq_iff_iff]
  simp only [bne_iff_ne, ne_eq, decide_eq_true_eq, not_iff_not]
  rw [← BitVec.toNat_inj, BitVec.toNat_and]
  show v.toNat &&& 3 = 0 ↔ _
  rw [show (3 : Nat) = 2 ^ 2 - 1 by rfl, Nat.and_two_pow_sub_one_eq_mod]

/-- A selected field is among the selected fields (R156). -/
theorem mem_selectedFields (m : BitVec 8) (n : FieldNum) (h : m.getMsbD n.toNat = true) : Part.crField n ∈ selectedFields m := by
  simp only [selectedFields, List.mem_map, List.mem_filter]
  refine ⟨n, ⟨?_, h⟩, rfl⟩
  clear h
  revert n
  decide

/-- A field of one word moved into another under a field mask (R215, R191). -/
theorem fieldAt_select (v w : Word) (m : BitVec 8) (n : FieldNum) : fieldAt ((v &&& fieldsMask m) ||| (w &&& ~~~(fieldsMask m))) n = 
    if m.getMsbD n.toNat then fieldAt v n else fieldAt w n := by
  have hn := n.isLt
  apply field_ext
  intro k hk
  have hk' : (4 * n.toNat + k) / 4 = n.toNat := by omega
  have hj : 4 * n.toNat + k < 32 := by omega
  rw [getMsbD_fieldAt _ _ _ hk, bitOf_or, bitOf_and, bitOf_and, bitOf_not _ _ hj, bitOf_fieldsMask _ _ hj, hk']
  cases m.getMsbD n.toNat <;> simp [getMsbD_fieldAt _ _ _ hk]

end Sys2Proof.Machine
end

