-- ==== Sys2Proof/Laws/Fpscr.lean ====
section
/-! SUPPORT. The FPSCR as it reads, the FX rule, and the moves to the FPSCR bit by bit. -/
namespace Sys2Proof.Machine


/-- A bit of the FPSCR as it reads (R184). -/
theorem bitOf_fpscrImage (v : Word) (j : Nat) (hj : j < 32) :
    bitOf (fpscrImage v) j = if j = 2 then fpscrVx v else if j = 1 then fpscrFex v else bitOf v j := by
  rw [fpscrImage, bitOf_withBit _ _ _ _ (by omega) hj, bitOf_withBit _ _ _ _ (by omega) hj]

/-- The stored bits read as stored (R184). -/
theorem bitOf_fpscrRead (s : State) (j : Nat) (hj : j < 32) (h1 : j ≠ 1) (h2 : j ≠ 2) :
    bitOf s.fpscrRead j = bitOf s.fpscr j := by
  rw [State.fpscrRead, bitOf_fpscrImage _ _ hj, if_neg h2, if_neg h1]

/-- The bits that can be stored. -/
theorem bitOf_fpscrMask (j : Nat) (hj : j < 32) : bitOf 0x9FFFF7FF#32 j = (decide (j ≠ 1) && decide (j ≠ 2) && decide (j ≠ 20)) := by
  interval_cases j <;> decide

/-- A bit of the FPSCR after a write (R184). -/
theorem bitOf_setFpscr (s : State) (v : Word) (j : Nat) (hj : j < 32) :
    bitOf (s.setFpscr v).fpscr j = (bitOf v j && (decide (j ≠ 1) && decide (j ≠ 2) && decide (j ≠ 20))) := by
  rw [State.setFpscr_fpscr, bitOf_and, bitOf_fpscrMask j hj]

/-- The computed bits are no exception bits (R31). -/
theorem raisesException_image (a b : Word) : raisesException (fpscrImage a) (fpscrImage b) = raisesException a b := by
  unfold raisesException
  congr 1
  apply word_ext
  intro j hj
  rw [bitOf_and, bitOf_and, bitOf_and, bitOf_and, bitOf_not _ _ hj, bitOf_not _ _ hj, bitOf_fpscrImage _ _ hj, bitOf_fpscrImage _ _ hj]
  by_cases h1 : j = 1
  · subst h1; simp [bitOf]
  · by_cases h2 : j = 2
    · subst h2; simp [bitOf]
    · simp [h1, h2]

/-- The exception bits leave out FX, so setting FX raises nothing. -/
theorem raisesException_congr {a b c : Word} (h : ∀ j < 32, j ≠ 0 → bitOf b j = bitOf c j) : raisesException a b = raisesException a c := by
  unfold raisesException
  congr 1
  apply word_ext
  intro j hj
  rw [bitOf_and, bitOf_and, bitOf_and, bitOf_and]
  by_cases h0 : j = 0
  · subst h0; simp [bitOf]
  · rw [h j hj h0]

/-- An FPSCR move completes with MSR[FP] = 1 when it leaves no enabled exception due (R183, R186). -/
theorem floatingPoint_next {f : State → State} {s : State} (hf : s.fp = true) (hd : (f s).advance.fpExceptionDue = false) :
    floatingPoint f s = .next (f s).advance := by
  simp [floatingPoint, hf, State.finishChecked, hd]

/-- In ignore-exceptions mode no exception is due (R70). -/
theorem fpExceptionDue_of_ignoring {s : State} (h0 : bitOf s.msr 20 = false) (h1 : bitOf s.msr 23 = false) : s.fpExceptionDue = false := by
  simp [State.fpExceptionDue, State.fpPrecise, h0, h1]

/-- A bit other than FX after `mtfsf` or `mtfsfi` (R190, R191). -/
theorem bitOf_moveToFpscr (s : State) (m v : Word) (w : Bool) (j : Nat) (hj : j < 32) (h0 : j ≠ 0) :
    bitOf (s.moveToFpscr m v w).fpscr j =
      ((if bitOf m j then bitOf v j else bitOf s.fpscr j) && (decide (j ≠ 1) && decide (j ≠ 2) && decide (j ≠ 20))) := by
  have hfx : ∀ (fx fw : Bool) (old new : Word), bitOf (fxAfterMove fx fw old new) j = bitOf new j := by
    intro fx fw old new
    unfold fxAfterMove
    split
    · rw [bitOf_or, bitOf_bitMask _ _ (by omega) hj]; simp [h0]
    · rfl
  rw [State.moveToFpscr, bitOf_setFpscr _ _ _ hj, hfx, bitOf_setFpscr _ _ _ hj, bitOf_or, bitOf_and, bitOf_and, bitOf_not _ _ hj]
  cases bitOf m j <;> simp

/-- FX after `mtfsf` or `mtfsfi` (R185). -/
theorem bitOf_moveToFpscr_fx (s : State) (m v : Word) (w : Bool) (hw : w = bitOf m 0) :
    bitOf (s.moveToFpscr m v w).fpscr 0 = if w then bitOf v 0 
      else bitOf s.fpscr 0 || (Config.fxOnMtfsf && raisesException s.fpscr (s.moveToFpscr m v w).fpscr) := by
  have hr : raisesException s.fpscr (s.moveToFpscr m v w).fpscr =
      raisesException s.fpscr (s.setFpscr ((v &&& m) ||| (s.fpscr &&& ~~~m))).fpscr := by
    apply raisesException_congr
    intro j hj h0
    rw [bitOf_moveToFpscr _ _ _ _ _ hj h0, bitOf_setFpscr _ _ _ hj, bitOf_or, bitOf_and, bitOf_and, bitOf_not _ _ hj]
    cases bitOf m j <;> simp
  have h0 : bitOf (s.setFpscr ((v &&& m) ||| (s.fpscr &&& ~~~m))).fpscr 0 = if w then bitOf v 0 else bitOf s.fpscr 0 := by
    rw [bitOf_setFpscr _ _ _ (by omega), bitOf_or, bitOf_and, bitOf_and, bitOf_not _ _ (by omega), hw]
    cases bitOf m 0 <;> simp
  rw [hr, State.moveToFpscr, bitOf_setFpscr _ _ _ (by omega), fxAfterMove]
  show ((bitOf (if (!w && raisesException s.fpscr (s.setFpscr ((v &&& m) ||| (s.fpscr &&& ~~~m))).fpscr && Config.fxOnMtfsf) = true then _ else _) 0) && _) = _
  generalize raisesException s.fpscr (s.setFpscr ((v &&& m) ||| (s.fpscr &&& ~~~m))).fpscr = r
  generalize (s.setFpscr ((v &&& m) ||| (s.fpscr &&& ~~~m))).fpscr = x at *
  cases w <;> cases Config.fxOnMtfsf <;> cases r <;> simp_all [bitOf_bitMask]

/-- A record form leaves the FPSCR. -/
theorem recordCr1_fpscr (s : State) (rc : Bool) : (s.recordCr1 rc).fpscr = s.fpscr := by cases rc <;> rfl

/-- A record form leaves the FPSCR as it reads. -/
theorem recordCr1_fpscrRead (s : State) (rc : Bool) : (s.recordCr1 rc).fpscrRead = s.fpscrRead := by cases rc <;> rfl

/-- A record form leaves the MSR. -/
theorem recordCr1_msr (s : State) (rc : Bool) : (s.recordCr1 rc).msr = s.msr := by cases rc <;> rfl

/-- A move to the FPSCR leaves the MSR. -/
theorem moveToFpscr_msr (s : State) (m v w) : (s.moveToFpscr m v w).msr = s.msr := rfl

/-- CR1 after a record form (R187). -/
theorem recordCr1_field (s : State) (rc : Bool) (h : rc = true) : fieldAt (s.recordCr1 rc).cr 1 = fieldAt (s.recordCr1 rc).fpscrRead 0 := by
  subst h; exact fieldAt_withField_same _ _ _

/-- A move to the FPSCR changes nothing else. -/
theorem moveToFpscr_unchanged (s : State) (m v w) : Unchanged fpscrParts s (s.moveToFpscr m v w) :=
  ((setFpscr_unchanged _ _).trans (setFpscr_unchanged _ _)).mono (by simp)

/-- The bits that hold nothing (R30, R184). -/
theorem bitOf_fpscrReserved {v : Word} (h : v &&& 0x60000800#32 = 0#32) : bitOf v 1 = false ∧ bitOf v 2 = false ∧ bitOf v 20 = false := by
  refine ⟨?_, ?_, ?_⟩
  · simpa [bitOf] using congrArg (fun w => bitOf w 1) h
  · simpa [bitOf] using congrArg (fun w => bitOf w 2) h
  · simpa [bitOf] using congrArg (fun w => bitOf w 20) h

end Sys2Proof.Machine
end

