-- ==== Sys2Proof/Laws/Exceptions.lean ====
section
/-! SUPPORT. Taking an exception and returning from one: what the shared operations answer, once. -/
namespace Sys2Proof.Machine

/-- The reserved bits of the MSR hold nothing, so its write mask changes nothing (R66). -/
theorem msr_mask_self {s : State} (h : s.ReservedZero) : s.msr &&& 0x0001FF43#32 = s.msr := and_mask_eq_self h.1

/-- With MSR[ILE] = 0 the MSR after entry keeps ME and IP alone (R355). -/
theorem entryMsr_eq (m : Word) (h : bitOf m 15 = false) : entryMsr m = m &&& 0x00001040#32 := by
  apply word_ext
  intro j hj
  rw [entryMsr, h, bitOf_or, bitOf_and, bitOf_and]
  by_cases h15 : j = 15
  · subst h15; simp [h]
  · have : bitOf 0x00011040#32 j = bitOf 0x00001040#32 j := by interval_cases j <;> first | decide | exact absurd rfl h15
    simp [this]

/-- An exception that is taken: the entry sequence, and MSR[ILE] = 0 (R352). -/
theorem take_next_iff {s t : State} {e : ExceptionKind} {resume : Word} :
    s.take e resume = .next t ↔ s.ile = false ∧
      t = { s with
        srr0 := resume
        srr1Info := Config.exceptionInfo s.draws
        srr1Msr := s.msr.extractLsb' 0 16
        draws := s.draws + 1
        msr := entryMsr s.msr
        decReq := if e = .decrementer then false else s.decReq
        pc := vectorBase s.ip + e.offset } := by
  unfold State.take
  cases s.ile <;> simp [eq_comm]

/-- A bit of the MSR that entry does not list is unchanged when the reserved bits hold nothing (R355). -/
theorem entryMsr_unlisted {s : State} (hr : s.ReservedZero) (h : bitOf s.msr 15 = false) (j : Five)
    (hj : Part.msrBit j ∉ entryParts) : bitOf (entryMsr s.msr) j.toNat = bitOf s.msr j.toNat := by
  rw [entryMsr_eq _ h]
  conv_rhs => rw [← msr_mask_self hr]
  rw [bitOf_and, bitOf_and]
  by_cases h15 : j.toNat = 15
  · rw [h15, h]; simp
  · congr 1
    simp only [entryParts, List.mem_cons, reduceCtorEq, Part.msrBit.injEq, false_or, or_false, not_or, List.not_mem_nil,
      ← BitVec.toNat_inj] at hj
    have hlt := j.isLt
    generalize j.toNat = k at hlt hj h15 ⊢
    interval_cases k <;> first | decide | exact absurd rfl h15 | (exfalso; revert hj; decide)

/-- What the entry sequence leaves (R352 to R355). -/
theorem entersException_of_take {s t : State} {e : ExceptionKind} {resume : Word} {also : List Part} (hr : s.ReservedZero)
    (h : s.take e resume = .next t) (ha : e = .decrementer → Part.decReq ∈ also) :
    EntersException e.offset resume also s t := by
  obtain ⟨hi, rfl⟩ := take_next_iff.mp h
  have hi' : bitOf s.msr 15 = false := hi
  refine ⟨rfl, low_append _ _, ?_, ?_, ?_, ?_⟩
  · intro i hm
    show bitOf (entryMsr s.msr) i = false
    rw [entryMsr_eq _ hi', bitOf_and]
    have : bitOf 0x00001040#32 i = false := by
      revert hm i; decide
    rw [this, Bool.and_false]
  · show bitOf (entryMsr s.msr) 31 = bitOf s.msr 15
    rw [entryMsr_eq _ hi', bitOf_and, hi']; simp [bitOf]
  · show vectorBase s.ip + e.offset = _
    rfl
  · intro p hp
    have hp' : p ∉ entryParts := fun hm => hp (List.mem_append.mpr (.inl hm))
    cases p with
    | msrBit j => exact entryMsr_unlisted hr hi' j hp'
    | srr0 => simp [entryParts] at hp'
    | srr1 => simp [entryParts] at hp'
    | draws => simp [entryParts] at hp'
    | decReq =>
      show (if e = .decrementer then false else s.decReq) = s.decReq
      exact if_neg (fun he => hp (List.mem_append.mpr (.inr (ha he))))
    | _ => rfl

/-- An exception is taken whenever MSR[ILE] = 0 (R352). -/
theorem take_of_ile {s : State} (e : ExceptionKind) (resume : Word) (h : bitOf s.msr 15 = false) :
    ∃ t, s.take e resume = .next t := ⟨_, take_next_iff.mpr ⟨h, rfl⟩⟩

/-- No exception is taken while MSR[ILE] = 1 (R352). -/
theorem take_refused_of_ile {s : State} (e : ExceptionKind) (resume : Word) (h : bitOf s.msr 15 = true) :
    s.take e resume = .refused .littleEndianEntry := by simp [State.take, State.ile, h]

/-- The vector table agrees with the offsets that R350 writes for the exceptions taken. -/
theorem offset_eq_of_mem_takenExceptions {e : ExceptionKind} {o : Word} (h : (e, o) ∈ takenExceptions) : e.offset = o := by
  have table : ∀ row ∈ takenExceptions, row.1.offset = row.2 := by decide
  exact table _ h

/-- The check at the end of an instruction (R186, R348). -/
theorem finishChecked_next_iff {s t : State} : s.finishChecked = .next t ↔ s.fpExceptionDue = false ∧ t = s := by
  unfold State.finishChecked
  cases s.fpExceptionDue <;> simp [eq_comm]

/-- Everything an FPSCR move can do (R183, R186). -/
theorem floatingPoint_next_cases {f : State → State} {s t : State} (h : floatingPoint f s = .next t) :
    (s.fp = true ∧ t = (f s).advance ∧ t.fpExceptionDue = false) ∨ (s.fp = false ∧ s.take .fpUnavailable s.pc = .next t) := by
  unfold floatingPoint at h
  cases hf : s.fp
  · rw [hf] at h; exact .inr ⟨rfl, h⟩
  · rw [hf] at h
    obtain ⟨hd, rfl⟩ := finishChecked_next_iff.mp h
    exact .inl ⟨rfl, rfl, hd⟩

/-- FEX of the stored bits is the FEX that is read (R32). -/
theorem bitOf_fpscrRead_fex (s : State) : bitOf s.fpscrRead 1 = fpscrFex s.fpscr := by
  rw [State.fpscrRead, bitOf_fpscrImage _ _ (by omega), if_neg (by omega), if_pos rfl]

/-- VX of the stored bits is the VX that is read (R33). -/
theorem bitOf_fpscrRead_vx (s : State) : bitOf s.fpscrRead 2 = fpscrVx s.fpscr := by
  rw [State.fpscrRead, bitOf_fpscrImage _ _ (by omega), if_pos rfl]

/-- Some bit of a mask is set. -/
theorem mask_ne_zero (v m : Word) : (v &&& m != 0#32) = true ↔ ∃ j < 32, bitOf m j = true ∧ bitOf v j = true := by
  simp only [bne_iff_ne, ne_eq]
  constructor
  · intro h
    by_contra hc
    push Not at hc
    apply h
    apply word_ext
    intro j hj
    rw [bitOf_and, bitOf_zero]
    by_cases hm : bitOf m j = true
    · have := hc j hj hm; simp [this]
    · simp [hm]
  · rintro ⟨j, hj, hm, hv⟩ h
    have := congrArg (fun w => bitOf w j) h
    simp [hm, hv] at this

/-- A bit of SRR1[16:31] (R81). -/
theorem bitOf_srr1 (s : State) (j : Nat) (h16 : 16 ≤ j) (hj : j < 32) : bitOf s.srr1 j = s.srr1Msr.getMsbD (j - 16) := by
  rw [bitOf_eq_getLsbD _ _ hj]
  refine (BitVec.getLsbD_append (x := s.srr1Info) (y := s.srr1Msr)).trans ?_
  rw [BitVec.getMsbD]
  simp [show 31 - j < 16 by omega, show j - 16 < 16 by omega, show 16 - 1 - (j - 16) = 31 - j by omega]

/-- A bit of the MSR that a return restores (R316). -/
theorem bitOf_restored (s : State) (j : Nat) (hj : j < 32) :
    bitOf s.returnFromException.msr j = ((if j < 16 then bitOf s.msr j else bitOf s.srr1 j) && bitOf 0x0001FF43#32 j) := by
  show bitOf (((s.msr &&& 0xFFFF0000#32) ||| s.srr1Msr.setWidth 32) &&& 0x0001FF43#32) j = _
  rw [bitOf_and, bitOf_or, bitOf_and]
  congr 1
  by_cases h : j < 16
  · have h1 : bitOf 0xFFFF0000#32 j = true := by interval_cases j <;> decide
    have h2 : bitOf (s.srr1Msr.setWidth 32) j = false := by
      rw [bitOf_eq_getLsbD _ _ hj]
      simp; try (intro _; apply BitVec.getLsbD_of_ge; omega)
    simp [h, h1, h2]
  · have h1 : bitOf 0xFFFF0000#32 j = false := by
      have : 16 ≤ j := by omega
      interval_cases j <;> decide
    have h2 : bitOf (s.srr1Msr.setWidth 32) j = bitOf s.srr1 j := by
      rw [bitOf_srr1 _ _ (by omega) hj, bitOf_eq_getLsbD _ _ hj, BitVec.getMsbD]
      simp [show j - 16 < 16 by omega, show 16 - 1 - (j - 16) = 31 - j by omega, show 31 - j < 32 by omega]
    simp [h, h1, h2]

end Sys2Proof.Machine
end

