-- ==== Sys2Proof/Laws/ExecFrame.lean ====
section
/-! SUPPORT. What each instruction may write, and that it writes nothing else: every next state of `exec` is either inside
that frame or an exception entry. -/
namespace Sys2Proof.Machine

/-- The exceptions an instruction can take, when, and where they resume (R368, R369, R372, R365). -/
def Raises (s : State) (e : ExceptionKind) (resume : Word) : Prop :=
  (e = .systemCall ∧ resume = s.pc + 4#32) ∨ (e = .program ∧ s.pr = true ∧ resume = s.pc) ∨
    (e = .fpUnavailable ∧ s.fp = false ∧ resume = s.pc) ∨ (e = .softwareEmulation ∧ s.pr = false ∧ resume = s.pc)

/-- The pieces of state `mtspr` to a number may write. -/
def sprParts (n : BitVec 10) : List Part :=
  match sprOfNumber n with
  | some .xer => xerParts
  | some .lr => [.lr]
  | some .ctr => [.ctr]
  | some .dsisr => [.dsisr]
  | some .dar => [.dar]
  | some .dec => [.dec, .decReq]
  | some .srr0 => [.srr0]
  | some .srr1 => [.srr1]
  | some .sprg0 => [.sprg0]
  | some .sprg1 => [.sprg1]
  | some .sprg2 => [.sprg2]
  | some .sprg3 => [.sprg3]
  | some .tbl => [.tbl]
  | some .tbu => [.tbu]
  | some .eie | some .eid | some .nri => msrParts
  | some .pvr | some (.unit _) | none => []

/-- The pieces of state an instruction may write, `pc` and the taking of an exception aside. -/
def mayWrite : Instr → List Part
  | .cmpli d _ _ _ | .cmpi d _ _ _ | .cmp d _ _ _ | .cmpl d _ _ _ | .mcrf d _ => [.crField d]
  | .addicDot rD _ _ => .gpr rD :: .crField 0 :: xerParts
  | .addi rD _ _ | .lwz rD _ _ | .mfmsr rD | .mfspr rD _ | .mftb rD _ => [.gpr rD]
  | .bc _ _ _ _ _ | .bclr _ _ _ | .bcctr _ _ _ => [.lr, .ctr]
  | .b _ _ _ => [.lr]
  | .sc => []
  | .rfi | .mtmsr _ => msrParts
  | .andiDot rA _ _ | .andisDot rA _ _ => [.gpr rA, .crField 0]
  | .subfc rD _ _ _ rc => .gpr rD :: (if rc then [.crField 0] else []) ++ xerParts
  | .mtcrf crm _ => selectedFields crm
  | .mtspr n _ => sprParts n
  | .mcrxr d => .crField d :: xerParts
  | .mcrfs d _ => .crField d :: fpscrParts
  | .mtfsb1 _ rc | .mtfsb0 _ rc | .mtfsfi _ _ rc | .mtfsf _ _ rc => fpscrParts ++ if rc then [.crField 1] else []

/-- A write of the XER changes nothing but XER bits. -/
theorem setXer_unchanged_parts (s : State) (v : Word) : Unchanged xerParts s (s.setXer v) :=
  setXer_unchanged s v _ (fun j hj => absurd (mem_xerParts j) hj)

/-- A write of the MSR changes nothing but MSR bits. -/
theorem setMsr_unchanged_parts (s : State) (v : Word) : Unchanged msrParts s (s.setMsr v) :=
  setMsr_unchanged s v _ (fun j hj => absurd (mem_msrParts j) hj)

/-- `addic.` and `subfc` write XER bits beside their register and CR0. -/
theorem setOverflow_unchanged_parts (s : State) (oe ov : Bool) : Unchanged xerParts s (s.setOverflow oe ov) := by
  cases oe
  · exact fun p _ => p.same_refl s
  · exact setXer_unchanged_parts _ _

/-- The moves of the CR under a mask write the selected fields (R215). -/
theorem mtcrf_unchanged (s : State) (m : BitVec 8) (v : Word) :
    Unchanged (selectedFields m) s { s with cr := (v &&& fieldsMask m) ||| (s.cr &&& ~~~(fieldsMask m)) } := by
  intro p hp
  cases p with
  | crField n => exact (fieldAt_select _ _ _ _).trans (if_neg (fun h => hp (mem_selectedFields _ _ h)))
  | _ => rfl

/-- A conditional branch writes LR and CTR. -/
theorem conditionalBranch_unchanged (s : State) (count : Word) (taken : Bool) (target : Word) (lk : Bool) :
    Unchanged [.lr, .ctr] s (s.conditionalBranch count taken target lk) := by
  intro p hp
  cases p with
  | lr => simp at hp
  | ctr => simp at hp
  | _ => rfl

/-- A write of a special-purpose register writes what `sprParts` lists (R280). -/
theorem sprWritten_unchanged {s t : State} {n : BitVec 10} {r : Spr} {v : Word} (hr : sprOfNumber n = some r)
    (h : s.sprWritten r v = some t) : Unchanged (sprParts n) s t := by
  unfold sprParts
  rw [hr]
  cases r <;> simp only [State.sprWritten, Option.some.injEq, reduceCtorEq] at h <;> subst h
  case xer => exact setXer_unchanged_parts _ _
  case dec => exact setDec_unchanged _ _
  case srr1 => exact setSrr1_unchanged _ _
  case tbl => exact setTbl_unchanged _ _
  case tbu => exact setTbu_unchanged _ _
  case eie => exact setMsr_unchanged_parts _ _
  case eid => exact setMsr_unchanged_parts _ _
  case nri => exact setMsr_unchanged_parts _ _
  all_goals
    intro p hp
    cases p <;> first | rfl | simp at hp

/-- Everything `mtspr` can do: one of its refusals, an exception, or one write (R280). -/
theorem execMtspr_next_cases {n : BitVec 10} {rS : Five} {s t : State} (h : execMtspr n rS s = .next t) :
    ∃ r, sprOfNumber n = some r ∧
      ((sprSupervisor r = true ∧ s.pr = true ∧ s.take .program s.pc = .next t) ∨
        ((sprSupervisor r = true → s.pr = false) ∧ ∃ u, s.sprWritten r (s.gprAt rS) = some u ∧ t = u.advance ∧
          (sprWritesMsr r = true → t.fpExceptionDue = false))) := by
  unfold execMtspr at h
  cases hr : sprOfNumber n with
  | none => rw [hr] at h; cases h
  | some r =>
    rw [hr] at h
    refine ⟨r, rfl, ?_⟩
    simp only at h
    split at h
    · next hp =>
      simp only [Bool.and_eq_true] at hp
      exact .inl ⟨hp.1, hp.2, h⟩
    · next hp =>
      refine .inr ⟨fun hs => by simpa [hs] using hp, ?_⟩
      cases r with
      | unit u => cases h
      | pvr => cases h
      | _ =>
        simp only [State.sprWritten, sprWritesMsr] at h ⊢
        refine ⟨_, rfl, ?_⟩
        first
          | exact ⟨(finishChecked_next_iff.mp h).2, fun _ => (finishChecked_next_iff.mp h).2 ▸ (finishChecked_next_iff.mp h).1⟩
          | exact ⟨(Host.Outcome.next.inj h).symm, fun h' => absurd h' (by simp)⟩

/-- Everything `mfspr` can do: one of its refusals, an exception, or a read into `rD` (R281). -/
theorem execMfspr_next_cases {n : BitVec 10} {rD : Five} {s t : State} (h : execMfspr rD n s = .next t) :
    ∃ r, sprForRead n = some r ∧
      ((sprSupervisor r = true ∧ s.pr = true ∧ s.take .program s.pc = .next t) ∨
        ((sprSupervisor r = true → s.pr = false) ∧
          ((s.sprValue r = none ∧ s.take .softwareEmulation s.pc = .next t) ∨
            ∃ v, s.sprValue r = some v ∧ t = (s.setGpr rD v).advance))) := by
  unfold execMfspr at h
  cases hr : sprForRead n with
  | none => rw [hr] at h; cases h
  | some r =>
    rw [hr] at h
    refine ⟨r, rfl, ?_⟩
    simp only at h
    split at h
    · next hp =>
      simp only [Bool.and_eq_true] at hp
      exact .inl ⟨hp.1, hp.2, h⟩
    · next hp =>
      refine .inr ⟨fun hs => by simpa [hs] using hp, ?_⟩
      cases r with
      | unit u => cases h
      | _ =>
        simp only [State.sprValue] at h ⊢
        first
          | exact .inr ⟨_, rfl, (Host.Outcome.next.inj h).symm⟩
          | exact .inl ⟨trivial, h⟩

/-- Everything `addic.` writes (R246). -/
theorem execAddicDot_unchanged {rD rA : Five} {x : BitVec 16} {s t : State} (h : execAddicDot rD rA x s = .next t) :
    Unchanged (mayWrite (.addicDot rD rA x)) s t := by
  cases h
  exact ((((setGpr_unchanged s rD _).trans (setXer_unchanged_parts _ _)).trans (recordCr0_unchanged _ _)).trans
    (advance_unchanged _) |>.mono (by simp [mayWrite]; tauto))

/-- Everything `subfc` writes (R245). -/
theorem execSubfc_unchanged {rD rA rB : Five} {oe rc : Bool} {s t : State} (h : execSubfc rD rA rB oe rc s = .next t) :
    Unchanged (mayWrite (.subfc rD rA rB oe rc)) s t := by
  cases h
  have hx := ((setGpr_unchanged s rD ((carrySum (~~~(s.gprAt rA)) (s.gprAt rB) true).extractLsb' 0 32)).trans
    (setXer_unchanged_parts _ (withBit s.xer 2 ((carrySum (~~~(s.gprAt rA)) (s.gprAt rB) true).getMsbD 0)))).trans
    (setOverflow_unchanged_parts _ oe ((carrySum (~~~(s.gprAt rA)) (s.gprAt rB) true).getMsbD 0 !=
      carryOutOfBit1 (~~~(s.gprAt rA)) (s.gprAt rB) true))
  cases rc
  · exact ((hx.trans (advance_unchanged _)).mono (by simp [mayWrite]))
  · exact (((hx.trans (recordCr0_unchanged _ _)).trans (advance_unchanged _)).mono (by simp [mayWrite]; tauto))

/-- An FPSCR move writes what its effect writes, or takes the floating-point unavailable exception. -/
theorem floatingPoint_next_unchanged {f : State → State} {l : List Part} {s t : State} (h : floatingPoint f s = .next t)
    (hl : Unchanged l s (f s)) : Unchanged l s t ∨ ∃ e resume, Raises s e resume ∧ s.take e resume = .next t := by
  rcases floatingPoint_next_cases h with ⟨_, rfl, _⟩ | ⟨hf, ht⟩
  · exact .inl ((hl.trans (advance_unchanged _)).mono (by simp))
  · exact .inr ⟨_, _, .inr (.inr (.inl ⟨rfl, hf, rfl⟩)), ht⟩

/-- Everything an FPSCR move writes (R189 to R193). -/
theorem fpscrMove_next_cases {i : Instr} (hi : isFpscrMove i = true) {s t : State} (h : exec i s = .next t) :
    Unchanged (mayWrite i) s t ∨ ∃ e resume, Raises s e resume ∧ s.take e resume = .next t := by
  cases i with
  | mcrfs d r =>
    change execMcrfs d r s = _ at h
    unfold execMcrfs at h
    refine floatingPoint_next_unchanged h ?_
    exact ((setCrField_unchanged s d _).trans (setFpscr_unchanged _ _)).mono (by simp [mayWrite])
  | mtfsfi d x rc =>
    change execMtfsfi d x rc s = _ at h
    unfold execMtfsfi at h
    refine floatingPoint_next_unchanged h ?_
    exact (moveToFpscr_unchanged s _ _ _).trans (recordCr1_unchanged _ rc)
  | mtfsf d x rc =>
    change execMtfsf d x rc s = _ at h
    unfold execMtfsf at h
    refine floatingPoint_next_unchanged h ?_
    exact (moveToFpscr_unchanged s _ _ _).trans (recordCr1_unchanged _ rc)
  | mtfsb0 d rc =>
    change execMtfsb0 d rc s = _ at h
    unfold execMtfsb0 at h
    refine floatingPoint_next_unchanged h ?_
    exact (setFpscr_unchanged s _).trans (recordCr1_unchanged _ rc)
  | mtfsb1 d rc =>
    change execMtfsb1 d rc s = _ at h
    unfold execMtfsb1 at h
    refine floatingPoint_next_unchanged h ?_
    exact (setFpscr_unchanged s _).trans (recordCr1_unchanged _ rc)
  | _ => cases hi

/-- Every next state of an instruction is inside its frame or is an exception entry. -/
theorem exec_next_cases {i : Instr} {s t : State} (h : exec i s = .next t) :
    Unchanged (mayWrite i) s t ∨ ∃ e resume, Raises s e resume ∧ s.take e resume = .next t := by
  cases i with
  | cmpli d l rA u =>
    cases l <;> cases h
    exact .inl ((recordCompare_unchanged _ _ _ _ _).trans (advance_unchanged _))
  | cmpi d l rA u =>
    cases l <;> cases h
    exact .inl ((recordCompare_unchanged _ _ _ _ _).trans (advance_unchanged _))
  | cmp d l rA u =>
    cases l <;> cases h
    exact .inl ((recordCompare_unchanged _ _ _ _ _).trans (advance_unchanged _))
  | cmpl d l rA u =>
    cases l <;> cases h
    exact .inl ((recordCompare_unchanged _ _ _ _ _).trans (advance_unchanged _))
  | mcrf d r => cases h; exact .inl ((setCrField_unchanged _ _ _).trans (advance_unchanged _))
  | addi rD rA x => cases h; exact .inl ((setGpr_unchanged _ _ _).trans (advance_unchanged _))
  | lwz rD rA x =>
    change execLwz rD rA x s = _ at h
    unfold execLwz at h
    simp only at h
    split at h
    · cases h
    · split at h
      · cases h
      · split at h
        · cases h; exact .inl ((setGpr_unchanged _ _ _).trans (advance_unchanged _))
        · cases h
  | mfmsr rD =>
    change execMfmsr rD s = _ at h
    unfold execMfmsr at h
    split at h
    · next hp => exact .inr ⟨_, _, .inr (.inl ⟨rfl, hp, rfl⟩), h⟩
    · cases h; exact .inl ((setGpr_unchanged _ _ _).trans (advance_unchanged _))
  | mtmsr rS =>
    change execMtmsr rS s = _ at h
    unfold execMtmsr at h
    split at h
    · next hp => exact .inr ⟨_, _, .inr (.inl ⟨rfl, hp, rfl⟩), h⟩
    · obtain ⟨_, rfl⟩ := finishChecked_next_iff.mp h
      exact .inl (((setMsr_unchanged_parts _ _).trans (advance_unchanged _)).mono (by simp [mayWrite]))
  | sc => exact .inr ⟨_, _, .inl ⟨rfl, rfl⟩, h⟩
  | rfi =>
    change execRfi s = _ at h
    unfold execRfi at h
    split at h
    · next hp => exact .inr ⟨_, _, .inr (.inl ⟨rfl, hp, rfl⟩), h⟩
    · obtain ⟨_, rfl⟩ := finishChecked_next_iff.mp h
      exact .inl (((setMsr_unchanged_parts _ _).trans (branchTo_unchanged _ _)).mono (by simp [mayWrite]))
  | mfspr rD n =>
    obtain ⟨r, hr, ⟨_, hp, ht⟩ | ⟨hs, ⟨hv, ht⟩ | ⟨v, _, rfl⟩⟩⟩ := execMfspr_next_cases h
    · exact .inr ⟨_, _, .inr (.inl ⟨rfl, hp, rfl⟩), ht⟩
    · refine .inr ⟨_, _, .inr (.inr (.inr ⟨rfl, hs ?_, rfl⟩)), ht⟩
      cases r <;> first | rfl | cases hv
    · exact .inl ((setGpr_unchanged _ _ _).trans (advance_unchanged _))
  | mtspr n rS =>
    obtain ⟨r, hr, ⟨_, hp, ht⟩ | ⟨_, u, hu, rfl, _⟩⟩ := execMtspr_next_cases h
    · exact .inr ⟨_, _, .inr (.inl ⟨rfl, hp, rfl⟩), ht⟩
    · exact .inl (((sprWritten_unchanged hr hu).trans (advance_unchanged _)).mono (by simp [mayWrite]))
  | mftb rD n =>
    change execMftb rD n s = _ at h
    unfold execMftb at h
    split at h <;> cases h <;> exact .inl ((setGpr_unchanged _ _ _).trans (advance_unchanged _))
  | b li aa lk => cases h; exact .inl ((link_unchanged _ _).trans (branchTo_unchanged _ _))
  | bc bo bi bd aa lk => cases h; exact .inl (conditionalBranch_unchanged _ _ _ _ _)
  | bclr bo bi lk => cases h; exact .inl (conditionalBranch_unchanged _ _ _ _ _)
  | bcctr bo bi lk =>
    change execBcctr bo bi lk s = _ at h
    unfold execBcctr at h
    split at h
    · cases h
    · cases h; exact .inl (conditionalBranch_unchanged _ _ _ _ _)
  | andiDot rA rS u =>
    cases h
    exact .inl (((setGpr_unchanged _ _ _).trans (recordCr0_unchanged _ _)).trans (advance_unchanged _))
  | andisDot rA rS u =>
    cases h
    exact .inl (((setGpr_unchanged _ _ _).trans (recordCr0_unchanged _ _)).trans (advance_unchanged _))
  | mtcrf crm rS => cases h; exact .inl ((mtcrf_unchanged _ _ _).trans (advance_unchanged _) |>.mono (by simp [mayWrite]))
  | mcrxr d =>
    cases h
    exact .inl (((setCrField_unchanged _ _ _).trans (setXer_unchanged_parts _ _)).trans (advance_unchanged _) |>.mono
      (by simp [mayWrite]))
  | subfc rD rA rB oe rc => exact .inl (execSubfc_unchanged h)
  | addicDot rD rA x => exact .inl (execAddicDot_unchanged h)
  | mcrfs d r => exact fpscrMove_next_cases rfl h
  | mtfsfi d x rc => exact fpscrMove_next_cases rfl h
  | mtfsf d x rc => exact fpscrMove_next_cases rfl h
  | mtfsb0 d rc => exact fpscrMove_next_cases rfl h
  | mtfsb1 d rc => exact fpscrMove_next_cases rfl h

/-- The number of a special-purpose register (R100). -/
def sprNumber : Spr → Nat
  | .xer => 1
  | .lr => 8
  | .ctr => 9
  | .dsisr => 18
  | .dar => 19
  | .dec => 22
  | .srr0 => 26
  | .srr1 => 27
  | .sprg0 => 272
  | .sprg1 => 273
  | .sprg2 => 274
  | .sprg3 => 275
  | .pvr => 287
  | .tbl => 284
  | .tbu => 285
  | .eie => 80
  | .eid => 81
  | .nri => 82
  | .unit .cmpa => 144
  | .unit .cmpb => 145
  | .unit .cmpc => 146
  | .unit .cmpd => 147
  | .unit .ecr => 148
  | .unit .der => 149
  | .unit .counta => 150
  | .unit .countb => 151
  | .unit .cmpe => 152
  | .unit .cmpf => 153
  | .unit .cmpg => 154
  | .unit .cmph => 155
  | .unit .lctrl1 => 156
  | .unit .lctrl2 => 157
  | .unit .ictrl => 158
  | .unit .bar => 159
  | .unit .iccst => 560
  | .unit .icadr => 561
  | .unit .icdat => 562
  | .unit .dpdr => 630
  | .unit .fpecr => 1022

/-- Every register has one number (R100). -/
theorem sprOfNumber_eq_some {n : BitVec 10} {r : Spr} (h : sprOfNumber n = some r) : n.toNat = sprNumber r := by
  unfold sprOfNumber at h
  split at h <;> cases h <;> assumption

/-- A write of a register that can be written completes at supervisor level (R280). -/
theorem mtspr_completes {n : BitVec 10} {r : Spr} {rS : Five} {s u : State} (hn : sprOfNumber n = some r) (hp : s.pr = false)
    (hu : s.sprWritten r (s.gprAt rS) = some u) (hm : sprWritesMsr r = true → u.advance.fpExceptionDue = false) :
    execMtspr n rS s = .next u.advance := by
  unfold execMtspr
  rw [hn]
  simp only [hp, Bool.and_false, Bool.false_eq_true, ↓reduceIte]
  cases r with
  | unit q => simp [State.sprWritten] at hu
  | _ => 
    simp only [hu, sprWritesMsr, ↓reduceIte, Bool.false_eq_true]
    try exact finishChecked_next_iff.mpr ⟨hm rfl, rfl⟩

/-- A read of a register that can be read completes at supervisor level (R281). -/
theorem mfspr_completes {n : BitVec 10} {r : Spr} {rD : Five} {s : State} {v : Word} (hn : sprForRead n = some r) (hp : s.pr = false)
    (hv : s.sprValue r = some v) : execMfspr rD n s = .next (s.setGpr rD v).advance := by
  unfold execMfspr
  rw [hn]
  simp only [hp, Bool.and_false, Bool.false_eq_true, ↓reduceIte]
  cases r with
  | unit q => simp [State.sprValue] at hv
  | _ => simp only [hv]

end Sys2Proof.Machine
end

