-- ==== Sys2Proof/Laws/Memory.lean ====
section
/-! SUPPORT. Memory: a read after a write, and that every memory operation keeps the canonical form. -/
namespace Sys2Proof.Machine

/-- Reading the byte that was written. -/
theorem Memory.read_write_same (m : Memory) (a : Nat) (b : Byte) : (m.write a b).read a = some b := by
  induction m with
  | nil => simp [Memory.write, Memory.read]
  | cons c rest ih =>
    simp only [Memory.write]
    split
    · simp [Memory.read]
    · split
      · next h => simp [Memory.read, h]
      · next h => simp [Memory.read, Ne.symm h, ih]

/-- Writing a byte leaves every other byte. -/
theorem Memory.read_write_ne (m : Memory) (a k : Nat) (b : Byte) (h : k ≠ a) : (m.write a b).read k = m.read k := by
  induction m with
  | nil => simp [Memory.write, Memory.read, Ne.symm h]
  | cons c rest ih =>
    simp only [Memory.write]
    split
    · simp [Memory.read, Ne.symm h]
    · split
      · next hc => simp [Memory.read, ← hc, Ne.symm h]
      · simp [Memory.read, ih]

theorem Memory.wfFrom_write (m : Memory) (lo a : Nat) (b : Byte) (h : m.wfFrom lo = true) (hl : lo ≤ a)
    (ha : a < 2 ^ 32) : (m.write a b).wfFrom lo = true := by
  induction m generalizing lo with
  | nil => simpa [Memory.write, Memory.wfFrom] using ⟨hl, ha⟩
  | cons c rest ih =>
    simp only [Memory.wfFrom, Bool.and_eq_true, decide_eq_true_eq] at h
    simp only [Memory.write]
    split
    · next hc => simpa [Memory.wfFrom] using ⟨⟨hl, ha⟩, ⟨hc, h.1.2⟩, h.2⟩
    · split
      · simpa [Memory.wfFrom] using h
      · next h1 h2 => simpa [Memory.wfFrom] using ⟨⟨h.1.1, h.1.2⟩, ih (c.1 + 1) h.2 (by omega)⟩

/-- Writing a byte keeps the canonical form. -/
theorem Memory.wf_write (m : Memory) (a : Nat) (b : Byte) (h : m.wf = true) (ha : a < 2 ^ 32) :
    (m.write a b).wf = true := Memory.wfFrom_write m 0 a b h (Nat.zero_le a) ha

/-- Writing a word keeps the canonical form. -/
theorem Memory.wf_writeWord (m : Memory) (a v : Word) (h : m.wf = true) : (m.writeWord a v).wf = true :=
  Memory.wf_write _ _ _ (Memory.wf_write _ _ _ (Memory.wf_write _ _ _ (Memory.wf_write _ _ _ h a.isLt)
    (a + 1#32).isLt) (a + 2#32).isLt) (a + 3#32).isLt

/-- The four bytes of a word that was written (R123). -/
theorem read_writeWord (m : Memory) (a v : Word) :
    (m.writeWord a v).read a.toNat = some (fieldOf v 0 8) ∧
    (m.writeWord a v).read (a + 1#32).toNat = some (fieldOf v 8 8) ∧
    (m.writeWord a v).read (a + 2#32).toNat = some (fieldOf v 16 8) ∧
    (m.writeWord a v).read (a + 3#32).toNat = some (fieldOf v 24 8) := by
  have ne : ∀ (i j : Word), i ≠ j → (a + i).toNat ≠ (a + j).toNat := by
    intro i j h e
    exact h (add_left_cancel (BitVec.eq_of_toNat_eq e))
  have n01 := ne 0#32 1#32 (by decide)
  have n02 := ne 0#32 2#32 (by decide)
  have n03 := ne 0#32 3#32 (by decide)
  have n12 := ne 1#32 2#32 (by decide)
  have n13 := ne 1#32 3#32 (by decide)
  have n23 := ne 2#32 3#32 (by decide)
  rw [BitVec.add_zero] at n01 n02 n03
  unfold Memory.writeWord
  refine ⟨?_, ?_, ?_, ?_⟩
  · rw [Memory.read_write_ne _ _ _ _ n03, Memory.read_write_ne _ _ _ _ n02, Memory.read_write_ne _ _ _ _ n01, Memory.read_write_same]
  · rw [Memory.read_write_ne _ _ _ _ n13, Memory.read_write_ne _ _ _ _ n12, Memory.read_write_same]
  · rw [Memory.read_write_ne _ _ _ _ n23, Memory.read_write_same]
  · rw [Memory.read_write_same]

/-- Nothing is listed after reset, and that is the canonical form. -/
theorem reset_mem_wf : State.reset.mem.wf = true := rfl

/-- Every reset state whose memory has the form keeps it. -/
theorem powerOn_mem (ip : Bool) (held : State) : (State.powerOn ip held).mem = held.mem := rfl

/-- Placing an instruction keeps the canonical form. -/
theorem withFetchWord_mem_wf (s : State) (nbits w : Nat) (h : s.mem.wf = true) :
    (s.withFetchWord nbits w).mem.wf = true := Memory.wf_writeWord _ _ _ h

/-- The word at an address, from its four bytes (R121, R123). -/
theorem memRead_of_bytes {s : State} {a : Word} {b0 b1 b2 b3 : Byte} (h0 : s.readByte a = some b0)
    (h1 : s.readByte (a + 1#32) = some b1) (h2 : s.readByte (a + 2#32) = some b2)
    (h3 : s.readByte (a + 3#32) = some b3) : s.memRead a = some (wordOfBytes b0 b1 b2 b3) := by
  simp [State.memRead, h0, h1, h2, h3]

/-- A word one of whose bytes is not memory cannot be read (R121). -/
theorem memRead_none {s : State} {a : Word} (h : s.readByte a = none ∨ s.readByte (a + 1#32) = none ∨
    s.readByte (a + 2#32) = none ∨ s.readByte (a + 3#32) = none) : s.memRead a = none := by
  unfold State.memRead
  split
  · next h0 h1 h2 h3 => simp_all
  · rfl

/-- The value of a big-endian word (R123). -/
theorem wordOfBytes_toNat (b0 b1 b2 b3 : Byte) :
    (wordOfBytes b0 b1 b2 b3).toNat = b0.toNat * 2 ^ 24 + b1.toNat * 2 ^ 16 + b2.toNat * 2 ^ 8 + b3.toNat := by
  have h0 := b0.isLt
  have h1 := b1.isLt
  have h2 := b2.isLt
  have h3 := b3.isLt
  have h : (b0 ++ b1 ++ b2 ++ b3 : BitVec (8 + 8 + 8 + 8)).toNat =
      b0.toNat * 2 ^ 24 + b1.toNat * 2 ^ 16 + b2.toNat * 2 ^ 8 + b3.toNat := by
    simp only [BitVec.toNat_append, Nat.shiftLeft_eq]
    rw [← Nat.shiftLeft_eq, ← Nat.shiftLeft_eq, ← Nat.shiftLeft_eq]
    rw [← Nat.shiftLeft_add_eq_or_of_lt h1, ← Nat.shiftLeft_add_eq_or_of_lt h2, ← Nat.shiftLeft_add_eq_or_of_lt h3]
    simp only [Nat.shiftLeft_eq]
    omega
  exact h

end Sys2Proof.Machine
end

