-- ==== Sys2Proof/Laws/Step.lean ====
section
/-! SUPPORT. Everything one step can do: the turn of an agent, an asynchronous exception, or one fetched instruction. -/
namespace Sys2Proof.Machine

/-- Taking a turn off the schedule changes no exception that is pending. -/
@[simp] theorem popTurn_interruptTaken (s : State) (r : Recognition) : s.popTurn.interruptTaken r = s.interruptTaken r := by
  cases r <;> rfl

/-- A step whose turn is the processor's. -/
theorem step_processor {s : State} {r : Recognition} (h : s.nextTurn = .processor r) : step s = s.popTurn.processorTurn r := by
  simp [step, h, State.turn]

/-- A step that runs an instruction. -/
theorem step_runs {s : State} (h : s.instructionIsNext = true) (hd : s.fpExceptionDue = false) :
    step s = s.popTurn.runInstruction := by
  unfold State.instructionIsNext at h
  split at h
  · next r hr =>
    rw [step_processor hr, State.processorTurn, show s.popTurn.fpExceptionDue = false from hd, popTurn_interruptTaken]
    simp only [Option.isNone_iff_eq_none] at h
    simp [h]
  · cases h

/-- A step with a turn on the schedule. -/
theorem step_schedule {s : State} {x : Turn} {rest : List Turn} (h : s.schedule = x :: rest) :
    step s = s.popTurn.turn x ∧ s.popTurn.schedule = rest := by
  simp [step, State.nextTurn, State.popTurn, h]

/-- Everything a fetched instruction can do: the word at `pc` decodes, and `exec` answers. -/
theorem runInstruction_next_cases {s t : State} (h : s.runInstruction = .next t) :
    s.le = false ∧ s.traced = false ∧ ∃ w i, s.memRead s.pc = some w ∧ decodeWord w = .ok i ∧ exec i s = .next t := by
  unfold State.runInstruction at h
  split at h
  · cases h
  · next hle =>
    split at h
    · cases h
    · next htr =>
      split at h
      · cases h
      · next w hw =>
        split at h
        · cases h
        · next i hi => exact ⟨by simpa using hle, by simpa using htr, w, i, hw, hi, h⟩

/-- Everything the processor's turn can do (R362, R348). -/
theorem processorTurn_next_cases {s t : State} {r : Recognition} (h : s.processorTurn r = .next t) :
    s.fpExceptionDue = false ∧
      ((∃ e, s.interruptTaken r = some e ∧ s.take e s.pc = .next t) ∨
        (s.interruptTaken r = none ∧ s.runInstruction = .next t)) := by
  unfold State.processorTurn at h
  split at h
  · cases h
  · next hd =>
    refine ⟨by simpa using hd, ?_⟩
    split at h
    · next e he => exact .inl ⟨e, he, h⟩
    · next he => exact .inr ⟨he, h⟩

/-- Only the external interrupt and the decrementer exception are asynchronous (R360, R361). -/
theorem interruptTaken_kind {s : State} {r : Recognition} {e : ExceptionKind} (h : s.interruptTaken r = some e) :
    e = .externalInterrupt ∨ e = .decrementer := by
  cases r <;> simp only [State.interruptTaken] at h <;> repeat (split at h) <;> simp_all
  all_goals simp_all

/-- Everything a step can do. -/
theorem step_next_cases {s t : State} (h : step s = .next t) :
    t = s.popTurn.tickTimeBase ∨ t = s.popTurn.tickDecrementer ∨ (∃ level, t = s.popTurn.setExtIrq level) ∨
      ∃ r, s.nextTurn = .processor r ∧ s.popTurn.processorTurn r = .next t := by
  unfold step at h
  generalize hu : s.nextTurn = u at h
  cases u with
  | timeBase => cases h; exact .inl rfl
  | decrementer => cases h; exact .inr (.inl rfl)
  | externalRequest l => cases h; exact .inr (.inr (.inl ⟨l, rfl⟩))
  | processor r => exact .inr (.inr (.inr ⟨r, rfl, h⟩))

end Sys2Proof.Machine
end

