-- ==== Sys2Proof/Laws/Invariant.lean ====
section
/-! SUPPORT. What no step changes, and the small facts an invariant of the machine rests on: write masks and word-aligned
addresses. -/
namespace Sys2Proof.Machine

/-- What no instruction and no agent of this machine changes: memory (R140, R170), the FPRs, PVR and the registers the spec
does not describe. -/
def Kept (s t : State) : Prop := t.mem = s.mem ∧ t.fpr = s.fpr ∧ t.pvr = s.pvr ∧ t.units = s.units

theorem Kept.refl (s : State) : Kept s s := ⟨rfl, rfl, rfl, rfl⟩

/-- An FPSCR move changes none of them. -/
theorem floatingPoint_kept {f : State → State} {s t : State} (h : floatingPoint f s = .next t) (hf : Kept s (f s)) : Kept s t := by
  rcases floatingPoint_next_cases h with ⟨_, rfl, _⟩ | ⟨_, ht⟩
  · exact hf
  · obtain ⟨_, rfl⟩ := take_next_iff.mp ht
    exact Kept.refl s

/-- No instruction changes them. -/
theorem exec_kept {i : Instr} {s t : State} (h : exec i s = .next t) : Kept s t := by
  have tk : ∀ {e r}, s.take e r = .next t → Kept s t := by
    intro e r ht
    obtain ⟨_, rfl⟩ := take_next_iff.mp ht
    exact Kept.refl s
  cases i with
  | cmpli d l rA u => cases l <;> cases h; exact Kept.refl s
  | cmpi d l rA u => cases l <;> cases h; exact Kept.refl s
  | cmp d l rA u => cases l <;> cases h; exact Kept.refl s
  | cmpl d l rA u => cases l <;> cases h; exact Kept.refl s
  | mcrf d r => cases h; exact Kept.refl s
  | addi rD rA x => cases h; exact Kept.refl s
  | addicDot rD rA x => cases h; exact Kept.refl s
  | lwz rD rA x =>
    change execLwz rD rA x s = _ at h
    unfold execLwz at h
    simp only at h
    split at h
    · cases h
    · split at h
      · cases h
      · split at h
        · cases h; exact Kept.refl s
        · cases h
  | mfmsr rD =>
    change execMfmsr rD s = _ at h
    unfold execMfmsr at h
    split at h
    · exact tk h
    · cases h; exact Kept.refl s
  | mtmsr rS =>
    change execMtmsr rS s = _ at h
    unfold execMtmsr at h
    split at h
    · exact tk h
    · obtain ⟨_, rfl⟩ := finishChecked_next_iff.mp h
      exact Kept.refl s
  | sc => exact tk h
  | rfi =>
    change execRfi s = _ at h
    unfold execRfi at h
    split at h
    · exact tk h
    · obtain ⟨_, rfl⟩ := finishChecked_next_iff.mp h
      exact Kept.refl s
  | mfspr rD n =>
    obtain ⟨r, hr, ⟨_, _, ht⟩ | ⟨_, ⟨_, ht⟩ | ⟨v, _, rfl⟩⟩⟩ := execMfspr_next_cases h
    · exact tk ht
    · exact tk ht
    · exact Kept.refl s
  | mtspr n rS =>
    obtain ⟨r, hr, ⟨_, _, ht⟩ | ⟨_, u, hu, rfl, _⟩⟩ := execMtspr_next_cases h
    · exact tk ht
    · cases r <;> simp only [State.sprWritten, Option.some.injEq, reduceCtorEq] at hu <;> subst hu <;> exact Kept.refl s
  | mftb rD n =>
    change execMftb rD n s = _ at h
    unfold execMftb at h
    split at h <;> cases h <;> exact Kept.refl s
  | b li aa lk => cases h; exact Kept.refl s
  | bc bo bi bd aa lk => cases h; exact Kept.refl s
  | bclr bo bi lk => cases h; exact Kept.refl s
  | bcctr bo bi lk =>
    change execBcctr bo bi lk s = _ at h
    unfold execBcctr at h
    split at h
    · cases h
    · cases h; exact Kept.refl s
  | andiDot rA rS u => cases h; exact Kept.refl s
  | andisDot rA rS u => cases h; exact Kept.refl s
  | subfc rD rA rB oe rc => cases h; cases oe <;> cases rc <;> exact Kept.refl s
  | mtcrf crm rS => cases h; exact Kept.refl s
  | mcrxr d => cases h; exact Kept.refl s
  | mcrfs d r =>
    change execMcrfs d r s = _ at h
    unfold execMcrfs at h
    exact floatingPoint_kept h (Kept.refl s)
  | mtfsfi d x rc =>
    change execMtfsfi d x rc s = _ at h
    unfold execMtfsfi at h
    refine floatingPoint_kept h ?_
    cases rc <;> exact Kept.refl s
  | mtfsf d x rc =>
    change execMtfsf d x rc s = _ at h
    unfold execMtfsf at h
    refine floatingPoint_kept h ?_
    cases rc <;> exact Kept.refl s
  | mtfsb0 d rc =>
    change execMtfsb0 d rc s = _ at h
    unfold execMtfsb0 at h
    refine floatingPoint_kept h ?_
    cases rc <;> exact Kept.refl s
  | mtfsb1 d rc =>
    change execMtfsb1 d rc s = _ at h
    unfold execMtfsb1 at h
    refine floatingPoint_kept h ?_
    cases rc <;> exact Kept.refl s

/-- No step changes them: in particular every step keeps the canonical form of memory. -/
theorem step_kept {s t : State} (h : step s = .next t) : Kept s t := by
  rcases step_next_cases h with rfl | rfl | ⟨l, rfl⟩ | ⟨r, _, h⟩
  · exact Kept.refl s
  · exact Kept.refl s
  · exact Kept.refl s
  · obtain ⟨_, ⟨e, _, ht⟩ | ⟨_, hr⟩⟩ := processorTurn_next_cases h
    · obtain ⟨_, rfl⟩ := take_next_iff.mp ht; exact Kept.refl s
    · obtain ⟨_, _, w, i, _, _, he⟩ := runInstruction_next_cases hr
      exact exec_kept (s := s.popTurn) he

/-- Word-aligned addresses add up to one. -/
theorem aligned_add {p v : Word} (hp : p &&& 3#32 = 0#32) (hv : v &&& 3#32 = 0#32) : (p + v) &&& 3#32 = 0#32 := by
  have e : ∀ x : Word, x &&& 3#32 = 0#32 ↔ x.toNat % 4 = 0 := by
    intro x
    have := aligned_iff x
    rw [Bool.eq_iff_iff] at this
    simp only [bne_iff_ne, ne_eq, decide_eq_true_eq, not_iff_not] at this
    exact this
  rw [e] at *
  rw [BitVec.toNat_add]
  omega

/-- A write of the XER leaves no reserved bit (R50). -/
theorem xer_masked (v : Word) : v &&& 0xE000FF7F#32 &&& 0x1FFF0080#32 = 0#32 := by rw [BitVec.and_assoc]; simp

/-- A write of the MSR leaves no reserved bit (R66). -/
theorem msr_masked (v : Word) : v &&& 0x0001FF43#32 &&& 0xFFFE00BC#32 = 0#32 := by rw [BitVec.and_assoc]; simp

/-- A write of the FPSCR leaves no bit that holds nothing (R184). -/
theorem fpscr_masked (v : Word) : v &&& 0x9FFFF7FF#32 &&& 0x60000800#32 = 0#32 := by rw [BitVec.and_assoc]; simp

/-- A register used as an instruction address is word-aligned (R124). -/
theorem instructionAddress_aligned (v : Word) : instructionAddress v &&& 3#32 = 0#32 := by rw [instructionAddress, BitVec.and_assoc]; simp

/-- The displacement of `b` is a multiple of 4 (R154). -/
theorem displacement24_aligned (x : BitVec 24) : displacement24 x &&& 3#32 = 0#32 := by
  apply BitVec.eq_of_getLsbD_eq
  intro i hi
  have h : ∀ k, (x ++ 0#2 : BitVec (24+2)).getLsbD k = if k < 2 then false else x.getLsbD (k-2) := by
    intro k; rw [BitVec.getLsbD_append]; split <;> simp
  rw [BitVec.getLsbD_and, displacement24, BitVec.getLsbD_signExtend]
  by_cases h2 : i < 2
  · rw [show (x ++ 0#2 : BitVec 26).getLsbD i = false from (h i).trans (if_pos h2)]
    simp [show i < 26 by omega]
  · have : (3#32).getLsbD i = false := by
      interval_cases i <;> rfl
    simp [this]

/-- The displacement of `bc` is a multiple of 4 (R154). -/
theorem displacement14_aligned (x : BitVec 14) : displacement14 x &&& 3#32 = 0#32 := by
  apply BitVec.eq_of_getLsbD_eq
  intro i hi
  have h : ∀ k, (x ++ 0#2 : BitVec (14+2)).getLsbD k = if k < 2 then false else x.getLsbD (k-2) := by
    intro k; rw [BitVec.getLsbD_append]; split <;> simp
  rw [BitVec.getLsbD_and, displacement14, BitVec.getLsbD_signExtend]
  by_cases h2 : i < 2
  · rw [show (x ++ 0#2 : BitVec 16).getLsbD i = false from (h i).trans (if_pos h2)]
    simp [show i < 16 by omega]
  · have : (3#32).getLsbD i = false := by
      interval_cases i <;> rfl
    simp [this]

end Sys2Proof.Machine
end

