-- ==== Sys2Proof/Laws/PerInstr.lean ====
section
/-! SUPPORT. Per instruction: the encoder's word is a word of the instruction's own row of the opcode map. -/
namespace Sys2Proof.Laws.EncodeMatchesRow

set_option Elab.async false

/-- The row of the opcode map that stands for an instruction (R160). -/
def rowNumber : Instr → Nat
  | .cmpli _ _ _ _ => 0
  | .cmpi _ _ _ _ => 1
  | .addicDot _ _ _ => 2
  | .addi _ _ _ => 3
  | .bc _ _ _ _ _ => 4
  | .sc => 5
  | .b _ _ _ => 6
  | .mcrf _ _ => 7
  | .bclr _ _ _ => 8
  | .rfi => 9
  | .bcctr _ _ _ => 10
  | .andiDot _ _ _ => 11
  | .andisDot _ _ _ => 12
  | .cmp _ _ _ _ => 13
  | .subfc _ _ _ _ _ => 14
  | .cmpl _ _ _ _ => 15
  | .mfmsr _ => 16
  | .mtcrf _ _ => 17
  | .mtmsr _ => 18
  | .mfspr _ _ => 19
  | .mftb _ _ => 20
  | .mtspr _ _ => 21
  | .mcrxr _ => 22
  | .lwz _ _ _ => 23
  | .mtfsb1 _ _ => 24
  | .mcrfs _ _ => 25
  | .mtfsb0 _ _ => 26
  | .mtfsfi _ _ _ => 27
  | .mtfsf _ _ _ => 28

/-- The encoded word of a well-formed instruction matches the pattern of its own row under its mask (R160): the formats of
R152 and the opcode map agree on every bit the map fixes. -/
def Statement (i : Instr) : Prop :=
  i.wellFormed = true → ∃ r, opcodeRows[rowNumber i]? = some r ∧ encode i &&& r.mask = r.pattern

theorem cmpli (d : FieldNum) (l : Bool) (a : Five) (x : BitVec 16) : Statement (.cmpli d l a x) := by
  intro h
  have h : l = false := by simpa [Instr.wellFormed] using h
  subst h
  refine ⟨_, rfl, ?_⟩
  simp (disch := decide) only [encode, formDCompare, placeBit, BitVec.and_or_distrib_right, place_and_eq_zero]
  decide

theorem cmpi (d : FieldNum) (l : Bool) (a : Five) (x : BitVec 16) : Statement (.cmpi d l a x) := by
  intro h
  have h : l = false := by simpa [Instr.wellFormed] using h
  subst h
  refine ⟨_, rfl, ?_⟩
  simp (disch := decide) only [encode, formDCompare, placeBit, BitVec.and_or_distrib_right, place_and_eq_zero]
  decide

theorem addicDot (d a : Five) (x : BitVec 16) : Statement (.addicDot d a x) := by
  intro _
  refine ⟨_, rfl, ?_⟩
  simp (disch := decide) only [encode, formD, BitVec.and_or_distrib_right, place_and_eq_zero]
  decide

theorem addi (d a : Five) (x : BitVec 16) : Statement (.addi d a x) := by
  intro _
  refine ⟨_, rfl, ?_⟩
  simp (disch := decide) only [encode, formD, BitVec.and_or_distrib_right, place_and_eq_zero]
  decide

theorem bc (o c : Five) (x : BitVec 14) (p q : Bool) : Statement (.bc o c x p q) := by
  intro _
  refine ⟨_, rfl, ?_⟩
  simp (disch := decide) only [encode, placeBit, BitVec.and_or_distrib_right, place_and_eq_zero]
  decide

theorem sc : Statement (.sc) := by
  intro _
  refine ⟨_, rfl, ?_⟩
  decide

theorem b (x : BitVec 24) (p q : Bool) : Statement (.b x p q) := by
  intro _
  refine ⟨_, rfl, ?_⟩
  simp (disch := decide) only [encode, placeBit, BitVec.and_or_distrib_right, place_and_eq_zero]
  decide

theorem mcrf (d e : FieldNum) : Statement (.mcrf d e) := by
  intro _
  refine ⟨_, rfl, ?_⟩
  simp (disch := decide) only [encode, formXFields, placeBit, BitVec.and_or_distrib_right, place_and_eq_zero]
  decide

theorem bclr (o c : Five) (q : Bool) : Statement (.bclr o c q) := by
  intro _
  refine ⟨_, rfl, ?_⟩
  simp (disch := decide) only [encode, formX, placeBit, BitVec.and_or_distrib_right, place_and_eq_zero]
  decide

theorem rfi : Statement (.rfi) := by
  intro _
  refine ⟨_, rfl, ?_⟩
  decide

theorem bcctr (o c : Five) (q : Bool) : Statement (.bcctr o c q) := by
  intro _
  refine ⟨_, rfl, ?_⟩
  simp (disch := decide) only [encode, formX, placeBit, BitVec.and_or_distrib_right, place_and_eq_zero]
  decide

theorem andiDot (a d : Five) (x : BitVec 16) : Statement (.andiDot a d x) := by
  intro _
  refine ⟨_, rfl, ?_⟩
  simp (disch := decide) only [encode, formD, BitVec.and_or_distrib_right, place_and_eq_zero]
  decide

theorem andisDot (a d : Five) (x : BitVec 16) : Statement (.andisDot a d x) := by
  intro _
  refine ⟨_, rfl, ?_⟩
  simp (disch := decide) only [encode, formD, BitVec.and_or_distrib_right, place_and_eq_zero]
  decide

theorem cmp (d : FieldNum) (l : Bool) (a c : Five) : Statement (.cmp d l a c) := by
  intro h
  have h : l = false := by simpa [Instr.wellFormed] using h
  subst h
  refine ⟨_, rfl, ?_⟩
  simp (disch := decide) only [encode, formXCompare, placeBit, BitVec.and_or_distrib_right, place_and_eq_zero]
  decide

theorem subfc (d a c : Five) (p q : Bool) : Statement (.subfc d a c p q) := by
  intro _
  refine ⟨_, rfl, ?_⟩
  simp (disch := decide) only [encode, placeBit, BitVec.and_or_distrib_right, place_and_eq_zero]
  decide

theorem cmpl (d : FieldNum) (l : Bool) (a c : Five) : Statement (.cmpl d l a c) := by
  intro h
  have h : l = false := by simpa [Instr.wellFormed] using h
  subst h
  refine ⟨_, rfl, ?_⟩
  simp (disch := decide) only [encode, formXCompare, placeBit, BitVec.and_or_distrib_right, place_and_eq_zero]
  decide

theorem mfmsr (d : Five) : Statement (.mfmsr d) := by
  intro _
  refine ⟨_, rfl, ?_⟩
  simp (disch := decide) only [encode, formX, placeBit, BitVec.and_or_distrib_right, place_and_eq_zero]
  decide

theorem mtcrf (x : BitVec 8) (d : Five) : Statement (.mtcrf x d) := by
  intro _
  refine ⟨_, rfl, ?_⟩
  simp (disch := decide) only [encode, BitVec.and_or_distrib_right, place_and_eq_zero]
  decide

theorem mtmsr (d : Five) : Statement (.mtmsr d) := by
  intro _
  refine ⟨_, rfl, ?_⟩
  simp (disch := decide) only [encode, formX, placeBit, BitVec.and_or_distrib_right, place_and_eq_zero]
  decide

theorem mfspr (d : Five) (n : BitVec 10) : Statement (.mfspr d n) := by
  intro _
  refine ⟨_, rfl, ?_⟩
  simp (disch := decide) only [encode, formX, placeBit, BitVec.and_or_distrib_right, place_and_eq_zero]
  decide

theorem mftb (d : Five) (n : BitVec 10) : Statement (.mftb d n) := by
  intro _
  refine ⟨_, rfl, ?_⟩
  simp (disch := decide) only [encode, formX, placeBit, BitVec.and_or_distrib_right, place_and_eq_zero]
  decide

theorem mtspr (n : BitVec 10) (d : Five) : Statement (.mtspr n d) := by
  intro _
  refine ⟨_, rfl, ?_⟩
  simp (disch := decide) only [encode, formX, placeBit, BitVec.and_or_distrib_right, place_and_eq_zero]
  decide

theorem mcrxr (d : FieldNum) : Statement (.mcrxr d) := by
  intro _
  refine ⟨_, rfl, ?_⟩
  simp (disch := decide) only [encode, formXFields, placeBit, BitVec.and_or_distrib_right, place_and_eq_zero]
  decide

theorem lwz (d a : Five) (x : BitVec 16) : Statement (.lwz d a x) := by
  intro _
  refine ⟨_, rfl, ?_⟩
  simp (disch := decide) only [encode, formD, BitVec.and_or_distrib_right, place_and_eq_zero]
  decide

theorem mtfsb1 (d : Five) (q : Bool) : Statement (.mtfsb1 d q) := by
  intro _
  refine ⟨_, rfl, ?_⟩
  simp (disch := decide) only [encode, formX, placeBit, BitVec.and_or_distrib_right, place_and_eq_zero]
  decide

theorem mcrfs (d e : FieldNum) : Statement (.mcrfs d e) := by
  intro _
  refine ⟨_, rfl, ?_⟩
  simp (disch := decide) only [encode, formXFields, placeBit, BitVec.and_or_distrib_right, place_and_eq_zero]
  decide

theorem mtfsb0 (d : Five) (q : Bool) : Statement (.mtfsb0 d q) := by
  intro _
  refine ⟨_, rfl, ?_⟩
  simp (disch := decide) only [encode, formX, placeBit, BitVec.and_or_distrib_right, place_and_eq_zero]
  decide

theorem mtfsfi (d : FieldNum) (x : BitVec 4) (q : Bool) : Statement (.mtfsfi d x q) := by
  intro _
  refine ⟨_, rfl, ?_⟩
  simp (disch := decide) only [encode, placeBit, BitVec.and_or_distrib_right, place_and_eq_zero]
  decide

theorem mtfsf (x : BitVec 8) (d : Five) (q : Bool) : Statement (.mtfsf x d q) := by
  intro _
  refine ⟨_, rfl, ?_⟩
  simp (disch := decide) only [encode, placeBit, BitVec.and_or_distrib_right, place_and_eq_zero]
  decide

end Sys2Proof.Laws.EncodeMatchesRow
end

