-- ==== Sys2Proof/Tests/Slice0.lean ====
section
/-! SUPPORT. Smoke tests of WellFormed, decoding of words written out in 95_test_vectors.md (group 30), one or two small steps
per instruction with the results of 95_test_vectors.md (groups 40 to 60), and a witness for the hypotheses of every
statement that has some. -/
namespace Sys2Proof.Tests
open Sys2Proof.Machine

set_option Elab.async false
set_option maxRecDepth 4000

/-! ## WellFormed: an ill-formed term for each check -/

theorem test_wellFormed_cmpli : (Instr.cmpli 0 true 0 0).wellFormed = false := by decide
theorem test_wellFormed_cmpi : (Instr.cmpi 0 true 0 0).wellFormed = false := by decide
theorem test_wellFormed_cmp : (Instr.cmp 0 true 0 0).wellFormed = false := by decide
theorem test_wellFormed_cmpl : (Instr.cmpl 0 true 0 0).wellFormed = false := by decide

/-! ## Decoding (95_test_vectors.md, group 30). Every constructor has a word; the bits are written out from the formats of
R152: OPCD, then the fields in order. -/

/-- `w` decodes to `i`, through the host's own question too. -/
def DecodesTo (w : Word) (i : Instr) : Prop := decodeWord w = .ok i ∧ decodeTableWord 32 w.toNat = some i

theorem test_decode_compares :
    DecodesTo 0b00101001000001001111111111111111#32 (.cmpli 2 false 4 0xFFFF) ∧
    DecodesTo 0b00101111100001001111111111111111#32 (.cmpi 7 false 4 0xFFFF) ∧
    DecodesTo 0b01111100000001010001100000000000#32 (.cmp 0 false 5 3) ∧
    DecodesTo 0b01111100000001010001100001000000#32 (.cmpl 0 false 5 3) := by
  unfold DecodesTo
  decide

theorem test_decode_arithmetic :
    DecodesTo 0b00110100011001000000000000000001#32 (.addicDot 3 4 1) ∧
    DecodesTo 0b00111000011000110000000000000001#32 (.addi 3 3 1) ∧
    DecodesTo 0b01111100011001000010100000010000#32 (.subfc 3 4 5 false false) ∧
    DecodesTo 0b01111100011001000010110000010001#32 (.subfc 3 4 5 true true) ∧
    DecodesTo 0b01110000100000110000000011111111#32 (.andiDot 3 4 0xFF) ∧
    DecodesTo 0b01110100100000111000000000000000#32 (.andisDot 3 4 0x8000) := by
  unfold DecodesTo
  decide

theorem test_decode_branches :
    DecodesTo 0b01000000100000101111111111110000#32 (.bc 4 2 0x3FFC false false) ∧
    DecodesTo 0b01001000000000000000000000010001#32 (.b 4 false true) ∧
    DecodesTo 0b01001110100000000000000000100000#32 (.bclr 20 0 false) ∧
    DecodesTo 0b01001110100000000000010000100000#32 (.bcctr 20 0 false) := by
  unfold DecodesTo
  decide

theorem test_decode_system :
    DecodesTo 0b01000100000000000000000000000010#32 .sc ∧
    DecodesTo 0b01001100000000000000000001100100#32 .rfi ∧
    DecodesTo 0b01111100011000000000000010100110#32 (.mfmsr 3) ∧
    DecodesTo 0b01111100011000000000000100100100#32 (.mtmsr 3) := by
  unfold DecodesTo
  decide

theorem test_decode_condition_register :
    DecodesTo 0b01001100000111000000000000000000#32 (.mcrf 0 7) ∧
    DecodesTo 0b01111100011010000001000100100000#32 (.mtcrf 0x81 3) ∧
    DecodesTo 0b01111100100000000000010000000000#32 (.mcrxr 1) := by
  unfold DecodesTo
  decide

theorem test_decode_special_registers :
    DecodesTo 0b01111100011010000000001010100110#32 (.mfspr 3 8) ∧
    DecodesTo 0b01111100011100001000101010100110#32 (.mfspr 3 560) ∧
    DecodesTo 0b01111100011011000100001011100110#32 (.mftb 3 268) ∧
    DecodesTo 0b01111100011100000100001110100110#32 (.mtspr 272 3) := by
  unfold DecodesTo
  decide

theorem test_decode_load :
    DecodesTo 0b10000000011001000000000000000000#32 (.lwz 3 4 0) := by
  unfold DecodesTo
  decide

theorem test_decode_fpscr :
    DecodesTo 0b11111110101000000000000001001100#32 (.mtfsb1 21 false) ∧
    DecodesTo 0b11111101000000000000000010000000#32 (.mcrfs 2 0) ∧
    DecodesTo 0b11111100111000000000000010001100#32 (.mtfsb0 7 false) ∧
    DecodesTo 0b11111111100000000001000100001100#32 (.mtfsfi 7 1 false) ∧
    DecodesTo 0b11111101111111100000110110001110#32 (.mtfsf 0xFF 1 false) ∧
    DecodesTo 0b11111100000000100001010110001111#32 (.mtfsf 1 2 true) := by
  unfold DecodesTo
  decide

/-! The words of group 30 that match no row are rejected under their own name (R171). -/

theorem test_rejects_word_00000000 : decodeWord 0x00000000#32 = .error (.noRow 0x00000000#32) := by decide
theorem test_rejects_word_60000000 : decodeWord 0x60000000#32 = .error (.noRow 0x60000000#32) := by decide
theorem test_rejects_word_7C0004AC : decodeWord 0x7C0004AC#32 = .error (.noRow 0x7C0004AC#32) := by decide
theorem test_rejects_word_7C251800 : decodeWord 0x7C251800#32 = .error (.noRow 0x7C251800#32) := by decide
theorem test_rejects_word_2C240000 : decodeWord 0x2C240000#32 = .error (.noRow 0x2C240000#32) := by decide
theorem test_rejects_word_7C6802A7 : decodeWord 0x7C6802A7#32 = .error (.noRow 0x7C6802A7#32) := by decide
theorem test_rejects_word_7C6100A6 : decodeWord 0x7C6100A6#32 = .error (.noRow 0x7C6100A6#32) := by decide
theorem test_rejects_word_44000000 : decodeWord 0x44000000#32 = .error (.noRow 0x44000000#32) := by decide
theorem test_rejects_word_4C000065 : decodeWord 0x4C000065#32 = .error (.noRow 0x4C000065#32) := by decide

theorem test_decode_truncated : decode [0x38, 0x60, 0x00] = .error .truncated := by decide

/-! ## One step per theorem -/

/-- A small state: everything zero, `pc` at 0x1000. -/
def base : State := { State.zeroed with pc := 0x1000#32 }

/-- `base` with some general registers. -/
def withGprs (l : List (Five × Word)) : State := l.foldl (fun s r => s.setGpr r.1 r.2) base

/-- `base` with MSR[FP] = 1 and an FPSCR. -/
def withFpscr (v : Word) : State := { base with msr := 0x2000#32, fpscr := v &&& 0x9FFFF7FF#32 }

/-- What the very next step leaves when it runs the word `w`, seen through `f`. -/
def after {α : Type} (w : Word) (s : State) (f : State → α) : Option α :=
  match step (s.withFetchWord 32 w.toNat) with
  | .next t => some (f t)
  | _ => none

/-- The refusal with which the very next step meets the word `w`. -/
def refusalOf (w : Word) (s : State) : Option Refusal :=
  match step (s.withFetchWord 32 w.toNat) with
  | .refused r => some r
  | _ => none

theorem test_addi_zero_base : after 0x38600001#32 (withGprs [(0, 0x100#32)]) (fun t => t.gprAt 3) = some 1#32 := by decide
theorem test_addi_negative_immediate : after 0x38048000#32 (withGprs [(4, 0x8000#32)]) (fun t => t.gprAt 0) = some 0#32 := by decide
theorem test_addicDot_no_overflow : after 0x34640001#32 (withGprs [(4, 0x7FFFFFFF#32)]) (fun t => (t.gprAt 3, t.xer, t.cr)) = some (0x80000000#32, 0#32, 0x80000000#32) := by decide
theorem test_addicDot_names_gpr0 : after 0x34600001#32 (withGprs [(0, 0x10#32)]) (fun t => (t.gprAt 3, t.cr)) = some (0x11#32, 0x40000000#32) := by decide
theorem test_subfc_overflow : after 0x7C642C11#32 (withGprs [(4, 0x80000000#32), (5, 0x7FFFFFFF#32)]) (fun t => (t.gprAt 3, t.xer, t.cr)) = some (0xFFFFFFFF#32, 0xC0000000#32, 0x90000000#32) := by decide
theorem test_subfc_so_stays : after 0x7C642C10#32 { (withGprs [(4, 1#32), (5, 2#32)]) with xer := 0xC0000000#32 } (fun t => (t.gprAt 3, t.xer)) = some (1#32, 0xA0000000#32) := by decide
theorem test_andiDot_zero_extends : after 0x7083FFFF#32 (withGprs [(4, 0xFFFFFFFF#32)]) (fun t => (t.gprAt 3, t.cr)) = some (0xFFFF#32, 0x40000000#32) := by decide
theorem test_andisDot_negative : after 0x74838000#32 { (withGprs [(4, 0x92345678#32)]) with xer := 0x80000000#32 } (fun t => (t.gprAt 3, t.cr)) = some (0x80000000#32, 0x90000000#32) := by decide
theorem test_cmp_most_negative : after 0x7D851800#32 (withGprs [(5, 0x80000000#32), (3, 0x7FFFFFFF#32)]) (fun t => t.cr) = some 0x00080000#32 := by decide
theorem test_cmpl_most_negative : after 0x7D851840#32 (withGprs [(5, 0x80000000#32), (3, 0x7FFFFFFF#32)]) (fun t => t.cr) = some 0x00040000#32 := by decide
theorem test_cmpi_sign_extends : after 0x2C04FFFF#32 (withGprs [(4, 0xFFFFFFFF#32)]) (fun t => t.cr) = some 0x20000000#32 := by decide
theorem test_cmpli_zero_extends : after 0x2804FFFF#32 (withGprs [(4, 0xFFFFFFFF#32)]) (fun t => t.cr) = some 0x40000000#32 := by decide
theorem test_lwz_negative_displacement : after 0x8084FFF8#32 { (withGprs [(4, 0x1008#32)]) with pc := 0x2000#32, mem := Memory.writeWord [] 0x1000#32 0x12345678#32 } (fun t => t.gprAt 4) = some 0x12345678#32 := by decide
theorem test_mcrf : after 0x4C1C0000#32 { base with cr := 0x12345678#32 } (fun t => t.cr) = some 0x82345678#32 := by decide
theorem test_mtcrf : after 0x7C681120#32 (withGprs [(3, 0xABCDEF01#32)]) (fun t => t.cr) = some 0xA0000001#32 := by decide
theorem test_mcrxr : after 0x7C000400#32 { base with xer := 0xE000007F#32, cr := 0xFFFFFFFF#32 } (fun t => (t.cr, t.xer)) = some (0xEFFFFFFF#32, 0x7F#32) := by decide
theorem test_mcrfs_fex_follows : after 0xFD000080#32 (withFpscr 0xA1000000#32) (fun t => (t.fpscrRead, t.cr)) = some (0x21000000#32, 0x00A00000#32) := by decide
theorem test_mcrfs_keeps_nonsticky : after 0xFF8C0080#32 (withFpscr 0x000FF000#32) (fun t => (t.fpscrRead, t.cr)) = some (0x0007F000#32, 0xF#32) := by decide
theorem test_mtfsfi_record : after 0xFC00910D#32 (withFpscr 0#32) (fun t => (t.fpscrRead, t.cr)) = some (0x90000000#32, 0x09000000#32) := by decide
theorem test_mtfsfi_explicit_fx : after 0xFC00110C#32 (withFpscr 0#32) (fun t => t.fpscrRead) = some 0x10000000#32 := by decide
theorem test_mtfsf_all_ones : after 0xFDFE0D8E#32 { withFpscr 0#32 with fpr := (Vector.replicate 32 0#64).set 1 0xFFFFFFFFFFFFFFFF#64 } (fun t => t.fpscrRead) = some 0xFFFFF7FF#32 := by decide
theorem test_mtfsf_record : after 0xFC02158F#32 { withFpscr 0xE1000080#32 with fpr := (Vector.replicate 32 0#64).set 2 3#64 } (fun t => (t.fpscrRead, t.cr)) = some (0xE1000083#32, 0x0E000000#32) := by decide
theorem test_mtfsb0_vx_follows : after 0xFCE0008C#32 (withFpscr 0xA1000000#32) (fun t => t.fpscrRead) = some 0x80000000#32 := by decide
theorem test_mtfsb0_record : after 0xFF00008D#32 (withFpscr 0xE1000080#32) (fun t => (t.fpscrRead, t.cr)) = some (0xA1000000#32, 0x0A000000#32) := by decide
theorem test_mtfsb1_sets_fx : after 0xFEA0004C#32 (withFpscr 0x80#32) (fun t => t.fpscrRead) = some 0xE0000480#32 := by decide
theorem test_mtfsb1_already_set : after 0xFEA0004C#32 (withFpscr 0x60000480#32) (fun t => t.fpscrRead) = some 0x60000480#32 := by decide
theorem test_b_sign_extends : after 0x4BFFFF03#32 base (fun t => (t.pc, t.lr)) = some (0xFFFFFF00#32, 0x1004#32) := by decide
theorem test_b_wraps : after 0x48000010#32 { base with pc := 0xFFFFFFF8#32 } (fun t => t.pc) = some 8#32 := by decide
theorem test_bc_count_wraps : after 0x4200FFF8#32 { base with pc := 0x110#32 } (fun t => (t.pc, t.ctr)) = some (0x108#32, 0xFFFFFFFF#32) := by decide
theorem test_bc_links_untaken : after 0x40820009#32 { base with pc := 0x110#32, cr := 0x20000000#32 } (fun t => (t.pc, t.lr)) = some (0x114#32, 0x114#32) := by decide
theorem test_bclr_old_target : after 0x4E800021#32 { base with pc := 0x110#32, lr := 0x2003#32 } (fun t => (t.pc, t.lr)) = some (0x2000#32, 0x114#32) := by decide
theorem test_bclr_counts : after 0x4E000020#32 { base with ctr := 3#32, lr := 0x2000#32 } (fun t => (t.pc, t.ctr)) = some (0x2000#32, 2#32) := by decide
theorem test_bcctr : after 0x4E800420#32 { base with ctr := 0x3002#32 } (fun t => (t.pc, t.ctr)) = some (0x3000#32, 0x3002#32) := by decide
theorem test_bcctr_not_taken : after 0x4C820420#32 { base with cr := 0x20000000#32, ctr := 0x3000#32 } (fun t => t.pc) = some 0x1004#32 := by decide
theorem test_mtspr_xer_masked : after 0x7C6103A6#32 (withGprs [(3, 0xFFFFFFFF#32)]) (fun t => t.xer) = some 0xE000FF7F#32 := by decide
theorem test_mtspr_dec_signals : after 0x7C7603A6#32 { (withGprs [(3, 0x80000000#32)]) with dec := 5#32 } (fun t => (t.dec, t.decReq)) = some (0x80000000#32, true) := by decide
theorem test_mfspr_pvr : after 0x7C7F42A6#32 { base with pvr := 0x00020020#32 } (fun t => t.gprAt 3) = some 0x00020020#32 := by decide
theorem test_mfspr_user_level : after 0x7C7342A6#32 { base with msr := 0xD042#32 } (fun t => (t.pc, t.msr, t.srr0)) = some (0xFFF00700#32, 0x1040#32, 0x1000#32) := by decide
theorem test_mftb_lower : after 0x7C6C42E6#32 { base with tb := 0x0000000100000002#64 } (fun t => t.gprAt 3) = some 2#32 := by decide
theorem test_mftb_upper : after 0x7C6D42E6#32 { base with tb := 0x0000000100000002#64, msr := 0x4000#32 } (fun t => t.gprAt 3) = some 1#32 := by decide
theorem test_mfmsr : after 0x7C6000A6#32 { base with msr := 0x9002#32 } (fun t => t.gprAt 3) = some 0x9002#32 := by decide
theorem test_mtmsr_masked : after 0x7C600124#32 (withGprs [(3, 0xFFFFF0FE#32)]) (fun t => t.msr) = some 0x1F042#32 := by decide
theorem test_mtmsr_user_level : after 0x7C600124#32 { base with msr := 0x4000#32 } (fun t => (t.pc, t.msr, t.srr1Msr)) = some (0x700#32, 0#32, 0x4000#16) := by decide
theorem test_sc : after 0x44000002#32 { base with msr := 0xD042#32 } (fun t => (t.pc, t.msr, t.srr0, t.srr1Msr)) = some (0xFFF00C00#32, 0x1040#32, 0x1004#32, 0xD042#16) := by decide
theorem test_rfi : after 0x4C000064#32 { base with msr := 0x1000#32, srr0 := 0x2007#32, srr1Msr := 0xD0FE#16 } (fun t => (t.pc, t.msr)) = some (0x2004#32, 0xD042#32) := by decide

/-- The decrementer agent (95_test_vectors.md, group 60). -/
theorem test_decrementer :
    (([1, 0, 0x80000000] : List Word).map fun d =>
        let t := State.tickDecrementer { base with dec := d }
        (t.dec, t.decReq)) = [(0, false), (0xFFFFFFFF, true), (0x7FFFFFFF, false)] := by decide

/-- The time-base agent carries into TBU (95_test_vectors.md, group 60). -/
theorem test_timeBase :
    (State.tickTimeBase { base with tb := 0x00000000FFFFFFFF#64 }).tb = 0x0000000100000000#64 ∧
    (State.tickTimeBase { base with tb := 0xFFFFFFFFFFFFFFFF#64 }).tb = 0#64 := by decide

/-- Forms that are refused (groups 40, 43 and 44). -/
theorem test_refused_forms :
    refusalOf 0xFEA0004C#32 { base with msr := 0x2800#32, fpscr := 0x80#32 } = some .fpEnabledException ∧
    refusalOf 0x4E000420#32 base = some .bcctrWithDecrement ∧
    refusalOf 0x7C7F43A6#32 base = some .readOnlyPvr ∧
    refusalOf 0x7C7C42A6#32 base = some (.unlistedSpr 284) ∧
    refusalOf 0x7C708AA6#32 base = some (.undescribedRegister .iccst) ∧
    refusalOf 0x44000002#32 { base with msr := 0x10000#32 } = some .littleEndianEntry ∧
    refusalOf 0x80640000#32 (withGprs [(4, 0x1001)]) = some (.misalignedAccess 0x1001) := by decide

/-! ## Witnesses: a state and operands that meet all the hypotheses of a statement, for each of its clauses -/

/-- The meaning of an instruction answers a next state that `p` accepts. -/
def execNext (i : Instr) (s : State) (p : State → Bool) : Bool :=
  match exec i s with
  | .next t => p t
  | _ => false

/-- A step answers a next state that `p` accepts. -/
def stepNext (s : State) (p : State → Bool) : Bool :=
  match step s with
  | .next t => p t
  | _ => false

/-- `base` with a word of memory at its `pc`. -/
def placed (w : Word) : State := { base with mem := Memory.writeWord [] 0x1000#32 w }

/-- User level. -/
def user : State := { base with msr := 0x4000#32 }

theorem witness_DecodeInvertsEncode : (Instr.cmp 7 false 31 31).wellFormed = true ∧ Instr.sc.wellFormed = true := by decide

theorem witness_EncodeInvertsDecode : decodeWord 0xFFFFFFFF#32 = .error (.noRow 0xFFFFFFFF#32) ∧
    decodeWord 0x7FFFFC11#32 = .ok (.subfc 31 31 31 true true) := by decide

theorem witness_NoWordMatchesTwoRows : ∃ r, opcodeRows[0]? = some r ∧ 0x2904FFFF#32 &&& r.mask = r.pattern :=
  ⟨_, rfl, by decide⟩

theorem witness_SprNumberHalvesAreSwapped : decodeWord 0x7C7F42A6#32 = .ok (.mfspr 3 287) ∧
    decodeWord 0x7C7043A6#32 = .ok (.mtspr 272 3) ∧ decodeWord 0x7C6D42E6#32 = .ok (.mftb 3 269) := by decide

theorem witness_UnmatchedWordsAreRefused : (placed 0x60000000#32).Fetches 0x60000000#32 ∧
    ∀ r ∈ opcodeRows, 0x60000000#32 &&& r.mask ≠ r.pattern := by decide

theorem witness_StepRunsTheDecodedInstruction :
    let s := placed 0x38A0FFFF#32
    s.instructionIsNext = true ∧ s.fpExceptionDue = false ∧ bitOf s.msr 31 = false ∧ bitOf s.msr 21 = false ∧
    bitOf s.msr 22 = false ∧ s.readByte s.pc = some 0x38 ∧ s.readByte (s.pc + 1#32) = some 0xA0 ∧
    s.readByte (s.pc + 2#32) = some 0xFF ∧ s.readByte (s.pc + 3#32) = some 0xFF ∧
    decode [0x38, 0xA0, 0xFF, 0xFF] = .ok (.addi 5 0 0xFFFF) := by decide

theorem witness_FetchStops :
    (State.instructionIsNext { base with msr := 1#32 } = true ∧ State.fpExceptionDue { base with msr := 1#32 } = false ∧
      bitOf (1#32) 31 = true) ∧
    (State.instructionIsNext { base with msr := 0x400#32 } = true ∧ bitOf (0x400#32) 31 = false ∧
      bitOf (0x400#32) 21 = true) ∧
    (State.instructionIsNext { base with msr := 0x200#32 } = true ∧ bitOf (0x200#32) 22 = true) ∧
    (base.instructionIsNext = true ∧ base.fpExceptionDue = false ∧ bitOf base.msr 31 = false ∧ bitOf base.msr 21 = false ∧
      bitOf base.msr 22 = false ∧ base.readByte base.pc = none) := by decide

theorem witness_PlacedInstructionRunsNext : decodeTableWord 32 0x38A0FFFF = some (.addi 5 0 0xFFFF) := by decide

/-- For `AddicDotAddsCarriesAndRecords`, `SubfcSubtractsWithFlags`, `McrxrMovesAndClears`, `ScEntersSystemCall`,
`ResetValues` and `UserRegistersMove`. -/
theorem witness_ReservedZero : base.ReservedZero ∧ user.ReservedZero ∧ (withFpscr 0xFFFFFFFF#32).ReservedZero ∧
    State.ReservedZero { base with xer := 0xE000FF7F#32, msr := 0x0000FF43#32 } := by decide

/-- For `LwzLoadsBigEndianWord` and `LwzStops`: an aligned word, and a word that is misaligned or not memory, in big-endian mode, and one in little-endian mode. -/
theorem witness_Lwz :
    let s : State := { withGprs [(4, 0xFFFFFFFC)] with mem := Memory.writeWord [] 0xFFFFFFFC#32 0x12345678#32 }
    s.effectiveAddress 4 0 = 0xFFFFFFFC#32 ∧ bitOf s.msr 31 = false ∧ s.readByte 0xFFFFFFFC#32 = some 0x12 ∧
    s.readByte (0xFFFFFFFC#32 + 1#32) = some 0x34 ∧ s.readByte (0xFFFFFFFC#32 + 2#32) = some 0x56 ∧
    s.readByte (0xFFFFFFFC#32 + 3#32) = some 0x78 ∧ s.effectiveAddress 4 1 = 0xFFFFFFFD#32 ∧
    s.effectiveAddress 4 4 = 0#32 ∧ s.readByte 0#32 = none ∧ bitOf (State.msr { s with msr := 1#32 }) 31 = true := by decide

/-- For `McrfsCopiesAndClearsSticky`, `MtfsfiWritesOneField`, `MtfsfWritesSelectedFields`, `Mtfsb0ClearsOneBit` and
`Mtfsb1SetsOneBit`: MSR[FP] = 1 in ignore-exceptions mode. -/
theorem witness_FpscrMoves :
    let s := withFpscr 0x01000080#32
    s.ReservedZero ∧ bitOf s.msr 18 = true ∧ bitOf s.msr 20 = false ∧ bitOf s.msr 23 = false := by decide

theorem witness_FpscrMovesNeedFpAvailable :
    isFpscrMove (.mcrfs 0 0) = true ∧ isFpscrMove (.mtfsfi 0 0 false) = true ∧ isFpscrMove (.mtfsf 0 0 false) = true ∧
    isFpscrMove (.mtfsb0 0 false) = true ∧ isFpscrMove (.mtfsb1 0 true) = true ∧ base.ReservedZero ∧
    bitOf base.msr 18 = false ∧ bitOf base.msr 15 = false := by decide

/-- One move after which the exception is due in precise mode, and one after which it is not. -/
theorem witness_EnabledFpExceptionIsRefused :
    let s : State := { withFpscr 0x80#32 with msr := 0x2900#32 }
    bitOf s.msr 18 = true ∧ bitOf s.msr 20 = true ∧
    execNext (.mtfsb1 21 false) s.ignoringFpExceptions (fun t => bitOf t.fpscrRead 1) = true ∧
    execNext (.mtfsb1 0 false) s.ignoringFpExceptions (fun t => !bitOf t.fpscrRead 1) = true := by decide

/-- A sticky bit that goes from 1 to 0, and an instruction that is no FPSCR move. -/
theorem witness_StickyBitsAreClearedOnlyByMoves :
    (withFpscr 0x01000000#32).ReservedZero ∧ bitOf 0x9FF80700#32 7 = true ∧
    bitOf (withFpscr 0x01000000#32).fpscrRead 7 = true ∧
    execNext (.mtfsb0 7 false) (withFpscr 0x01000000#32) (fun t => !bitOf t.fpscrRead 7) = true ∧
    isFpscrMove (.addi 0 0 0) = false ∧ execNext (.addi 0 0 0) base (fun _ => true) = true := by decide

/-- For `BranchConditional` and `BranchToLinkRegister`: the count and the two kinds of branch on it, at the count where it wraps. -/
theorem witness_BranchConditional :
    (0xFFFFFFFF#32 = if (16#5 : Five).getMsbD 2 then base.ctr else base.ctr - 1#32) ∧ TakenBy 16 0 0#32 0xFFFFFFFF#32 ∧
    (0#32 = if (20#5 : Five).getMsbD 2 then base.ctr else base.ctr - 1#32) ∧ TakenBy 20 0 0#32 0#32 ∧
    ¬ TakenBy 12 2 0#32 0#32 := by decide

theorem witness_BranchToCountRegister : (20#5 : Five).getMsbD 2 = true ∧ (16#5 : Five).getMsbD 2 = false := by decide

theorem witness_LinkRegisterIsWrittenByLinkAndMove :
    execNext (.bc 4 2 0 false true) { base with cr := 0x20000000#32 } (fun t => t.lr == 0x1004#32) = true ∧
    execNext (.mtspr 8 3) (withGprs [(3, 7)]) (fun t => t.lr == 7#32) = true ∧
    execNext .sc { base with lr := 7#32 } (fun t => t.lr == 7#32) = true := by decide

/-- Supervisor level, for `SupervisorStorageMoves`, `DecrementerMoves`, `TimeBaseHalvesAreWrittenApart`,
`EieEidNriSetEeAndRi`, `PvrIsReadOnly` and `MsrMoves`; ILE = 0 for `ScEntersSystemCall`. -/
theorem witness_Supervisor : bitOf base.msr 17 = false ∧ bitOf base.msr 15 = false ∧ base.fpExceptionDue = false ∧
    base.ReservedZero := by decide

theorem witness_SupervisorStorageMoves : storageSprs[0]?.isSome = true ∧ storageSprs[7]?.isSome = true ∧
    execNext (.mtspr 275 3) (withGprs [(3, 7)]) (fun t => t.sprg3 == 7#32) = true ∧
    execNext (.mtspr 18 3) (withGprs [(3, 7)]) (fun t => t.dsisr == 7#32 && t.sprg3 == 0#32) = true := by decide

theorem witness_PrivilegeViolationTakesProgram : user.ReservedZero ∧ bitOf user.msr 17 = true ∧ bitOf user.msr 15 = false ∧
    18#10 ∈ supervisorWriteNumbers ∧ 1022#10 ∈ supervisorWriteNumbers ∧ 284#10 ∈ supervisorWriteNumbers ∧
    18#10 ∈ supervisorReadNumbers ∧ 1022#10 ∈ supervisorReadNumbers ∧ 284#10 ∉ supervisorReadNumbers := by decide

/-- The numbers beside the listed ones. -/
theorem witness_UnlistedNumbersAreRefused :
    (∀ n ∈ ([0, 2, 7, 10, 268, 269, 286, 1021, 1023] : List (BitVec 10)), n ∉ supervisorWriteNumbers ++ userNumbers) ∧
    (∀ n ∈ ([0, 268, 269, 284, 285, 1023] : List (BitVec 10)), n ∉ supervisorReadNumbers ++ userNumbers) ∧
    (∀ n ∈ ([0, 267, 270, 284, 285, 1023] : List (BitVec 10)), n ∉ ([268, 269] : List (BitVec 10))) := by decide

theorem witness_UndescribedRegistersAreRefused : 144#10 ∈ undescribedNumbers ∧ 159#10 ∈ undescribedNumbers ∧
    1022#10 ∈ undescribedNumbers ∧ bitOf base.msr 17 = false ∧ user.ReservedZero ∧ bitOf user.msr 17 = true ∧
    bitOf user.msr 15 = false := by decide

/-- A value that leaves nothing due, and one that leaves an enabled exception due. -/
theorem witness_MsrMoves :
    let s : State := { withGprs [(3, 0x900)] with fpscr := 0x01000080#32 }
    bitOf s.msr 17 = false ∧ bitOf (s.gprAt 3) 20 = true ∧ bitOf (s.gprAt 3) 23 = true ∧ bitOf s.fpscrRead 1 = true ∧
    bitOf (s.gprAt 0) 20 = false ∧ bitOf (s.gprAt 0) 23 = false := by decide

theorem witness_RfiRestores :
    let s : State := { base with fpscr := 0x01000080#32, srr1Msr := 0x0900#16 }
    s.ReservedZero ∧ bitOf s.msr 17 = false ∧ bitOf s.srr1 20 = true ∧ bitOf s.fpscrRead 1 = true ∧
    bitOf base.srr1 20 = false ∧ bitOf base.srr1 23 = false := by decide

theorem witness_ExceptionEntrySequence : (.externalInterrupt, 0x00500#32) ∈ takenExceptions ∧
    (.softwareEmulation, 0x01000#32) ∈ takenExceptions ∧ base.ReservedZero ∧ bitOf base.msr 15 = false ∧
    bitOf (State.msr { base with msr := 0x10000#32 }) 15 = true := by decide

/-- The external interrupt and the decrementer exception, both pending and enabled; and neither. -/
theorem witness_AsynchronousExceptionsAreTakenAtBoundaries :
    let s : State := { base with msr := 0x8000#32, extIrq := true, decReq := true }
    s.nextTurn = .processor .anyPending ∧ s.ReservedZero ∧ s.fpExceptionDue = false ∧ bitOf s.msr 16 = true ∧
    bitOf s.msr 15 = false ∧ State.nextTurn { s with schedule := [.processor .decrementer] } = .processor .decrementer ∧
    State.nextTurn { s with extIrq := false } = .processor .anyPending ∧ bitOf base.msr 16 = false ∧
    base.nextTurn = .processor .anyPending ∧ bitOf (State.msr { s with msr := 0x18000#32 }) 15 = true ∧
    State.nextTurn { s with schedule := [.processor .external] } = .processor .external := by decide

/-- For `TimeBaseAgentStep` and `DecrementerAgentStep`. -/
theorem witness_Agents : State.schedule { base with schedule := [.timeBase, .decrementer] } = [.timeBase, .decrementer] ∧
    State.schedule { base with schedule := [.decrementer] } = [.decrementer] := by decide

theorem witness_RequestInputIsDrivenByEnvironment :
    State.schedule { base with schedule := [.externalRequest true, .timeBase] } = [.externalRequest true, .timeBase] ∧
    stepNext { base with schedule := [.externalRequest true] } (fun t => t.extIrq) = true ∧
    stepNext { base with schedule := [.timeBase], extIrq := true } (fun t => t.extIrq) = true := by decide

theorem witness_StepKeepsInvariant : (placed 0x38A0FFFF#32).Inv ∧
    stepNext (placed 0x38A0FFFF#32) (fun t => t.gprAt 5 == 0xFFFFFFFF#32) = true := by decide

/-- For `PowerOnMeetsInvariant` and `ResetValues`. -/
theorem witness_PowerOn : base.mem.wf = true ∧ base.ReservedZero ∧ (State.powerOn true base).pc = 0xFFF00100#32 ∧
    (State.powerOn false base).pc = 0x100#32 := by decide

/-- A user-level step that stays at user level, and one that takes an exception. -/
theorem witness_UserLevelCannotReachSupervisorState :
    let s (w : Word) : State := { placed w with msr := 0x4000#32 }
    (s 0x38A0FFFF#32).Inv ∧ bitOf (s 0x38A0FFFF#32).msr 17 = true ∧
    (s 0x38A0FFFF#32).nextTurn = .processor .anyPending ∧
    stepNext (s 0x38A0FFFF#32) (fun t => t.msr == 0x4000#32) = true ∧
    stepNext (s 0x7C600124#32) (fun t => t.pc == 0x700#32) = true := by decide

theorem witness_NoStepChangesMemoryOrConstants : stepNext (placed 0x38A0FFFF#32) (fun _ => true) = true := by decide

/-- SO is set and kept, set and copied away, and an instruction that leaves the XER alone. -/
theorem witness_SummaryOverflowIsSticky :
    State.ReservedZero { base with xer := 0x80000000#32 } ∧
    execNext (.subfc 3 4 5 true false) { base with xer := 0x80000000#32 } (fun t => bitOf t.xer 0) = true ∧
    execNext (.mcrxr 0) { base with xer := 0x80000000#32 } (fun t => !bitOf t.xer 0) = true ∧
    execNext (.addi 0 0 0) base (fun _ => true) = true := by decide

theorem witness_CrChangesOnlyInListedFields :
    execNext (.cmp 7 false 0 0) base (fun _ => true) = true ∧ Part.crField 0 ∉ crFieldsWritten (.cmp 7 false 0 0) := by decide

end Sys2Proof.Tests
end

/-! The statements of 10_state.md: which instructions change the CR and the FPSCR, what reset leaves, and the invariant
that every step keeps. -/
namespace Sys2Proof.Machine

/-! ## Whole registers from a frame -/

/-- A frame that lists no FPSCR bit leaves the FPSCR as it reads. -/
theorem Unchanged.fpscrRead_eq {l : List Part} {s t : State} (h : Unchanged l s t) (hl : ∀ j, Part.fpscrBit j ∉ l) :
    t.fpscrRead = s.fpscrRead := by
  apply word_ext
  intro j hj
  simpa [Part.same, Nat.mod_eq_of_lt hj] using h (.fpscrBit (BitVec.ofNat 5 j)) (hl _)

/-- The pieces `mtspr` may write hold no field of the CR. -/
theorem crField_notMem_sprParts (n : BitVec 10) (c : FieldNum) : Part.crField c ∉ sprParts n := by
  unfold sprParts
  split <;> simp [xerParts, msrParts]

/-- The pieces `mtspr` may write hold no bit of the FPSCR. -/
theorem fpscrBit_notMem_sprParts (n : BitVec 10) (j : Five) : Part.fpscrBit j ∉ sprParts n := by
  unfold sprParts
  split <;> simp [xerParts, msrParts]

/-- `mtspr` writes MSR bits through EIE, EID and NRI only (R292). -/
theorem msrBit_notMem_sprParts {n : BitVec 10} {r : Spr} (hr : sprOfNumber n = some r) (hm : sprWritesMsr r = false)
    (j : Five) : Part.msrBit j ∉ sprParts n := by
  unfold sprParts
  rw [hr]
  cases r <;> simp [xerParts] <;> cases hm

/-- Only the FPSCR moves have FPSCR bits in their frame (R37). -/
theorem fpscrBit_notMem_mayWrite {i : Instr} (hi : isFpscrMove i = false) (j : Five) :
    Part.fpscrBit j ∉ mayWrite i := by
  cases i <;> simp [mayWrite, selectedFields, xerParts, msrParts, fpscrBit_notMem_sprParts] <;> cases hi

/-- The CR fields in an instruction's frame are those its rule names (R47). -/
theorem crField_mem_crFieldsWritten {i : Instr} {n : FieldNum} (h : Part.crField n ∈ mayWrite i) :
    Part.crField n ∈ crFieldsWritten i := by
  cases i <;> simp_all [mayWrite, crFieldsWritten, xerParts, msrParts, fpscrParts, crField_notMem_sprParts]

/-! ## The CR (R47) -/

/-- An exception entry leaves the CR (R352). -/
theorem take_cr {s t : State} {e : ExceptionKind} {resume : Word} (h : s.take e resume = .next t) : t.cr = s.cr := by
  obtain ⟨_, rfl⟩ := take_next_iff.mp h
  rfl

/-- Settles O58: an instruction stays inside its frame, or enters an exception, which leaves the CR. -/
theorem crChangesOnlyInListedFields : Obligations.CrChangesOnlyInListedFields := by
  intro i s t h n hn
  rcases exec_next_cases h with hu | ⟨e, resume, _, ht⟩
  · exact hu (.crField n) (fun hm => hn (crField_mem_crFieldsWritten hm))
  · rw [take_cr ht]

/-! ## The FPSCR (R30 to R37) -/

/-- An exception entry leaves the FPSCR (R352). -/
theorem take_fpscrRead {s t : State} {e : ExceptionKind} {resume : Word} (h : s.take e resume = .next t) :
    t.fpscrRead = s.fpscrRead := by
  obtain ⟨_, rfl⟩ := take_next_iff.mp h
  rfl

/-- No instruction but the FPSCR moves changes the FPSCR (R37). -/
theorem exec_fpscrRead_of_not_move {i : Instr} {s t : State} (hi : isFpscrMove i = false) (h : exec i s = .next t) :
    t.fpscrRead = s.fpscrRead := by
  rcases exec_next_cases h with hu | ⟨e, resume, _, ht⟩
  · exact hu.fpscrRead_eq (fpscrBit_notMem_mayWrite hi)
  · exact take_fpscrRead ht

/-- The sticky bits are stored: neither FEX nor VX nor bit 20 is one of them (R30, R34). -/
theorem sticky_is_stored (j : Five) (h : bitOf 0x9FF80700#32 j.toNat = true) :
    j.toNat ≠ 1 ∧ j.toNat ≠ 2 ∧ j.toNat ≠ 20 := by
  revert j
  decide

/-- `mtfsb1` clears no sticky bit (R193). -/
theorem execMtfsb1_keeps_sticky {d : Five} {rc : Bool} {s t : State} (h : execMtfsb1 d rc s = .next t) {j : Five}
    (hj : bitOf 0x9FF80700#32 j.toNat = true) (hs : bitOf s.fpscrRead j.toNat = true) :
    bitOf t.fpscrRead j.toNat = true := by
  obtain ⟨h1, h2, h20⟩ := sticky_is_stored j hj
  rcases floatingPoint_next_cases h with ⟨_, rfl, _⟩ | ⟨_, ht⟩
  · rw [bitOf_fpscrRead _ _ j.isLt h1 h2] at hs ⊢
    rw [State.advance_fpscr, recordCr1_fpscr, bitOf_setFpscr _ _ _ j.isLt]
    simp [hs, h1, h2, h20]
  · rwa [take_fpscrRead ht]

/-- Settles O28: of the five FPSCR moves only `mtfsb1` is left, and it only sets bits. -/
theorem stickyBitsAreClearedOnlyByMoves : Obligations.StickyBitsAreClearedOnlyByMoves := by
  intro i s t _ h
  refine ⟨fun j hj hs ht => ?_, fun hi => exec_fpscrRead_of_not_move hi h⟩
  have move_of_cleared : isFpscrMove i ≠ false := by
    intro hi
    rw [exec_fpscrRead_of_not_move hi h, hs] at ht
    cases ht
  cases i with
  | mcrfs crfD crfS => exact .inl ⟨_, _, rfl⟩
  | mtfsfi crfD imm rc => exact .inr (.inl ⟨_, _, _, rfl⟩)
  | mtfsf fm frB rc => exact .inr (.inr (.inl ⟨_, _, _, rfl⟩))
  | mtfsb0 crbD rc => exact .inr (.inr (.inr ⟨_, _, rfl⟩))
  | mtfsb1 crbD rc =>
    rw [execMtfsb1_keeps_sticky h hj hs] at ht
    cases ht
  | _ => exact absurd rfl move_of_cleared

/-- The bits that VX is the OR of, as R33 lists them. -/
theorem bitOf_invalidOperationBits (j : Nat) (hj : j < 32) :
    bitOf 0x01F80700#32 j = true ↔ j ∈ [7, 8, 9, 10, 11, 12, 21, 22, 23] := by
  revert j
  decide

/-- Settles O27: both computed bits are read off the stored bits, and the bits they are computed from read as stored. -/
theorem fexAndVxAreComputed : Obligations.FexAndVxAreComputed := by
  intro s
  constructor
  · rw [bitOf_fpscrRead_vx, fpscrVx, mask_ne_zero]
    have stored : ∀ j ∈ [7, 8, 9, 10, 11, 12, 21, 22, 23], j < 32 ∧ bitOf s.fpscrRead j = bitOf s.fpscr j := by
      intro j hj
      have bounds : j < 32 ∧ j ≠ 1 ∧ j ≠ 2 := by revert j; decide
      exact ⟨bounds.1, bitOf_fpscrRead s j bounds.1 bounds.2.1 bounds.2.2⟩
    constructor
    · rintro ⟨j, hj, hm, hv⟩
      have hmem := (bitOf_invalidOperationBits j hj).mp hm
      exact ⟨j, hmem, (stored j hmem).2.trans hv⟩
    · rintro ⟨j, hmem, hv⟩
      obtain ⟨hj, hr⟩ := stored j hmem
      exact ⟨j, hj, (bitOf_invalidOperationBits j hj).mpr hmem, hr ▸ hv⟩
  · rw [bitOf_fpscrRead_fex, bitOf_fpscrRead_vx, fpscrFex]
    simp [bitOf_fpscrRead]

/-! ## Reset (R67, R110, R392) -/

/-- The MSR after reset, bit by bit: ME is held and IP is `reset_ip` (R67). -/
theorem bitOf_powerOn_msr (ip : Bool) (held : State) (j : Nat) (hj : j < 32) :
    bitOf (State.powerOn ip held).msr j = ((decide (j = 19) && bitOf held.msr j) || (decide (j = 25) && ip)) := by
  show bitOf ((held.msr &&& bitMask 19) ||| (if ip then bitMask 25 else 0#32)) j = _
  cases ip <;> simp [bitOf_bitMask, hj, Bool.and_comm]

/-- Where execution starts after reset (R392). -/
theorem powerOn_pc (ip : Bool) (held : State) :
    (State.powerOn ip held).pc = if ip then 0xFFF00100#32 else 0x00000100#32 := by
  cases ip <;> rfl

/-- Reset leaves no reserved bit (R23). -/
theorem powerOn_reservedZero (ip : Bool) (held : State) : (State.powerOn ip held).ReservedZero := by
  refine ⟨?_, xer_masked _, fpscr_masked _⟩
  apply word_ext
  intro j hj
  have mask : bitOf 0xFFFE00BC#32 j = true → j ≠ 19 ∧ j ≠ 25 := by revert j; decide
  rw [bitOf_and, bitOf_powerOn_msr _ _ _ hj, bitOf_zero]
  by_cases hm : bitOf 0xFFFE00BC#32 j = true
  · simp [mask hm]
  · simp [hm]

/-- Reset leaves everything but the MSR, where reserved bits held nothing (R110). -/
theorem powerOn_unchanged (ip : Bool) {held : State} (h : held.ReservedZero) :
    Unchanged msrParts held (State.powerOn ip held) := by
  obtain ⟨_, hx, hf⟩ := h
  have xer : (State.powerOn ip held).xer = held.xer := and_mask_eq_self hx
  have fpscr : (State.powerOn ip held).fpscr = held.fpscr := and_mask_eq_self hf
  intro p hp
  cases p with
  | msrBit j => exact absurd (mem_msrParts j) hp
  | xerBit j => exact congrArg (bitOf · j.toNat) xer
  | fpscrBit j => exact congrArg (fun v => bitOf (fpscrImage v) j.toNat) fpscr
  | _ => rfl

/-- Settles O54, from the bits of the MSR after reset and the frame of reset. -/
theorem resetValues : Obligations.ResetValues := by
  intro ip held
  refine ⟨fun j hj hme hip => ?_, ?_, ?_, powerOn_pc ip held, powerOn_unchanged ip⟩
  · simp [bitOf_powerOn_msr, hj, hme, hip]
  · simp [bitOf_powerOn_msr]
  · simp [bitOf_powerOn_msr]

/-- Settles O53: after reset MSR[FE0] and MSR[FE1] are 0, so no exception is due. -/
theorem powerOnMeetsInvariant : Obligations.PowerOnMeetsInvariant := by
  have powerOn : ∀ (ip : Bool) (held : State), held.mem.wf = true → (State.powerOn ip held).Inv := by
    intro ip held hm
    refine ⟨powerOn_reservedZero ip held, ?_, hm, fpExceptionDue_of_ignoring ?_ ?_⟩
    · rw [powerOn_pc]; cases ip <;> decide
    · simp [bitOf_powerOn_msr]
    · simp [bitOf_powerOn_msr]
  exact ⟨powerOn, powerOn _ _ reset_mem_wf⟩

/-! ## The invariant, its last clause aside

`State.Canonical` is what every operation keeps by itself; that no floating-point enabled exception is left due is kept
by whole instructions only, since those that write the MSR or the FPSCR check it at their end (R186, R348). -/

/-- Reserved bits hold nothing, `pc` is word-aligned, memory has its form (R23, R24, R121). -/
def State.Canonical (s : State) : Prop := s.ReservedZero ∧ s.pc &&& 3#32 = 0#32 ∧ s.mem.wf = true

theorem State.inv_iff (s : State) : s.Inv ↔ s.Canonical ∧ s.fpExceptionDue = false := by
  simp only [State.Inv, State.Canonical, and_assoc]

namespace State.Canonical
variable {s : State} (hs : s.Canonical)
include hs

/-! ### Operations that leave the status registers, `pc` and memory -/

theorem setGpr (r : Five) (v : Word) : (s.setGpr r v).Canonical := hs

theorem setCrField (n : FieldNum) (f : BitVec 4) : (s.setCrField n f).Canonical := hs

theorem link (lk : Bool) : (s.link lk).Canonical := hs

theorem recordCr1 (rc : Bool) : (s.recordCr1 rc).Canonical := by
  cases rc
  · exact hs
  · exact hs.setCrField _ _

/-! ### Writes of the status registers, through their masks (R50, R66, R184) -/

theorem setXer (v : Word) : (s.setXer v).Canonical := by
  obtain ⟨⟨hmsr, _, hfpscr⟩, hpc, hmem⟩ := hs
  exact ⟨⟨hmsr, xer_masked v, hfpscr⟩, hpc, hmem⟩

theorem setFpscr (v : Word) : (s.setFpscr v).Canonical := by
  obtain ⟨⟨hmsr, hxer, _⟩, hpc, hmem⟩ := hs
  exact ⟨⟨hmsr, hxer, fpscr_masked v⟩, hpc, hmem⟩

theorem setMsr (v : Word) : (s.setMsr v).Canonical := by
  obtain ⟨⟨_, hxer, hfpscr⟩, hpc, hmem⟩ := hs
  exact ⟨⟨msr_masked v, hxer, hfpscr⟩, hpc, hmem⟩

theorem setOverflow (oe ov : Bool) : (s.setOverflow oe ov).Canonical := by
  cases oe
  · exact hs
  · exact hs.setXer _

theorem moveToFpscr (m v : Word) (field0Written : Bool) : (s.moveToFpscr m v field0Written).Canonical :=
  (hs.setFpscr _).setFpscr _

/-! ### Where `pc` goes (R24, R25) -/

theorem branchTo {target : Word} (ht : target &&& 3#32 = 0#32) : (s.branchTo target).Canonical := by
  obtain ⟨hreserved, _, hmem⟩ := hs
  exact ⟨hreserved, ht, hmem⟩

theorem pc_aligned : s.pc &&& 3#32 = 0#32 := hs.2.1

theorem next_aligned : (s.pc + 4#32) &&& 3#32 = 0#32 := aligned_add hs.pc_aligned (by decide)

theorem advance : s.advance.Canonical := hs.branchTo hs.next_aligned

theorem branchTarget_aligned (aa : Bool) {disp : Word} (hd : disp &&& 3#32 = 0#32) :
    s.branchTarget aa disp &&& 3#32 = 0#32 := by
  cases aa
  · exact aligned_add hs.pc_aligned hd
  · exact hd

theorem conditionalBranch (count : Word) (taken : Bool) {target : Word} (ht : target &&& 3#32 = 0#32) (lk : Bool) :
    (s.conditionalBranch count taken target lk).Canonical := by
  have counted : State.Canonical { s with ctr := count } := hs
  refine (counted.link lk).branchTo ?_
  cases taken
  · exact hs.next_aligned
  · exact ht

/-! ### Exceptions and the special-purpose registers -/

theorem returnFromException : s.returnFromException.Canonical := (hs.setMsr _).branchTo (instructionAddress_aligned _)

theorem of_take {t : State} {e : ExceptionKind} {resume : Word} (h : s.take e resume = .next t) : t.Canonical := by
  obtain ⟨⟨_, hxer, hfpscr⟩, _, hmem⟩ := hs
  obtain ⟨hile, rfl⟩ := take_next_iff.mp h
  refine ⟨⟨?_, hxer, hfpscr⟩, aligned_add ?_ ?_, hmem⟩
  · show entryMsr s.msr &&& 0xFFFE00BC#32 = 0#32
    rw [entryMsr_eq _ hile, BitVec.and_assoc]
    simp
  · cases s.ip <;> decide
  · cases e <;> decide

theorem of_sprWritten {t : State} {r : Spr} {v : Word} (h : s.sprWritten r v = some t) : t.Canonical := by
  cases r <;> simp only [State.sprWritten, Option.some.injEq, reduceCtorEq] at h <;> subst h
  case xer => exact hs.setXer _
  case eie => exact hs.setMsr _
  case eid => exact hs.setMsr _
  case nri => exact hs.setMsr _
  all_goals exact hs

theorem of_floatingPoint {f : State → State} {t : State} (hf : (f s).Canonical) (h : floatingPoint f s = .next t) :
    t.Canonical := by
  rcases floatingPoint_next_cases h with ⟨_, rfl, _⟩ | ⟨_, ht⟩
  · exact hf.advance
  · exact hs.of_take ht

theorem of_compareInto {crfD : FieldNum} {l : Bool} {a b : Word} {signed : Bool} {t : State}
    (h : compareInto crfD l a b signed s = .next t) : t.Canonical := by
  cases l <;> cases h
  exact (hs.setCrField _ _).advance

/-- An instruction leaves reserved bits zero, `pc` word-aligned and memory in its form. -/
theorem of_exec {i : Instr} {t : State} (h : exec i s = .next t) : t.Canonical := by
  cases i with
  | cmpli crfD l rA uimm => exact hs.of_compareInto h
  | cmpi crfD l rA simm => exact hs.of_compareInto h
  | cmp crfD l rA rB => exact hs.of_compareInto h
  | cmpl crfD l rA rB => exact hs.of_compareInto h
  | addi rD rA simm => cases h; exact (hs.setGpr _ _).advance
  | addicDot rD rA simm => cases h; exact (((hs.setGpr _ _).setXer _).setCrField _ _).advance
  | subfc rD rA rB oe rc =>
    cases h
    cases rc
    · exact (((hs.setGpr _ _).setXer _).setOverflow _ _).advance
    · exact ((((hs.setGpr _ _).setXer _).setOverflow _ _).setCrField _ _).advance
  | andiDot rA rS uimm => cases h; exact ((hs.setGpr _ _).setCrField _ _).advance
  | andisDot rA rS uimm => cases h; exact ((hs.setGpr _ _).setCrField _ _).advance
  | b li aa lk => cases h; exact (hs.link _).branchTo (hs.branchTarget_aligned _ (displacement24_aligned _))
  | bc bo bi bd aa lk =>
    cases h; exact hs.conditionalBranch _ _ (hs.branchTarget_aligned _ (displacement14_aligned _)) _
  | bclr bo bi lk => cases h; exact hs.conditionalBranch _ _ (instructionAddress_aligned _) _
  | bcctr bo bi lk =>
    simp only [exec, execBcctr] at h
    split at h <;> cases h
    exact hs.conditionalBranch _ _ (instructionAddress_aligned _) _
  | mcrf crfD crfS => cases h; exact (hs.setCrField _ _).advance
  | mtcrf crm rS => cases h; exact hs.advance
  | mcrxr crfD => cases h; exact ((hs.setCrField _ _).setXer _).advance
  | mcrfs crfD crfS =>
    simp only [exec, execMcrfs] at h
    exact hs.of_floatingPoint ((hs.setCrField _ _).setFpscr _) h
  | mtfsfi crfD imm rc =>
    simp only [exec, execMtfsfi] at h
    exact hs.of_floatingPoint ((hs.moveToFpscr _ _ _).recordCr1 _) h
  | mtfsf fm frB rc =>
    simp only [exec, execMtfsf] at h
    exact hs.of_floatingPoint ((hs.moveToFpscr _ _ _).recordCr1 _) h
  | mtfsb0 crbD rc =>
    simp only [exec, execMtfsb0] at h
    exact hs.of_floatingPoint ((hs.setFpscr _).recordCr1 _) h
  | mtfsb1 crbD rc =>
    simp only [exec, execMtfsb1] at h
    exact hs.of_floatingPoint ((hs.setFpscr _).recordCr1 _) h
  | lwz rD rA d =>
    simp only [exec, execLwz] at h
    repeat' split at h
    all_goals cases h
    exact (hs.setGpr _ _).advance
  | mtspr n rS =>
    obtain ⟨r, _, ⟨_, _, ht⟩ | ⟨_, u, hu, rfl, _⟩⟩ := execMtspr_next_cases h
    · exact hs.of_take ht
    · exact (hs.of_sprWritten hu).advance
  | mfspr rD n =>
    obtain ⟨r, _, ⟨_, _, ht⟩ | ⟨_, ⟨_, ht⟩ | ⟨v, _, rfl⟩⟩⟩ := execMfspr_next_cases h
    · exact hs.of_take ht
    · exact hs.of_take ht
    · exact (hs.setGpr _ _).advance
  | mftb rD n =>
    simp only [exec, execMftb] at h
    split at h <;> cases h <;> exact (hs.setGpr _ _).advance
  | mfmsr rD =>
    simp only [exec, execMfmsr] at h
    split at h
    · exact hs.of_take h
    · cases h; exact (hs.setGpr _ _).advance
  | mtmsr rS =>
    simp only [exec, execMtmsr] at h
    split at h
    · exact hs.of_take h
    · obtain ⟨_, rfl⟩ := finishChecked_next_iff.mp h
      exact (hs.setMsr _).advance
  | sc => exact hs.of_take h
  | rfi =>
    simp only [exec, execRfi] at h
    split at h
    · exact hs.of_take h
    · obtain ⟨_, rfl⟩ := finishChecked_next_iff.mp h
      exact hs.returnFromException

end State.Canonical

/-! ## No floating-point enabled exception is left due (R186, R348) -/

/-- What is due is read off MSR[FE0], MSR[FE1] and FEX (R70, R348). -/
theorem fpExceptionDue_eq (s : State) :
    s.fpExceptionDue = ((bitOf s.msr 20 || bitOf s.msr 23) && bitOf s.fpscrRead 1) := by
  rw [bitOf_fpscrRead_fex]
  rfl

/-- A frame with no bit of the MSR and none of the FPSCR leaves what is due. -/
theorem Unchanged.fpExceptionDue_eq {l : List Part} {s t : State} (h : Unchanged l s t)
    (hm : ∀ j, Part.msrBit j ∉ l) (hf : ∀ j, Part.fpscrBit j ∉ l) : t.fpExceptionDue = s.fpExceptionDue := by
  have fe0 : bitOf t.msr 20 = bitOf s.msr 20 := h (.msrBit 20) (hm _)
  have fe1 : bitOf t.msr 23 = bitOf s.msr 23 := h (.msrBit 23) (hm _)
  rw [Machine.fpExceptionDue_eq, Machine.fpExceptionDue_eq, fe0, fe1, h.fpscrRead_eq hf]

/-- After an exception entry the machine ignores floating-point exceptions (R355). -/
theorem take_not_due {s t : State} {e : ExceptionKind} {resume : Word} (h : s.take e resume = .next t) :
    t.fpExceptionDue = false := by
  obtain ⟨hile, rfl⟩ := take_next_iff.mp h
  have cleared (j : Nat) (hj : bitOf 0x00001040#32 j = false) : bitOf (entryMsr s.msr) j = false := by
    rw [entryMsr_eq _ hile, bitOf_and, hj, Bool.and_false]
  exact fpExceptionDue_of_ignoring (cleared 20 (by decide)) (cleared 23 (by decide))

/-- Every FPSCR move is guarded by MSR[FP] and checked at its end (R183, R186). -/
theorem exec_fpscrMove_eq_floatingPoint {i : Instr} (hi : isFpscrMove i = true) (s : State) :
    ∃ f, exec i s = floatingPoint f s := by
  cases i with
  | mcrfs crfD crfS => simp only [exec, execMcrfs]; exact ⟨_, rfl⟩
  | mtfsfi crfD imm rc => simp only [exec, execMtfsfi]; exact ⟨_, rfl⟩
  | mtfsf fm frB rc => simp only [exec, execMtfsf]; exact ⟨_, rfl⟩
  | mtfsb0 crbD rc => simp only [exec, execMtfsb0]; exact ⟨_, rfl⟩
  | mtfsb1 crbD rc => simp only [exec, execMtfsb1]; exact ⟨_, rfl⟩
  | _ => cases hi

theorem fpscrMove_not_due {i : Instr} (hi : isFpscrMove i = true) {s t : State} (h : exec i s = .next t) :
    t.fpExceptionDue = false := by
  obtain ⟨f, hf⟩ := exec_fpscrMove_eq_floatingPoint hi s
  rcases floatingPoint_next_cases (hf.symm.trans h) with ⟨_, _, checked⟩ | ⟨_, ht⟩
  · exact checked
  · exact take_not_due ht

/-- `mtspr` leaves no exception due: a write of EIE, EID or NRI is checked, every other leaves the MSR. -/
theorem execMtspr_not_due {n : BitVec 10} {rS : Five} {s t : State} (hd : s.fpExceptionDue = false)
    (h : execMtspr n rS s = .next t) : t.fpExceptionDue = false := by
  obtain ⟨r, hr, ⟨_, _, ht⟩ | ⟨_, u, hu, rfl, checked⟩⟩ := execMtspr_next_cases h
  · exact take_not_due ht
  · cases hm : sprWritesMsr r with
    | true => exact checked hm
    | false =>
      have kept := (sprWritten_unchanged hr hu).fpExceptionDue_eq (msrBit_notMem_sprParts hr hm)
        (fpscrBit_notMem_sprParts n)
      exact kept.trans hd

/-- No instruction leaves a floating-point enabled exception due (R186, R348): those that may raise one check it, the
others write neither the MSR nor the FPSCR. -/
theorem exec_not_due {i : Instr} {s t : State} (hd : s.fpExceptionDue = false) (h : exec i s = .next t) :
    t.fpExceptionDue = false := by
  cases i with
  | mcrfs crfD crfS => exact fpscrMove_not_due rfl h
  | mtfsfi crfD imm rc => exact fpscrMove_not_due rfl h
  | mtfsf fm frB rc => exact fpscrMove_not_due rfl h
  | mtfsb0 crbD rc => exact fpscrMove_not_due rfl h
  | mtfsb1 crbD rc => exact fpscrMove_not_due rfl h
  | mtspr n rS => exact execMtspr_not_due hd h
  | mtmsr rS =>
    simp only [exec, execMtmsr] at h
    split at h
    · exact take_not_due h
    · obtain ⟨checked, rfl⟩ := finishChecked_next_iff.mp h
      exact checked
  | rfi =>
    simp only [exec, execRfi] at h
    split at h
    · exact take_not_due h
    · obtain ⟨checked, rfl⟩ := finishChecked_next_iff.mp h
      exact checked
  | _ =>
    rcases exec_next_cases h with hu | ⟨e, resume, _, ht⟩
    · refine (hu.fpExceptionDue_eq ?_ ?_).trans hd <;> simp [mayWrite, xerParts, selectedFields]
    · exact take_not_due ht

/-! ## Instructions, turns, steps -/

theorem exec_inv {i : Instr} {s t : State} (hs : s.Inv) (h : exec i s = .next t) : t.Inv := by
  obtain ⟨hc, hd⟩ := s.inv_iff.mp hs
  exact t.inv_iff.mpr ⟨hc.of_exec h, exec_not_due hd h⟩

theorem take_inv {s t : State} {e : ExceptionKind} {resume : Word} (hs : s.Inv) (h : s.take e resume = .next t) :
    t.Inv := by
  obtain ⟨hc, _⟩ := s.inv_iff.mp hs
  exact t.inv_iff.mpr ⟨hc.of_take h, take_not_due h⟩

/-- Settles O52: the agents leave what the invariant speaks of; the processor takes an exception or runs an
instruction. -/
theorem stepKeepsInvariant : Obligations.StepKeepsInvariant := by
  intro s t hs h
  have popped : s.popTurn.Inv := hs
  rcases step_next_cases h with rfl | rfl | ⟨level, rfl⟩ | ⟨r, _, hturn⟩
  · exact popped
  · exact popped
  · exact popped
  · obtain ⟨_, ⟨e, _, ht⟩ | ⟨_, hrun⟩⟩ := processorTurn_next_cases hturn
    · exact take_inv popped ht
    · obtain ⟨_, _, w, i, _, _, he⟩ := runInstruction_next_cases hrun
      exact exec_inv popped he
end Sys2Proof.Machine

/-! The statements of 20_memory.md: what no step changes, when a fetch stops, and that a placed instruction is the one the
next step runs. -/
namespace Sys2Proof.Machine

/-! ## What no step changes (R83, R130, R140, R297, R376) -/

/-- What is kept, piece by piece: every byte of memory, every FPR, PVR and the undescribed registers. -/
theorem Kept.pieces {s t : State} (h : Kept s t) :
    (∀ a : Word, t.readByte a = s.readByte a) ∧ (∀ r : Five, t.fprAt r = s.fprAt r) ∧ t.pvr = s.pvr ∧ t.units = s.units := by
  obtain ⟨hmem, hfpr, hpvr, hunits⟩ := h
  exact ⟨fun a => congrArg (Memory.read · a.toNat) hmem, fun r => congrArg (fun f => f[r.toNat]'r.isLt) hfpr, hpvr, hunits⟩

/-- Settles O56: no instruction, exception entry or agent writes memory, the FPRs, PVR or the undescribed registers. -/
theorem noStepChangesMemoryOrConstants : Obligations.NoStepChangesMemoryOrConstants :=
  fun _ _ h => (step_kept h).pieces

/-! ## The outcomes of a fetch (R121, R123, R150, R364) -/

/-- In little-endian mode nothing is fetched (R123). -/
theorem runInstruction_littleEndian {s : State} (hle : s.le = true) : s.runInstruction = .refused .littleEndianAccess := by
  simp [State.runInstruction, hle]

/-- While tracing nothing is fetched (R364). -/
theorem runInstruction_tracing {s : State} (hle : s.le = false) (htraced : s.traced = true) :
    s.runInstruction = .refused .tracing := by
  simp [State.runInstruction, hle, htraced]

/-- A fetch outside memory faults (R121). -/
theorem runInstruction_outsideMemory {s : State} (hle : s.le = false) (htraced : s.traced = false)
    (hword : s.memRead s.pc = none) : s.runInstruction = .fault (.outsideMemMap s.pc) := by
  simp [State.runInstruction, hle, htraced, hword]

/-- A fetched word that decodes runs (R150). -/
theorem runInstruction_decoded {s : State} {w : Word} {i : Instr} (hle : s.le = false) (htraced : s.traced = false)
    (hword : s.memRead s.pc = some w) (hi : decodeWord w = .ok i) : s.runInstruction = exec i s := by
  simp [State.runInstruction, hle, htraced, hword, hi]

/-- Settles O8: the step is the fetch, and taking a turn off the schedule leaves the MSR, `pc` and memory. -/
theorem fetchStops : Obligations.FetchStops := by
  intro s hnext hdue
  rw [step_runs hnext hdue]
  refine ⟨fun hle => runInstruction_littleEndian hle, fun hle htraced => ?_, fun hle hse hbe hbyte => ?_⟩
  · exact runInstruction_tracing hle (Bool.or_eq_true_iff.mpr htraced)
  · exact runInstruction_outsideMemory hle (Bool.or_eq_false_iff.mpr ⟨hse, hbe⟩) (memRead_none (s := s.popTurn) hbyte)

/-- The step that fetches a word runs the instruction it decodes to (R150, R362). -/
theorem step_of_fetches {s : State} {w : Word} {i : Instr} (h : s.Fetches w) (hi : decodeWord w = .ok i) :
    step s = exec i s.popTurn := by
  obtain ⟨hnext, hdue, hle, htraced, hword⟩ := h
  rw [step_runs hnext hdue]
  exact runInstruction_decoded hle htraced hword hi

/-! ## Placing an instruction (log 6) -/

/-- The host's question answered by the decoder of words (R150). -/
theorem decodeTableWord_eq_some_iff {nbits w : Nat} {i : Instr} :
    decodeTableWord nbits w = some i ↔ decodeWord (BitVec.ofNat 32 (w % 2 ^ nbits)) = .ok i := by
  rw [← decode_bytesOfWord _ [], List.append_nil, decodeTableWord]
  split <;> simp [*]

/-- Writing a word leaves every byte but its four (R121). -/
theorem read_writeWord_ne (m : Memory) (v : Word) {a k : Word} (h0 : k ≠ a) (h1 : k ≠ a + 1#32) (h2 : k ≠ a + 2#32)
    (h3 : k ≠ a + 3#32) : (m.writeWord a v).read k.toNat = m.read k.toNat := by
  have ne {b : Word} (h : k ≠ b) : k.toNat ≠ b.toNat := fun e => h (BitVec.eq_of_toNat_eq e)
  rw [Memory.writeWord, Memory.read_write_ne _ _ _ _ (ne h3), Memory.read_write_ne _ _ _ _ (ne h2),
    Memory.read_write_ne _ _ _ _ (ne h1), Memory.read_write_ne _ _ _ _ (ne h0)]

section
variable (s : State) (w : Word)

/-- The placed word reads back at `pc` (R123). -/
theorem memRead_placeWord : (s.placeWord w).memRead s.pc = some w := by
  obtain ⟨h0, h1, h2, h3⟩ := read_writeWord s.mem s.pc w
  rw [memRead_of_bytes (s := s.placeWord w) h0 h1 h2 h3, wordOfBytes_bytesOfWord]

/-- The MSR after placing, bit by bit: SE, BE and LE are cleared, and FE0 and FE1 if an exception is due. -/
theorem bitOf_placeWord_msr (j : Nat) (hj : j < 32) :
    bitOf (s.placeWord w).msr j =
      (bitOf s.msr j && !(decide (j ∈ [21, 22, 31]) || (decide (j ∈ [20, 23]) && s.fpExceptionDue))) := by
  have tracingAndOrder : bitOf 0x00000601#32 j = decide (j ∈ [21, 22, 31]) := by revert j; decide
  have precise : bitOf 0x00000900#32 j = decide (j ∈ [20, 23]) := by revert j; decide
  rw [State.placeWord, bitOf_and, bitOf_not _ _ hj, bitOf_or, tracingAndOrder]
  cases s.fpExceptionDue
  · simp
  · simp [precise]

/-- Placing leaves MSR[EE], so what is pending and enabled stays so (R360, R361). -/
theorem placeWord_interruptTaken (r : Recognition) : (s.placeWord w).interruptTaken r = s.interruptTaken r := by
  have ee : (s.placeWord w).ee = s.ee := by
    simp [State.ee, bitOf_placeWord_msr]
  have external : (s.placeWord w).externalPending = s.externalPending := congrArg (· && s.extIrq) ee
  have decrementer : (s.placeWord w).decrementerPending = s.decrementerPending := congrArg (· && s.decReq) ee
  cases r <;> simp only [State.interruptTaken, external, decrementer]

/-- After placing, an instruction is next: it was before, or the turn put in front asks for one. -/
theorem placeWord_instructionIsNext : (s.placeWord w).instructionIsNext = true := by
  cases hnext : s.instructionIsNext with
  | true =>
    have turn : (s.placeWord w).nextTurn = s.nextTurn := by simp [State.nextTurn, State.placeWord, hnext]
    rw [← hnext]
    simp only [State.instructionIsNext, turn, placeWord_interruptTaken]
  | false =>
    have turn : (s.placeWord w).nextTurn = .processor .execute := by simp [State.nextTurn, State.placeWord, hnext]
    simp [State.instructionIsNext, turn, State.interruptTaken]

/-- After placing, no floating-point enabled exception is due (R348): one that was is masked by FE0 = FE1 = 0 (R70). -/
theorem placeWord_not_due : (s.placeWord w).fpExceptionDue = false := by
  cases hdue : s.fpExceptionDue with
  | true => exact fpExceptionDue_of_ignoring (by simp [bitOf_placeWord_msr, hdue]) (by simp [bitOf_placeWord_msr, hdue])
  | false =>
    have precise : (s.placeWord w).fpPrecise = s.fpPrecise := by simp [State.fpPrecise, bitOf_placeWord_msr, hdue]
    exact (congrArg (· && fpscrFex s.fpscr) precise).trans hdue

/-- The next step fetches the placed word. -/
theorem placeWord_fetches : (s.placeWord w).Fetches w :=
  ⟨placeWord_instructionIsNext s w, placeWord_not_due s w, by simp [State.le, bitOf_placeWord_msr],
    by simp [State.traced, bitOf_placeWord_msr], memRead_placeWord s w⟩

/-- Placing changes nothing but the schedule, MSR[FE0], MSR[SE], MSR[BE], MSR[FE1], MSR[LE] and four bytes. -/
theorem placeWord_unchanged :
    Unchanged [.schedule, .msrBit 20, .msrBit 21, .msrBit 22, .msrBit 23, .msrBit 31, .memory s.pc,
      .memory (s.pc + 1#32), .memory (s.pc + 2#32), .memory (s.pc + 3#32)] s (s.placeWord w) := by
  intro p hp
  cases p with
  | schedule => simp at hp
  | msrBit j =>
    have unlisted : j.toNat ∉ [21, 22, 31] ∧ j.toNat ∉ [20, 23] := by
      simp only [List.mem_cons, Part.msrBit.injEq, reduceCtorEq, BitVec.toNat_eq, not_or] at hp
      simp only [List.mem_cons, List.not_mem_nil, not_or]
      obtain ⟨_, h20, h21, h22, h23, h31, _⟩ := hp
      exact ⟨⟨h21, h22, h31, id⟩, h20, h23, id⟩
    show bitOf (s.placeWord w).msr j.toNat = bitOf s.msr j.toNat
    simp only [bitOf_placeWord_msr _ _ _ j.isLt, unlisted, decide_false, Bool.false_and, Bool.or_false, Bool.not_false,
      Bool.and_true]
  | memory a =>
    simp only [List.mem_cons, Part.memory.injEq, reduceCtorEq, List.not_mem_nil, or_false, false_or, not_or] at hp
    obtain ⟨h0, h1, h2, h3⟩ := hp
    exact read_writeWord_ne s.mem w h0 h1 h2 h3
  | _ => rfl

end

/-- Settles O9: the placed word is what the next step fetches, and it decodes to the instruction. -/
theorem placedInstructionRunsNext : Obligations.PlacedInstructionRunsNext := by
  intro s nbits w i hi
  exact ⟨step_of_fetches (placeWord_fetches s _) (decodeTableWord_eq_some_iff.mp hi), rfl, placeWord_unchanged s _⟩
end Sys2Proof.Machine

/-! The statements of 30_encoding.md: the encoder and the decoder invert each other, the opcode map is unambiguous, SPR
numbers stand with their halves swapped, and a step runs what the fetched word decodes to. -/
namespace Sys2Proof
open Machine Laws

/-! ## The fields of the formats (R152) -/

section
variable (opcd : BitVec 6) (d a b : Five) (crfD crfS : FieldNum) (xo : BitVec 10) (imm : BitVec 16) (l last : Bool)

@[simp] theorem formD_fields :
    fieldOf (formD opcd d a imm) 6 5 = d ∧ fieldOf (formD opcd d a imm) 11 5 = a ∧
    fieldOf (formD opcd d a imm) 16 16 = imm := by
  simp (disch := decide) [formD, fieldOf_or, fieldOf_place_same, fieldOf_place_out]

@[simp] theorem formDCompare_fields :
    fieldOf (formDCompare opcd crfD l a imm) 6 3 = crfD ∧ bitOf (formDCompare opcd crfD l a imm) 10 = l ∧
    fieldOf (formDCompare opcd crfD l a imm) 11 5 = a ∧ fieldOf (formDCompare opcd crfD l a imm) 16 16 = imm := by
  simp (disch := decide) [formDCompare, fieldOf_or, fieldOf_place_same, fieldOf_place_out, fieldOf_placeBit_out,
    bitOf_place_out, bitOf_placeBit_same]

@[simp] theorem formX_fields :
    fieldOf (formX opcd d a b xo last) 6 5 = d ∧ fieldOf (formX opcd d a b xo last) 11 5 = a ∧
    fieldOf (formX opcd d a b xo last) 16 5 = b ∧ bitOf (formX opcd d a b xo last) 31 = last := by
  simp (disch := decide) [formX, fieldOf_or, fieldOf_place_same, fieldOf_place_out, fieldOf_placeBit_out,
    bitOf_place_out, bitOf_placeBit_same]

@[simp] theorem formXFields_fields :
    fieldOf (formXFields opcd crfD crfS b xo last) 6 3 = crfD ∧
    fieldOf (formXFields opcd crfD crfS b xo last) 11 3 = crfS := by
  simp (disch := decide) [formXFields, fieldOf_or, fieldOf_place_same, fieldOf_place_out, fieldOf_placeBit_out]

@[simp] theorem formXCompare_fields :
    fieldOf (formXCompare crfD l a b xo) 6 3 = crfD ∧ bitOf (formXCompare crfD l a b xo) 10 = l ∧
    fieldOf (formXCompare crfD l a b xo) 11 5 = a ∧ fieldOf (formXCompare crfD l a b xo) 16 5 = b := by
  simp (disch := decide) [formXCompare, fieldOf_or, fieldOf_place_same, fieldOf_place_out, fieldOf_placeBit_out,
    bitOf_place_out, bitOf_placeBit_same]

/-- The register number of the XFX format: its two halves read from a word put together again (R153). -/
theorem sprField_formX (n : BitVec 10) :
    sprField (formX opcd d (n.extractLsb' 0 5) (n.extractLsb' 5 5) xo last) = n := by
  simp [sprField, spr_halves]

end

/-! ## Decoding what was encoded -/

/-- The encoded word of a well-formed instruction is a word of its own row (R160). -/
theorem encode_matches_row : ∀ i, EncodeMatchesRow.Statement i
  | .cmpli .. => EncodeMatchesRow.cmpli _ _ _ _
  | .cmpi .. => EncodeMatchesRow.cmpi _ _ _ _
  | .addicDot .. => EncodeMatchesRow.addicDot _ _ _
  | .addi .. => EncodeMatchesRow.addi _ _ _
  | .bc .. => EncodeMatchesRow.bc _ _ _ _ _
  | .sc => EncodeMatchesRow.sc
  | .b .. => EncodeMatchesRow.b _ _ _
  | .mcrf .. => EncodeMatchesRow.mcrf _ _
  | .bclr .. => EncodeMatchesRow.bclr _ _ _
  | .rfi => EncodeMatchesRow.rfi
  | .bcctr .. => EncodeMatchesRow.bcctr _ _ _
  | .andiDot .. => EncodeMatchesRow.andiDot _ _ _
  | .andisDot .. => EncodeMatchesRow.andisDot _ _ _
  | .cmp .. => EncodeMatchesRow.cmp _ _ _ _
  | .subfc .. => EncodeMatchesRow.subfc _ _ _ _ _
  | .cmpl .. => EncodeMatchesRow.cmpl _ _ _ _
  | .mfmsr .. => EncodeMatchesRow.mfmsr _
  | .mtcrf .. => EncodeMatchesRow.mtcrf _ _
  | .mtmsr .. => EncodeMatchesRow.mtmsr _
  | .mfspr .. => EncodeMatchesRow.mfspr _ _
  | .mftb .. => EncodeMatchesRow.mftb _ _
  | .mtspr .. => EncodeMatchesRow.mtspr _ _
  | .mcrxr .. => EncodeMatchesRow.mcrxr _
  | .lwz .. => EncodeMatchesRow.lwz _ _ _
  | .mtfsb1 .. => EncodeMatchesRow.mtfsb1 _ _
  | .mcrfs .. => EncodeMatchesRow.mcrfs _ _
  | .mtfsb0 .. => EncodeMatchesRow.mtfsb0 _ _
  | .mtfsfi .. => EncodeMatchesRow.mtfsfi _ _ _
  | .mtfsf .. => EncodeMatchesRow.mtfsf _ _ _

/-- An instruction's row reads every operand back from the encoded word: the format's own lemma says so, or, where the
encoder writes the word out, the places of the fields do not meet. -/
theorem build_encode (i : Instr) {r : OpcodeRow} (hr : opcodeRows[EncodeMatchesRow.rowNumber i]? = some r) :
    r.build (encode i) = i := by
  cases i with
  | bc | b | subfc | mtcrf | mtfsfi | mtfsf =>
    cases hr
    simp (disch := decide) [encode, fieldOf_or, fieldOf_place_same, fieldOf_place_out, fieldOf_placeBit_out,
      bitOf_place_out, bitOf_placeBit_same, bitOf_placeBit_out]
  | mfspr | mftb | mtspr =>
    cases hr
    simp [encode, sprField_formX]
  | _ =>
    cases hr
    simp [encode]

/-- Settles O1: the encoded word is a word of the instruction's own row, and that row reads the operands back. -/
theorem decodeInvertsEncode : Obligations.DecodeInvertsEncode := by
  intro i rest hwf
  obtain ⟨r, hr, hmatch⟩ := encode_matches_row i hwf
  rw [decode_bytesOfWord, decodeWord_of_row (List.mem_of_getElem? hr) hmatch, build_encode i hr]

/-! ## Encoding what was decoded

What the encoder places in a word of a row is the word's own: a field that the row reads, or a value that the row's
pattern holds there. The bits beside those fields the row fixes at 0. -/

section
variable {w m p : Word} (h : w &&& m = p)
include h

/-- A value placed where the row's pattern holds it is the word's own field (R160). -/
theorem place_fixed {n : Nat} (c : BitVec n) (a : Nat) (hm : fieldOf m a n = BitVec.allOnes n)
    (hp : fieldOf p a n = c) : place c a = place (fieldOf w a n) a := by
  have hw : fieldOf (w &&& m) a n = fieldOf w a n &&& fieldOf m a n := BitVec.extractLsb'_and
  rw [← hp, ← h, hw, hm, BitVec.and_allOnes]

/-- An option bit placed where the row's pattern holds it is the word's own bit (R160). -/
theorem placeBit_fixed (c : Bool) (j : Nat) (hm : bitOf m j = true) (hp : bitOf p j = c) :
    placeBit c j = placeBit (bitOf w j) j := by
  rw [← hp, bitOf_of_holds h j hm]

/-- A mask that leaves out only bits the row fixes at 0 keeps every word of the row (R160). -/
theorem and_eq_self_of_holds {f : Word} (hm : m &&& ~~~f = ~~~f) (hp : p &&& ~~~f = 0#32) : w &&& f = w := by
  apply and_mask_eq_self
  rw [← hm, ← BitVec.and_assoc, h, hp]

end

/-- A row builds well-formed instructions from its own words: the mask of a compare fixes L = 0 (R172). -/
theorem build_wellFormed : ∀ r ∈ opcodeRows, ∀ w, w &&& r.mask = r.pattern → (r.build w).wellFormed = true := by
  simp only [opcodeRows, List.forall_mem_cons]
  refine ⟨?cmpli, ?cmpi, ?addicDot, ?addi, ?bc, ?sc, ?b, ?mcrf, ?bclr, ?rfi, ?bcctr, ?andiDot, ?andisDot, ?cmp, ?subfc,
    ?cmpl, ?mfmsr, ?mtcrf, ?mtmsr, ?mfspr, ?mftb, ?mtspr, ?mcrxr, ?lwz, ?mtfsb1, ?mcrfs, ?mtfsb0, ?mtfsfi, ?mtfsf,
    by simp⟩ <;> intro w h
  case cmpli | cmpi | cmp | cmpl =>
    have l : bitOf w 10 = false := bitOf_of_holds h 10 (by decide)
    simp [Instr.wellFormed, l]
  all_goals rfl

/-- The instruction that a row builds from a word of its own encodes to the word: every part the encoder places is first
seen to be a field of the word, and the fields are then joined to the word under one mask. -/
theorem encode_build : ∀ r ∈ opcodeRows, ∀ w, w &&& r.mask = r.pattern → encode (r.build w) = w := by
  simp only [opcodeRows, List.forall_mem_cons, List.not_mem_nil, false_implies, implies_true, and_true]
  and_intros
  all_goals
    intro w h
    simp (disch := decide) only [encode, formD, formDCompare, formX, formXFields, formXCompare, sprField_low,
      sprField_high, place_fixed h, placeBit_fixed h]
    simp (disch := decide) only [place_fieldOf, placeBit_bitOf, ← BitVec.and_or_distrib_left]
    exact and_eq_self_of_holds h (by decide) (by decide)

/-- Settles O2: what decodes is built by a row the word matches. -/
theorem encodeInvertsDecode : Obligations.EncodeInvertsDecode := by
  intro w i hi
  obtain ⟨r, hr, hmatch, rfl⟩ := decodeWord_ok hi
  exact ⟨build_wellFormed r hr w hmatch, encode_build r hr w hmatch⟩

/-! ## One row at most -/

/-- A word is the word of one row at most: two different rows differ in a bit that both masks hold (R160). -/
theorem row_unique {w : Word} : ∀ ⦃r⦄, r ∈ opcodeRows → ∀ ⦃r'⦄, r' ∈ opcodeRows →
    w &&& r.mask = r.pattern → w &&& r'.mask = r'.pattern → r = r' :=
  List.Pairwise.forall_of_forall_of_flip (fun _ _ _ _ => rfl)
    (rows_disjoint.imp fun hd h h' => absurd h' (not_both hd h))
    (rows_disjoint.imp fun hd h' h => absurd h' (not_both hd h))

/-- Settles O3: the two rows are the same row, so they have the same mnemonic. -/
theorem noWordMatchesTwoRows : Obligations.NoWordMatchesTwoRows :=
  fun _ _ _ hr hr' h h' => congrArg OpcodeRow.mnemonic (row_unique hr hr' h h')

/-! ## SPR and TBR numbers (R153) -/

/-- A number is its upper half shifted up beside its lower half. -/
theorem halves_shifted (n : BitVec 10) :
    n = ((n.extractLsb' 5 5).setWidth 10 <<< 5) ||| (n.extractLsb' 0 5).setWidth 10 := by
  apply BitVec.eq_of_getLsbD_eq
  intro i hi
  interval_cases i <;> simp

/-- The lower half in front of the upper half is the number with its halves swapped. -/
theorem halves_swapped (n : BitVec 10) :
    n.extractLsb' 0 5 ++ n.extractLsb' 5 5 = ((n &&& 0x1F#10) <<< 5) ||| (n >>> 5) := by
  apply BitVec.eq_of_getLsbD_eq
  intro i hi
  rw [BitVec.getLsbD_append]
  interval_cases i <;> simp

/-- The 10 bits of a word from bit 11 are its two 5-bit fields side by side (R152, R153). -/
theorem fieldOf_eq_append (w : Word) : fieldOf w 11 10 = fieldOf w 11 5 ++ fieldOf w 16 5 := by
  show w.extractLsb' 11 (5 + 5) = w.extractLsb' (11 + 5) 5 ++ w.extractLsb' 11 5
  exact (BitVec.extractLsb'_append_extractLsb'_eq_extractLsb' rfl).symm

/-- Settles O4: the word is the encoding of what it decodes to, and the encoder puts the lower half of the number first. -/
theorem sprNumberHalvesAreSwapped : Obligations.SprNumberHalvesAreSwapped := by
  constructor
  · intro w r n hi
    rcases hi with hi | hi | hi
    all_goals
      obtain ⟨_, rfl⟩ := encodeInvertsDecode w _ hi
      simpa [encode] using halves_shifted n
  · intro r n
    simp [encode, fieldOf_eq_append, halves_swapped]

/-- Settles O5: each of the six words runs through the opcode map (R160). -/
theorem sampleWordsDecode : Obligations.SampleWordsDecode := by
  unfold Obligations.SampleWordsDecode
  decide

/-! ## Fetching and stepping (R150, R171) -/

/-- A word is rejected exactly when it is the word of no row (R171). -/
theorem decodeWord_eq_error_iff {w : Word} :
    decodeWord w = .error (.noRow w) ↔ ∀ r ∈ opcodeRows, w &&& r.mask ≠ r.pattern := by
  rw [decodeWord]
  split
  · next r hr =>
    have hmatch : w &&& r.mask = r.pattern := by simpa [OpcodeRow.holds] using List.find?_some hr
    simpa using ⟨r, List.mem_of_find?_eq_some hr, hmatch⟩
  · next hnone => simpa [OpcodeRow.holds] using hnone

/-- A fetched word of no row is refused (R171). -/
theorem runInstruction_noRow {s : State} {w : Word} (hle : s.le = false) (htraced : s.traced = false)
    (hword : s.memRead s.pc = some w) (hrow : decodeWord w = .error (.noRow w)) :
    s.runInstruction = .refused (.noSuchInstruction w) := by
  simp [State.runInstruction, hle, htraced, hword, hrow]

/-- Settles O6: the decoder finds no row, and the step is the fetch. -/
theorem unmatchedWordsAreRefused : Obligations.UnmatchedWordsAreRefused := by
  refine ⟨fun w => decodeWord_eq_error_iff, fun s w hfetch hrows => ?_⟩
  obtain ⟨hnext, hdue, hle, htraced, hword⟩ := hfetch
  rw [step_runs hnext hdue]
  exact runInstruction_noRow hle htraced hword (decodeWord_eq_error_iff.mpr hrows)

/-- Taking a turn off an empty schedule changes nothing (log 7). -/
theorem popTurn_of_schedule_nil {s : State} (h : s.schedule = []) : s.popTurn = s := by
  cases s
  subst h
  rfl

/-- Settles O7: the four bytes are the word the step fetches. -/
theorem stepRunsTheDecodedInstruction : Obligations.StepRunsTheDecodedInstruction := by
  intro s b0 b1 b2 b3 i hnext hdue hle hse hbe h0 h1 h2 h3 hi
  have fetches : s.Fetches (wordOfBytes b0 b1 b2 b3) :=
    ⟨hnext, hdue, hle, Bool.or_eq_false_iff.mpr ⟨hse, hbe⟩, memRead_of_bytes h0 h1 h2 h3⟩
  exact ⟨step_of_fetches fetches hi, popTurn_of_schedule_nil, rfl, popTurn_unchanged s⟩

end Sys2Proof

/-! The statements of 40_fpscr_moves.md: what the five FPSCR moves do in ignore-exceptions mode, bit by bit, what they do
with MSR[FP] = 0, and what precise mode changes. -/
namespace Sys2Proof.Machine

/-! ## The five moves as one: a guard, an effect, a check (R183, R186) -/

/-- What an FPSCR move does between the test of MSR[FP] and the advance of `pc` (R189 to R193); the five in one function,
so that what they share is proved once (`exec_eq_fpscrMoveEffect`). -/
def fpscrMoveEffect : Instr → State → State
  | .mcrfs crfD crfS, s =>
    (s.setCrField crfD (fieldAt s.fpscrRead crfS)).setFpscr (s.fpscr &&& ~~~(fieldMask crfS &&& fpscrStickyBits))
  | .mtfsfi crfD imm rc, s =>
    (s.moveToFpscr (fieldMask crfD) (withField 0#32 crfD imm) (crfD == 0#3)).recordCr1 rc
  | .mtfsf fm frB rc, s =>
    (s.moveToFpscr (fieldsMask fm) ((s.fprAt frB).extractLsb' 0 32) (fm.getMsbD 0)).recordCr1 rc
  | .mtfsb0 crbD rc, s => (s.setFpscr (s.fpscr &&& ~~~(bitMask crbD.toNat))).recordCr1 rc
  | .mtfsb1 crbD rc, s =>
    (s.setFpscr (s.fpscr ||| bitMask crbD.toNat |||
      (if bitMask crbD.toNat &&& fpscrExceptionBits &&& ~~~s.fpscr != 0#32 then bitMask 0 else 0#32))).recordCr1 rc
  | _, s => s

/-- Each FPSCR move is its effect under the guard and the check all five share. -/
theorem exec_eq_fpscrMoveEffect {i : Instr} (hi : isFpscrMove i = true) (s : State) :
    exec i s = floatingPoint (fpscrMoveEffect i) s := by
  cases i with
  | mcrfs crfD crfS => rfl
  | mtfsfi crfD imm rc => rfl
  | mtfsf fm frB rc => rfl
  | mtfsb0 crbD rc => rfl
  | mtfsb1 crbD rc => rfl
  | _ => cases hi

/-- No effect reads or writes the MSR, so it commutes with any change of the MSR. -/
theorem fpscrMoveEffect_withMsr (i : Instr) (s : State) (m : Word) :
    fpscrMoveEffect i { s with msr := m } = { fpscrMoveEffect i s with msr := m } := by
  cases i with
  | mtfsfi crfD imm rc => cases rc <;> rfl
  | mtfsf fm frB rc => cases rc <;> rfl
  | mtfsb0 crbD rc => cases rc <;> rfl
  | mtfsb1 crbD rc => cases rc <;> rfl
  | _ => rfl

theorem fpscrMoveEffect_msr (i : Instr) (s : State) : (fpscrMoveEffect i s).msr = s.msr := by
  have kept := congrArg State.msr (fpscrMoveEffect_withMsr i s s.msr)
  exact kept

theorem fpscrMoveEffect_pc (i : Instr) (s : State) : (fpscrMoveEffect i s).pc = s.pc := by
  cases i with
  | mtfsfi crfD imm rc => cases rc <;> rfl
  | mtfsf fm frB rc => cases rc <;> rfl
  | mtfsb0 crbD rc => cases rc <;> rfl
  | mtfsb1 crbD rc => cases rc <;> rfl
  | _ => rfl

/-- Every effect stays inside the instruction's frame. -/
theorem fpscrMoveEffect_unchanged (i : Instr) (s : State) : Unchanged (mayWrite i) s (fpscrMoveEffect i s) := by
  cases i with
  | mcrfs crfD crfS => exact (setCrField_unchanged s _ _).trans (setFpscr_unchanged _ _)
  | mtfsfi crfD imm rc => exact (moveToFpscr_unchanged s _ _ _).trans (recordCr1_unchanged _ rc)
  | mtfsf fm frB rc => exact (moveToFpscr_unchanged s _ _ _).trans (recordCr1_unchanged _ rc)
  | mtfsb0 crbD rc => exact (setFpscr_unchanged s _).trans (recordCr1_unchanged _ rc)
  | mtfsb1 crbD rc => exact (setFpscr_unchanged s _).trans (recordCr1_unchanged _ rc)
  | _ => exact unchanged_refl _ _

/-- In ignore-exceptions mode an FPSCR move completes: its effect, `pc + 4`, and nothing outside its frame (R183, R186). -/
theorem fpscrMove_completes {i : Instr} {s : State} (hi : isFpscrMove i = true) (hfp : bitOf s.msr 18 = true)
    (hfe0 : bitOf s.msr 20 = false) (hfe1 : bitOf s.msr 23 = false) :
    exec i s = .next (fpscrMoveEffect i s).advance ∧ (fpscrMoveEffect i s).advance.pc = s.pc + 4#32 ∧
      Unchanged (mayWrite i) s (fpscrMoveEffect i s).advance := by
  have msr : (fpscrMoveEffect i s).advance.msr = s.msr := fpscrMoveEffect_msr i s
  refine ⟨?_, congrArg (· + 4#32) (fpscrMoveEffect_pc i s), ?_⟩
  · rw [exec_eq_fpscrMoveEffect hi]
    exact floatingPoint_next hfp (fpExceptionDue_of_ignoring (msr ▸ hfe0) (msr ▸ hfe1))
  · exact ((fpscrMoveEffect_unchanged i s).trans (advance_unchanged _)).mono (by simp)

/-! ## With MSR[FP] = 0 and in precise mode -/

/-- Settles O25: the guard takes the exception, and the entry sequence says the rest. -/
theorem fpscrMovesNeedFpAvailable : Obligations.FpscrMovesNeedFpAvailable := by
  intro i s hi hs hfp hile
  obtain ⟨t, ht⟩ := take_of_ile .fpUnavailable s.pc hile
  have guarded : exec i s = s.take .fpUnavailable s.pc := by
    rw [exec_eq_fpscrMoveEffect hi, floatingPoint, State.fp, hfp]
    rfl
  exact ⟨t, guarded.trans ht, entersException_of_take (also := []) hs ht (fun h => by cases h)⟩

/-- Ignore-exceptions mode differs from precise mode in FE0 and FE1 only (R70). -/
theorem bitOf_ignoringFpExceptions_fp (s : State) : bitOf s.ignoringFpExceptions.msr 18 = bitOf s.msr 18 := by
  rw [State.ignoringFpExceptions, bitOf_and, show bitOf 0xFFFFF6FF#32 18 = true by decide, Bool.and_true]

/-- Settles O26: the two modes run the same effect, which commutes with the change of the MSR; only the check at the end
reads the mode. -/
theorem enabledFpExceptionIsRefused : Obligations.EnabledFpExceptionIsRefused := by
  intro i s t hi hfp ht
  have effect : t = (fpscrMoveEffect i s.ignoringFpExceptions).advance := by
    rw [exec_eq_fpscrMoveEffect hi] at ht
    rcases floatingPoint_next_cases ht with ⟨_, heq, _⟩ | ⟨hoff, _⟩
    · exact heq
    · rw [State.fp, bitOf_ignoringFpExceptions_fp, hfp] at hoff
      cases hoff
  have inBothModes : t = { (fpscrMoveEffect i s).advance with msr := s.ignoringFpExceptions.msr } :=
    effect.trans (congrArg State.advance (fpscrMoveEffect_withMsr i s _))
  have msr : (fpscrMoveEffect i s).advance.msr = s.msr := fpscrMoveEffect_msr i s
  have restored : { t with msr := s.msr } = (fpscrMoveEffect i s).advance := by rw [inBothModes, ← msr]
  have fex : bitOf t.fpscrRead 1 = bitOf (fpscrMoveEffect i s).advance.fpscrRead 1 := by rw [inBothModes]; rfl
  have checked : exec i s = (fpscrMoveEffect i s).advance.finishChecked := by
    rw [exec_eq_fpscrMoveEffect hi, floatingPoint, State.fp, hfp]
    rfl
  rw [checked, State.finishChecked, fpExceptionDue_eq, msr, fex, restored]

/-! ## The FPSCR after a move, bit by bit -/

/-- The FPSCR holds nothing in FEX, VX and bit 20, so its write mask changes nothing (R30, R184). -/
theorem fpscr_mask_self {s : State} (h : s.ReservedZero) : s.fpscr &&& 0x9FFFF7FF#32 = s.fpscr := by
  obtain ⟨_, _, hfpscr⟩ := h
  exact and_mask_eq_self hfpscr

/-- After a write that keeps only bits the FPSCR held, every bit but FEX and VX reads as written (R184). -/
theorem bitOf_and_fpscrMask {s : State} (h : s.ReservedZero) (b : Bool) (j : Nat) :
    (bitOf s.fpscr j && b && bitOf 0x9FFFF7FF#32 j) = (bitOf s.fpscr j && b) := by
  have held := congrArg (bitOf · j) (fpscr_mask_self h)
  rw [bitOf_and] at held
  rw [Bool.and_right_comm, held]

/-- The record step and the advance leave what was stored, and every bit but FEX and VX reads as stored (R184, R187). -/
theorem bitOf_fpscrRead_recorded (s : State) (rc : Bool) {j : Nat} (hj : j < 32) (h1 : j ≠ 1) (h2 : j ≠ 2) :
    bitOf (s.recordCr1 rc).advance.fpscrRead j = bitOf s.fpscr j := by
  rw [bitOf_fpscrRead _ _ hj h1 h2, State.advance_fpscr, recordCr1_fpscr]

/-- A bit other than FEX, VX and bit 20 passes the write mask (R184). -/
theorem fpscrMask_of_stored {j : Nat} (h1 : j ≠ 1) (h2 : j ≠ 2) (h20 : j ≠ 20) :
    (decide (j ≠ 1) && decide (j ≠ 2) && decide (j ≠ 20)) = true := by
  rw [decide_eq_true h1, decide_eq_true h2, decide_eq_true h20]
  rfl

/-- The FPSCR as it reads depends on the stored bits alone (R184). -/
theorem fpscrRead_congr {s t : State} (h : t.fpscr = s.fpscr) : t.fpscrRead = s.fpscrRead := congrArg fpscrImage h

/-- Settles O20: the CR field is written with what the FPSCR read before, and no sticky bit is FEX, VX or bit 20. -/
theorem mcrfsCopiesAndClearsSticky : Obligations.McrfsCopiesAndClearsSticky := by
  intro crfD crfS s hs hfp hfe0 hfe1
  obtain ⟨next, pc, frame⟩ := fpscrMove_completes (i := .mcrfs crfD crfS) rfl hfp hfe0 hfe1
  refine ⟨_, next, fieldAt_withField_same _ _ _, fun j h1 h2 => ?_, pc, frame⟩
  rw [bitOf_fpscrRead _ _ j.isLt (BitVec.toNat_ne_iff_ne.mpr h1) (BitVec.toNat_ne_iff_ne.mpr h2),
    bitOf_fpscrRead _ _ j.isLt (BitVec.toNat_ne_iff_ne.mpr h1) (BitVec.toNat_ne_iff_ne.mpr h2),
    fpscrMoveEffect, State.advance_fpscr, State.setFpscr_fpscr, bitOf_and, bitOf_and, bitOf_not _ _ j.isLt, bitOf_and,
    bitOf_fieldMask _ _ j.isLt, bitOf_and_fpscrMask hs]
  rfl

/-! ### `mtfsfi` and `mtfsf` (R190, R191) -/

section
variable (s : State) (m v : Word) (w rc : Bool)

/-- Where the mask selects, a move stores the value; elsewhere the FPSCR stands. -/
theorem bitOf_fpscrRead_moved {j : Five} (h0 : j ≠ 0) (h1 : j ≠ 1) (h2 : j ≠ 2) (h20 : j ≠ 20) :
    bitOf ((s.moveToFpscr m v w).recordCr1 rc).advance.fpscrRead j.toNat =
      if bitOf m j.toNat then bitOf v j.toNat else bitOf s.fpscrRead j.toNat := by
  rw [← BitVec.toNat_ne_iff_ne] at h0 h1 h2 h20
  rw [bitOf_fpscrRead_recorded _ _ j.isLt h1 h2, bitOf_fpscrRead _ _ j.isLt h1 h2, bitOf_moveToFpscr _ _ _ _ _ j.isLt h0,
    fpscrMask_of_stored h1 h2 h20, Bool.and_true]

/-- Bit 20 is no storage (R30). -/
theorem bitOf_fpscrRead_moved_reserved :
    bitOf ((s.moveToFpscr m v w).recordCr1 rc).advance.fpscrRead 20 = false := by
  rw [bitOf_fpscrRead_recorded _ _ (by omega) (by omega) (by omega), bitOf_moveToFpscr _ _ _ _ _ (by omega) (by omega)]
  simp

/-- FX after a move (R185), in terms of the FPSCR as it reads: the exception bits are stored bits. -/
theorem bitOf_fpscrRead_moved_fx (hw : w = bitOf m 0) :
    bitOf ((s.moveToFpscr m v w).recordCr1 rc).advance.fpscrRead 0 = if w then bitOf v 0
      else bitOf s.fpscrRead 0 || (Config.fxOnMtfsf &&
        raisesException s.fpscrRead ((s.moveToFpscr m v w).recordCr1 rc).advance.fpscrRead) := by
  have raised : raisesException s.fpscrRead ((s.moveToFpscr m v w).recordCr1 rc).advance.fpscrRead =
      raisesException s.fpscr (s.moveToFpscr m v w).fpscr := by
    rw [State.fpscrRead, State.fpscrRead, raisesException_image, State.advance_fpscr, recordCr1_fpscr]
  rw [bitOf_fpscrRead_recorded _ _ (by omega) (by omega) (by omega),
    bitOf_fpscrRead s 0 (by omega) (by omega) (by omega), raised]
  exact bitOf_moveToFpscr_fx s m v w hw

end

/-- Settles O21: the mask is that of field `crfD`, the value the immediate in that field. -/
theorem mtfsfiWritesOneField : Obligations.MtfsfiWritesOneField := by
  intro crfD imm rc s _ hfp hfe0 hfe1
  obtain ⟨next, pc, frame⟩ := fpscrMove_completes (i := .mtfsfi crfD imm rc) rfl hfp hfe0 hfe1
  have field0 : (crfD == 0#3) = bitOf (fieldMask crfD) 0 := by
    rw [bitOf_fieldMask _ _ (by omega), Bool.eq_iff_iff, beq_iff_eq, decide_eq_true_iff, ← BitVec.toNat_inj, eq_comm]
    rfl
  refine ⟨_, next, fun j h0 h1 h2 h20 => ?_, bitOf_fpscrRead_moved_reserved _ _ _ _ _, ?_, recordCr1_field _ rc, pc,
    frame⟩
  · refine (bitOf_fpscrRead_moved _ _ _ _ _ h0 h1 h2 h20).trans ?_
    rw [bitOf_fieldMask _ _ j.isLt, bitOf_withField _ _ _ _ j.isLt]
    by_cases selected : j.toNat / 4 = crfD.toNat <;> simp [selected]
  · refine (bitOf_fpscrRead_moved_fx _ _ _ _ _ field0).trans ?_
    by_cases hzero : crfD = 0#3
    · subst hzero
      simp [bitOf_withField]
    · rw [if_neg (by simpa using hzero), if_neg hzero]
      rfl

/-- The low-order word of an FPR holds its bits 32 to 63 (R26). -/
theorem bitOf_lowWord (d : DWord) {j : Nat} (hj : j < 32) : bitOf (d.extractLsb' 0 32) j = d.getMsbD (32 + j) := by
  rw [bitOf_eq_getLsbD _ _ hj, BitVec.getLsbD_extractLsb', BitVec.getMsbD]
  simp [show 31 - j < 32 by omega, show 32 + j < 64 by omega, show 63 - (32 + j) = 31 - j by omega]

/-- Settles O22: the mask is that of the fields FM selects, the value the low-order word of the FPR. -/
theorem mtfsfWritesSelectedFields : Obligations.MtfsfWritesSelectedFields := by
  intro fm frB rc s _ hfp hfe0 hfe1
  obtain ⟨next, pc, frame⟩ := fpscrMove_completes (i := .mtfsf fm frB rc) rfl hfp hfe0 hfe1
  have field0 : fm.getMsbD 0 = bitOf (fieldsMask fm) 0 := (bitOf_fieldsMask fm 0 (by omega)).symm
  refine ⟨_, next, fun j h0 h1 h2 h20 => ?_, bitOf_fpscrRead_moved_reserved _ _ _ _ _, ?_, recordCr1_field _ rc, pc,
    frame⟩
  · refine (bitOf_fpscrRead_moved _ _ _ _ _ h0 h1 h2 h20).trans ?_
    rw [bitOf_fieldsMask _ _ j.isLt, bitOf_lowWord _ j.isLt]
  · refine (bitOf_fpscrRead_moved_fx _ _ _ _ _ field0).trans ?_
    rw [bitOf_lowWord _ (by omega)]
    rfl

/-! ### `mtfsb0` and `mtfsb1` (R192, R193) -/

/-- The mask of a bit given by an operand. -/
theorem bitOf_bitMask_five (d j : Five) : bitOf (bitMask d.toNat) j.toNat = decide (j = d) := by
  rw [bitOf_bitMask _ _ d.isLt j.isLt]
  exact decide_eq_decide.mpr BitVec.toNat_inj

/-- Bits 1, 2 and 20 are no storage (R30, R184). -/
theorem bitOf_fpscrMask_of_unstored {d : Five} (h : d = 1 ∨ d = 2 ∨ d = 20) : bitOf 0x9FFFF7FF#32 d.toNat = false := by
  rcases h with rfl | rfl | rfl <;> decide

/-- A write that differs from the FPSCR only in a bit that is no storage changes nothing (R184). -/
theorem setFpscr_fpscr_of_unstored {s : State} (hs : s.ReservedZero) {d : Five} (h : d = 1 ∨ d = 2 ∨ d = 20) {v : Word}
    (agrees : ∀ j < 32, j ≠ d.toNat → bitOf v j = bitOf s.fpscr j) : (s.setFpscr v).fpscr = s.fpscr := by
  rw [State.setFpscr_fpscr, ← fpscr_mask_self hs]
  apply word_ext
  intro j hj
  rw [bitOf_and, bitOf_and]
  by_cases hjd : j = d.toNat
  · rw [hjd, bitOf_fpscrMask_of_unstored h, Bool.and_false, Bool.and_false]
  · rw [agrees j hj hjd]

/-- Settles O23: the bits the FPSCR holds lie inside its write mask, so only the named bit can change. -/
theorem mtfsb0ClearsOneBit : Obligations.Mtfsb0ClearsOneBit := by
  intro crbD rc s hs hfp hfe0 hfe1
  obtain ⟨next, pc, frame⟩ := fpscrMove_completes (i := .mtfsb0 crbD rc) rfl hfp hfe0 hfe1
  refine ⟨_, next, fun j h1 h2 => ?_, fun unstored => ?_, recordCr1_field _ rc, pc, frame⟩
  · rw [← BitVec.toNat_ne_iff_ne] at h1 h2
    rw [bitOf_fpscrRead s _ j.isLt h1 h2, fpscrMoveEffect, bitOf_fpscrRead_recorded _ _ j.isLt h1 h2,
      State.setFpscr_fpscr, bitOf_and, bitOf_and, bitOf_not _ _ j.isLt, bitOf_bitMask_five, bitOf_and_fpscrMask hs]
  · refine fpscrRead_congr ((recordCr1_fpscr _ rc).trans (setFpscr_fpscr_of_unstored hs unstored fun j hj hjd => ?_))
    rw [bitOf_and, bitOf_not _ _ hj, bitOf_bitMask _ _ crbD.isLt hj, decide_eq_false hjd, Bool.not_false, Bool.and_true]

/-- Testing a word against the mask of one bit reads that bit. -/
theorem bitMask_and_ne_zero (d : Five) (v : Word) : (bitMask d.toNat &&& v != 0#32) = bitOf v d.toNat := by
  rw [Bool.eq_iff_iff, mask_ne_zero]
  constructor
  · rintro ⟨j, hj, hv, hd⟩
    rw [bitOf_bitMask _ _ d.isLt hj, decide_eq_true_iff] at hd
    exact hd ▸ hv
  · intro hv
    exact ⟨d.toNat, d.isLt, hv, by rw [bitOf_bitMask_five, decide_eq_true rfl]⟩

/-- Setting bit `d` raises an exception (R185) when `d` is an exception bit that reads 0: the exception bits are stored. -/
theorem mtfsb1_raises (s : State) (d : Five) :
    (bitMask d.toNat &&& fpscrExceptionBits &&& ~~~s.fpscr != 0#32) =
      (bitOf 0x1FF80700#32 d.toNat && !bitOf s.fpscrRead d.toNat) := by
  rw [BitVec.and_assoc, bitMask_and_ne_zero, bitOf_and, bitOf_not _ _ d.isLt]
  show (bitOf 0x1FF80700#32 d.toNat && _) = _
  cases hexc : bitOf 0x1FF80700#32 d.toNat with
  | false => rfl
  | true =>
    obtain ⟨h1, h2⟩ : d.toNat ≠ 1 ∧ d.toNat ≠ 2 := by revert d; decide
    rw [bitOf_fpscrRead _ _ d.isLt h1 h2]

/-- The word `mtfsb1` stores, bit by bit (R193). -/
theorem bitOf_or_bitMask_or_fx (v : Word) (d : Five) (fx : Bool) {j : Nat} (hj : j < 32) :
    bitOf (v ||| bitMask d.toNat ||| (if fx then bitMask 0 else 0#32)) j =
      (bitOf v j || decide (j = d.toNat) || (decide (j = 0) && fx)) := by
  rw [bitOf_or, bitOf_or, bitOf_bitMask _ _ d.isLt hj]
  cases fx
  · simp
  · simp [bitOf_bitMask, hj]

/-- Settles O24: bit `crbD` and FX are the only bits that can be set, and a bit that is no storage raises nothing. -/
theorem mtfsb1SetsOneBit : Obligations.Mtfsb1SetsOneBit := by
  intro crbD rc s hs hfp hfe0 hfe1
  obtain ⟨next, pc, frame⟩ := fpscrMove_completes (i := .mtfsb1 crbD rc) rfl hfp hfe0 hfe1
  refine ⟨_, next, fun j h0 h1 h2 h20 => ?_, ?_, fun unstored => ?_, recordCr1_field _ rc, pc, frame⟩
  · have named : decide (j = crbD) = decide (j.toNat = crbD.toNat) := decide_eq_decide.mpr BitVec.toNat_inj.symm
    rw [← BitVec.toNat_ne_iff_ne] at h0 h1 h2 h20
    rw [bitOf_fpscrRead s _ j.isLt h1 h2, fpscrMoveEffect, bitOf_fpscrRead_recorded _ _ j.isLt h1 h2,
      bitOf_setFpscr _ _ _ j.isLt, fpscrMask_of_stored h1 h2 h20, Bool.and_true, bitOf_or_bitMask_or_fx _ _ _ j.isLt,
      decide_eq_false (p := j.toNat = 0) h0, Bool.false_and, Bool.or_false, named]
  · have named : decide (crbD = 0) = decide (0 = crbD.toNat) :=
      decide_eq_decide.mpr (BitVec.toNat_inj.symm.trans eq_comm)
    rw [fpscrMoveEffect, bitOf_fpscrRead_recorded _ _ (by omega) (by omega) (by omega), bitOf_setFpscr _ _ _ (by omega),
      bitOf_or_bitMask_or_fx _ _ _ (by omega), mtfsb1_raises, bitOf_fpscrRead s 0 (by omega) (by omega) (by omega), named]
    simp
  · have noException : bitOf 0x1FF80700#32 crbD.toNat = false := by rcases unstored with rfl | rfl | rfl <;> decide
    refine fpscrRead_congr ((recordCr1_fpscr _ rc).trans (setFpscr_fpscr_of_unstored hs unstored fun j hj hjd => ?_))
    rw [bitOf_or_bitMask_or_fx _ _ _ hj, mtfsb1_raises, noException, decide_eq_false hjd]
    simp

end Sys2Proof.Machine

/-! The statements of 41_cr_moves_and_compares.md: the moves to the CR, the compares, and the record forms of AND with an
immediate. -/
namespace Sys2Proof.Machine

/-! ## Moves to the CR (R214, R215, R222) -/

/-- Settles O17: the field written is read back, and writing a field leaves the others. -/
theorem mcrfCopiesOneField : Obligations.McrfCopiesOneField := by
  intro crfD crfS s
  exact ⟨(s.setCrField crfD (fieldAt s.cr crfS)).advance, rfl, fieldAt_withField_same _ _ _, rfl,
    (setCrField_unchanged s crfD _).trans (advance_unchanged _)⟩

/-- Settles O18: under the mask of CRM a field comes from `rS` when it is selected, from the old CR when it is not. -/
theorem mtcrfMovesSelectedFields : Obligations.MtcrfMovesSelectedFields := by
  intro crm rS s
  refine ⟨_, rfl, fun n selected => ?_, rfl, ?_⟩
  · exact (fieldAt_select (s.gprAt rS) s.cr crm n).trans (if_pos selected)
  · exact ((mtcrf_unchanged s crm (s.gprAt rS)).trans (advance_unchanged _)).mono (by simp)

/-- A 4-bit field is its bits in order (R5). -/
theorem field_eq_append (f : BitVec 4) :
    f = BitVec.ofBool (f.getMsbD 0) ++ BitVec.ofBool (f.getMsbD 1) ++ BitVec.ofBool (f.getMsbD 2) ++
      BitVec.ofBool (f.getMsbD 3) := by
  revert f
  decide

/-- The XER holds nothing in its reserved bits, so its write mask changes nothing (R50). -/
theorem xer_mask_self {s : State} (h : s.ReservedZero) : s.xer &&& 0xE000FF7F#32 = s.xer := by
  obtain ⟨_, hxer, _⟩ := h
  exact and_mask_eq_self hxer

/-- XER[0:3] is SO, OV, CA and a zero: bit 3 is reserved (R50). -/
theorem fieldAt_xer_zero {s : State} (h : s.ReservedZero) :
    fieldAt s.xer 0 =
      BitVec.ofBool (bitOf s.xer 0) ++ BitVec.ofBool (bitOf s.xer 1) ++ BitVec.ofBool (bitOf s.xer 2) ++ 0#1 := by
  have reserved : bitOf s.xer 3 = false := by
    rw [← xer_mask_self h, bitOf_and, show bitOf 0xE000FF7F#32 3 = false by decide, Bool.and_false]
  have bit (k : Nat) (hk : k < 4) : (fieldAt s.xer 0).getMsbD k = bitOf s.xer k := by
    rw [getMsbD_fieldAt _ _ _ hk]
    simp
  rw [field_eq_append (fieldAt s.xer 0), bit 0 (by omega), bit 1 (by omega), bit 2 (by omega), bit 3 (by omega), reserved]
  rfl

/-- The XER after `mcrxr`, bit by bit: its first four bits are cleared, of which bit 3 held nothing (R222). -/
theorem bitOf_setXer_clear {s : State} (h : s.ReservedZero) {j : Nat} (hj : j < 32) :
    bitOf (s.setXer (s.xer &&& 0x0FFFFFFF#32)).xer j = (bitOf s.xer j && decide (3 ≤ j)) := by
  have masks : bitOf (0x0FFFFFFF#32 &&& 0xE000FF7F#32) j = (bitOf 0xE000FF7F#32 j && decide (3 ≤ j)) := by
    revert j
    decide
  rw [State.setXer_xer, BitVec.and_assoc, bitOf_and, masks, ← Bool.and_assoc, ← bitOf_and, xer_mask_self h]

/-- Clearing XER[0:3] changes SO, OV and CA only (R222). -/
theorem setXer_clear_unchanged {s : State} (h : s.ReservedZero) :
    Unchanged [.xerBit 0, .xerBit 1, .xerBit 2] s (s.setXer (s.xer &&& 0x0FFFFFFF#32)) := by
  refine setXer_unchanged _ _ _ fun j hj => (bitOf_setXer_clear h j.isLt).trans ?_
  have past : 3 ≤ j.toNat := by
    revert j
    decide
  rw [decide_eq_true past, Bool.and_true]

/-- Settles O19: the field is written with XER[0:3], and the XER write after it clears SO, OV and CA. -/
theorem mcrxrMovesAndClears : Obligations.McrxrMovesAndClears := by
  intro crfD s hs
  have moved : (s.setCrField crfD (fieldAt s.xer 0)).ReservedZero := hs
  have cleared {j : Nat} (hj : j < 3) :
      bitOf ((s.setCrField crfD (fieldAt s.xer 0)).setXer (s.xer &&& 0x0FFFFFFF#32)).xer j = false :=
    (bitOf_setXer_clear moved (by omega)).trans (by rw [decide_eq_false (by omega), Bool.and_false])
  exact ⟨_, rfl, (fieldAt_withField_same _ _ _).trans (fieldAt_xer_zero hs), cleared (by omega), cleared (by omega),
    cleared (by omega), rfl,
    ((setCrField_unchanged s crfD _).trans (setXer_clear_unchanged moved)).trans (advance_unchanged _)⟩

/-! ## Compares (R212, R216 to R219) -/

/-- A compare with L = 0 completes: the field holds the order of the two values, and nothing else changes (R212). -/
theorem compareInto_completes (crfD : FieldNum) (a b : Word) (signed : Bool) (s : State) :
    ∃ t, compareInto crfD false a b signed s = .next t ∧
      fieldAt t.cr crfD = (if signed then orderField a.toInt b.toInt (bitOf s.xer 0)
        else orderField a.toNat b.toNat (bitOf s.xer 0)) ∧
      t.pc = s.pc + 4#32 ∧ Unchanged [.crField crfD] s t :=
  ⟨(s.recordCompare crfD a b signed).advance, rfl, fieldAt_recordCompare s crfD a b signed, rfl,
    (recordCompare_unchanged s crfD a b signed).trans (advance_unchanged _)⟩

/-- Settles O14: the four compares are one operation, and an extended immediate has the immediate's value (R154). -/
theorem comparesSetOneField : Obligations.ComparesSetOneField := by
  intro crfD rA rB imm s
  rw [← signedImm_toInt imm, ← unsignedImm_toNat imm]
  exact ⟨compareInto_completes crfD (s.gprAt rA) (s.gprAt rB) true s,
    compareInto_completes crfD (s.gprAt rA) (signedImm imm) true s,
    compareInto_completes crfD (s.gprAt rA) (s.gprAt rB) false s,
    compareInto_completes crfD (s.gprAt rA) (unsignedImm imm) false s, rfl, rfl, rfl, rfl⟩

/-! ## AND with an immediate (R220, R221) -/

/-- A result stored in `rD` and recorded in CR0: what is read back, and the frame (R210). -/
theorem setGpr_recordCr0_completes (s : State) (rD : Five) (r : Word) :
    ∃ t, (.next ((s.setGpr rD r).recordCr0 r).advance : Result) = .next t ∧ t.gprAt rD = r ∧
      fieldAt t.cr 0 = orderField (t.gprAt rD).toInt 0 (bitOf s.xer 0) ∧ t.pc = s.pc + 4#32 ∧
      Unchanged [.gpr rD, .crField 0] s t := by
  have stored : ((s.setGpr rD r).recordCr0 r).advance.gprAt rD = r := gprAt_setGpr_same s rD r
  refine ⟨_, rfl, stored, ?_, rfl, ?_⟩
  · rw [stored]
    exact fieldAt_recordCr0 (s.setGpr rD r) r
  · exact ((setGpr_unchanged s rD r).trans (recordCr0_unchanged _ r)).trans (advance_unchanged _)

/-- Settles O13: the two differ only in the half of the word that holds the immediate. -/
theorem andImmediateRecords : Obligations.AndImmediateRecords := by
  intro rA rS uimm s
  rw [← unsignedImm_eq, ← shiftedImm_eq]
  exact ⟨setGpr_recordCr0_completes s rA (s.gprAt rS &&& unsignedImm uimm),
    setGpr_recordCr0_completes s rA (s.gprAt rS &&& shiftedImm uimm)⟩

end Sys2Proof.Machine

/-! The statements of 42_xer_arithmetic.md: `addic.` and `subfc` with their flags, and who changes the XER. -/
namespace Sys2Proof.Machine

/-! ## The end of an arithmetic instruction (R240, R241, R242, R210) -/

/-- CR0 <- the record of `r`, when Rc = 1 (R210). -/
def State.recordCr0When (s : State) (rc : Bool) (r : Word) : State := if rc then s.recordCr0 r else s

/-- How `addic.` and `subfc` end once the sum is formed: the result, CA, OV and SO under OE, CR0 under Rc, the next
instruction. Both are this (`exec_addicDot`, `exec_subfc`), so that the flags are proved once. -/
def State.arithmeticResult (s : State) (rD : Five) (r : Word) (ca oe ov rc : Bool) : State :=
  ((((s.setGpr rD r).setCa ca).setOverflow oe ov).recordCr0When rc r).advance

section
variable (s : State) (r : Word) (rc ov : Bool)

theorem recordCr0When_unchanged : Unchanged (if rc then [.crField 0] else []) s (s.recordCr0When rc r) := by
  cases rc
  · exact unchanged_refl _ _
  · exact recordCr0_unchanged _ _

@[simp] theorem recordCr0When_xer : (s.recordCr0When rc r).xer = s.xer := by cases rc <;> rfl

@[simp] theorem recordCr0When_pc : (s.recordCr0When rc r).pc = s.pc := by cases rc <;> rfl

/-- OV and SO after they are written with OE = 1: SO collects OV (R240, R241). -/
theorem xer_setOverflow :
    bitOf (s.setOverflow true ov).xer 1 = ov ∧ bitOf (s.setOverflow true ov).xer 0 = (bitOf s.xer 0 || ov) := by
  have written (j : Nat) (hj : j < 32) : bitOf (s.setOverflow true ov).xer j =
      ((if j = 0 then bitOf s.xer 0 || ov else if j = 1 then ov else bitOf s.xer j) && bitOf 0xE000FF7F#32 j) := by
    show bitOf (withBit (withBit s.xer 1 ov) 0 (s.so || ov) &&& 0xE000FF7F#32) j = _
    rw [bitOf_and, bitOf_withBit _ _ _ _ (by omega) hj, bitOf_withBit _ _ _ _ (by omega) hj]
    rfl
  constructor
  · rw [written 1 (by omega), show bitOf 0xE000FF7F#32 1 = true by decide]
    simp
  · rw [written 0 (by omega), show bitOf 0xE000FF7F#32 0 = true by decide]
    simp

@[simp] theorem setOverflow_pc (oe : Bool) : (s.setOverflow oe ov).pc = s.pc := by cases oe <;> rfl

end

section
variable {s : State} {rD : Five} {r : Word} {ca oe ov rc : Bool}

theorem arithmeticResult_pc : (s.arithmeticResult rD r ca oe ov rc).pc = s.pc + 4#32 := by
  simp [State.arithmeticResult, State.setCa]

theorem arithmeticResult_xer :
    (s.arithmeticResult rD r ca oe ov rc).xer = (((s.setGpr rD r).setCa ca).setOverflow oe ov).xer := by
  simp [State.arithmeticResult]

/-- The result reads back from `rD`: the flags and CR0 are no registers. -/
theorem arithmeticResult_gprAt : (s.arithmeticResult rD r ca oe ov rc).gprAt rD = r := by
  have flags := (((setXer_unchanged_parts (s.setGpr rD r) _).trans
    (setOverflow_unchanged_parts ((s.setGpr rD r).setCa ca) oe ov)).trans (recordCr0When_unchanged _ r rc)).trans
    (advance_unchanged _)
  have kept : (s.arithmeticResult rD r ca oe ov rc).gprAt rD = (s.setGpr rD r).gprAt rD :=
    flags (.gpr rD) (by cases rc <;> simp [xerParts])
  exact kept.trans (gprAt_setGpr_same s rD r)

/-- CA is written once and left by the write of OV and SO (R242). -/
theorem arithmeticResult_ca : bitOf (s.arithmeticResult rD r ca oe ov rc).xer 2 = ca := by
  have left : bitOf (((s.setGpr rD r).setCa ca).setOverflow oe ov).xer 2 = bitOf ((s.setGpr rD r).setCa ca).xer 2 :=
    setOverflow_unchanged _ oe ov (setCa_reserved _ ca) (.xerBit 2) (by cases oe <;> simp)
  rw [arithmeticResult_xer, left, xer_setCa]

/-- With OE = 1, OV is the overflow and SO collects it (R240, R241). -/
theorem arithmeticResult_overflow :
    bitOf (s.arithmeticResult rD r ca true ov rc).xer 1 = ov ∧
      bitOf (s.arithmeticResult rD r ca true ov rc).xer 0 =
        (bitOf s.xer 0 || bitOf (s.arithmeticResult rD r ca true ov rc).xer 1) := by
  obtain ⟨hov, hso⟩ := xer_setOverflow ((s.setGpr rD r).setCa ca) ov
  rw [arithmeticResult_xer]
  exact ⟨hov, by rw [hso, hov, xer_setCa_so, State.setGpr_xer]⟩

/-- With Rc = 1, CR0 records the result with the SO left in the XER (R210). -/
theorem arithmeticResult_cr0 :
    fieldAt (s.arithmeticResult rD r ca oe ov true).cr 0 =
      orderField ((s.arithmeticResult rD r ca oe ov true).gprAt rD).toInt 0
        (bitOf (s.arithmeticResult rD r ca oe ov true).xer 0) := by
  rw [arithmeticResult_gprAt]
  exact fieldAt_recordCr0 (((s.setGpr rD r).setCa ca).setOverflow oe ov) r

/-- Nothing else is written, when the reserved bits hold nothing. -/
theorem arithmeticResult_unchanged (hs : s.ReservedZero) :
    Unchanged ([.gpr rD, .xerBit 2] ++ (if oe then [.xerBit 0, .xerBit 1] else []) ++ (if rc then [.crField 0] else []))
      s (s.arithmeticResult rD r ca oe ov rc) := by
  obtain ⟨_, hxer, _⟩ := hs
  have written := (setGpr_unchanged s rD r).trans (setCa_unchanged (s.setGpr rD r) ca hxer)
  have flagged := written.trans (setOverflow_unchanged _ oe ov (setCa_reserved _ ca))
  have recorded := flagged.trans (recordCr0When_unchanged _ r rc)
  exact (recorded.trans (advance_unchanged _)).mono (by simp)

end

/-! ## `addic.` (R246) -/

/-- `addic.` in exact terms: the sum, its carry out of the word, CR0 always, OV and SO never (R246). -/
theorem exec_addicDot (rD rA : Five) (simm : BitVec 16) (s : State) :
    exec (.addicDot rD rA simm) s =
      .next (s.arithmeticResult rD (s.gprAt rA + BitVec.ofInt 32 simm.toInt)
        (decide (2 ^ 32 ≤ (s.gprAt rA).toNat + (BitVec.ofInt 32 simm.toInt).toNat)) false false true) := by
  rw [← signedImm_eq]
  have sum : (carrySum (s.gprAt rA) (signedImm simm) false).extractLsb' 0 32 = s.gprAt rA + signedImm simm := by
    rw [carrySum_low]
    exact BitVec.add_zero _
  have carry : (carrySum (s.gprAt rA) (signedImm simm) false).getMsbD 0 =
      decide (2 ^ 32 ≤ (s.gprAt rA).toNat + (signedImm simm).toNat) := carrySum_carry _ _ _
  rw [← sum, ← carry]
  rfl

/-- Settles O11: without OE the SO that CR0 records is the old one. -/
theorem addicDotAddsCarriesAndRecords : Obligations.AddicDotAddsCarriesAndRecords := by
  intro rD rA simm s hs
  have frame := arithmeticResult_unchanged (rD := rD) (r := s.gprAt rA + BitVec.ofInt 32 simm.toInt)
    (ca := decide (2 ^ 32 ≤ (s.gprAt rA).toNat + (BitVec.ofInt 32 simm.toInt).toNat)) (oe := false) (ov := false)
    (rc := true) hs
  have so := frame (.xerBit 0) (by simp)
  exact ⟨_, exec_addicDot rD rA simm s, arithmeticResult_gprAt, arithmeticResult_ca,
    arithmeticResult_cr0.trans (congrArg (orderField _ 0) so), arithmeticResult_pc, frame⟩

/-! ## `subfc` (R244, R245) -/

/-- The complement plus one is the negative: the sum's low word is the difference (R244). -/
theorem carrySum_not_low (a b : Word) : (carrySum (~~~a) b true).extractLsb' 0 32 = b - a := by
  rw [carrySum_low, BitVec.sub_eq_add_neg, BitVec.neg_eq_not_add]
  show ~~~a + b + 1#32 = b + (~~~a + 1#32)
  ac_rfl

/-- The sum carries out exactly when the difference does not borrow (R245). -/
theorem carrySum_not_carry (a b : Word) : (carrySum (~~~a) b true).getMsbD 0 = decide (a.toNat ≤ b.toNat) := by
  have ha := a.isLt
  rw [carrySum_carry, BitVec.toNat_not, decide_eq_decide, Bool.toNat_true]
  omega

/-- The two carries differ exactly when the signed difference does not fit (R241, R245). -/
theorem carries_not_differ (a b : Word) :
    ((carrySum (~~~a) b true).getMsbD 0 != carryOutOfBit1 (~~~a) b true) =
      decide (b.toInt - a.toInt < -2 ^ 31 ∨ 2 ^ 31 ≤ b.toInt - a.toInt) := by
  have complement : (~~~a).toInt = -a.toInt - 1 := by
    have ha := a.isLt
    rw [BitVec.toInt_eq_toNat_cond, BitVec.toInt_eq_toNat_cond, BitVec.toNat_not]
    split <;> split <;> omega
  have difference : (~~~a).toInt + b.toInt + true.toNat = b.toInt - a.toInt := by
    rw [complement, Bool.toNat_true]
    omega
  rw [carries_differ, difference]

/-- `subfc` in exact terms: the sum `~(rA) + (rB) + 1` has the result, carry and overflow of the difference (R245). -/
theorem exec_subfc (rD rA rB : Five) (oe rc : Bool) (s : State) :
    exec (.subfc rD rA rB oe rc) s =
      .next (s.arithmeticResult rD (s.gprAt rB - s.gprAt rA) (decide ((s.gprAt rA).toNat ≤ (s.gprAt rB).toNat)) oe
        (decide ((s.gprAt rB).toInt - (s.gprAt rA).toInt < -2 ^ 31 ∨ 2 ^ 31 ≤ (s.gprAt rB).toInt - (s.gprAt rA).toInt))
        rc) := by
  rw [← carrySum_not_low, ← carries_not_differ, ← carrySum_not_carry]
  rfl

/-- Settles O12: every flag is read off the exact terms. -/
theorem subfcSubtractsWithFlags : Obligations.SubfcSubtractsWithFlags := by
  intro rD rA rB oe rc s hs
  refine ⟨_, exec_subfc rD rA rB oe rc s, arithmeticResult_gprAt, arithmeticResult_ca,
    ?overflow, ?cr0, arithmeticResult_pc, arithmeticResult_unchanged hs⟩
  case overflow =>
    rintro rfl
    exact arithmeticResult_overflow
  case cr0 =>
    rintro rfl
    exact arithmeticResult_cr0

/-! ## Who changes the XER (R50, R240) -/

/-- A frame leaves the part of the XER under a mask that holds none of its bits. -/
theorem Unchanged.xer_and_eq {l : List Part} {s t : State} (h : Unchanged l s t) (m : Word)
    (hl : ∀ j : Five, bitOf m j.toNat = true → Part.xerBit j ∉ l) : t.xer &&& m = s.xer &&& m := by
  apply word_ext
  intro j hj
  rw [bitOf_and, bitOf_and]
  cases hm : bitOf m j with
  | false => simp
  | true =>
    have same := h (.xerBit (BitVec.ofNat 5 j)) (hl _ (by simpa [Nat.mod_eq_of_lt hj] using hm))
    simpa [Part.same, Nat.mod_eq_of_lt hj] using same

/-- A frame that lists no XER bit leaves the XER. -/
theorem Unchanged.xer_eq {l : List Part} {s t : State} (h : Unchanged l s t) (hl : ∀ j, Part.xerBit j ∉ l) :
    t.xer = s.xer := by
  simpa only [BitVec.and_allOnes] using h.xer_and_eq (BitVec.allOnes 32) (fun j _ => hl j)

/-- A frame that lists no XER bit but SO, OV and CA leaves XER[16:23] and BYTES. -/
theorem Unchanged.xer_low_eq {l : List Part} {s t : State} (h : Unchanged l s t)
    (hl : ∀ j, Part.xerBit j ∈ l → j = 0 ∨ j = 1 ∨ j = 2) : t.xer &&& 0x0000FFFF#32 = s.xer &&& 0x0000FFFF#32 := by
  refine h.xer_and_eq _ fun j hm hj => ?_
  rcases hl j hj with rfl | rfl | rfl <;> exact absurd hm (by decide)

/-- An exception entry leaves the XER (R352). -/
theorem take_xer {s t : State} {e : ExceptionKind} {resume : Word} (h : s.take e resume = .next t) : t.xer = s.xer := by
  obtain ⟨_, rfl⟩ := take_next_iff.mp h
  rfl

/-- `mtspr` to any number but 1 has no XER bit in its frame (R100, R285). -/
theorem xerBit_notMem_sprParts {n : BitVec 10} (hn : n ≠ 1) (j : Five) : Part.xerBit j ∉ sprParts n := by
  cases hr : sprOfNumber n with
  | none => simp [sprParts, hr]
  | some r =>
    cases r with
    | xer => exact absurd (BitVec.eq_of_toNat_eq (sprOfNumber_eq_some hr)) hn
    | _ => simp [sprParts, hr, msrParts]

/-- The instructions that have XER bits in their frame: `subfc`, `addic.`, `mcrxr` and `mtspr 1`. -/
def writesXer : Instr → Bool
  | .subfc _ _ _ _ _ | .addicDot _ _ _ | .mcrxr _ => true
  | .mtspr n _ => n == 1
  | _ => false

theorem xerBit_notMem_mayWrite {i : Instr} (hi : writesXer i = false) (j : Five) : Part.xerBit j ∉ mayWrite i := by
  cases i with
  | subfc | addicDot | mcrxr => cases hi
  | mtspr n rS => exact xerBit_notMem_sprParts (by simpa [writesXer] using hi) j
  | _ => simp [mayWrite, selectedFields, msrParts, fpscrParts]

/-- No other instruction changes the XER. -/
theorem exec_xer_of_not_writesXer {i : Instr} {s t : State} (hi : writesXer i = false) (h : exec i s = .next t) :
    t.xer = s.xer := by
  rcases exec_next_cases h with hu | ⟨e, resume, _, ht⟩
  · exact hu.xer_eq (xerBit_notMem_mayWrite hi)
  · exact take_xer ht

/-- Settles O57: the exact frames of `subfc`, `addic.` and `mcrxr` hold no XER bit but SO, OV and CA, and `subfc` only
adds to SO; every other instruction but `mtspr 1` leaves the XER. -/
theorem summaryOverflowIsSticky : Obligations.SummaryOverflowIsSticky := by
  intro i s t hs h hspr
  cases i with
  | subfc rD rA rB oe rc =>
    obtain ⟨_, run, _, _, overflow, _, _, frame⟩ := subfcSubtractsWithFlags rD rA rB oe rc s hs
    obtain rfl := Host.Outcome.next.inj (h.symm.trans run)
    have flags : Unchanged [.gpr rD, .xerBit 0, .xerBit 1, .xerBit 2, .crField 0] s t :=
      frame.mono (by cases oe <;> cases rc <;> simp)
    refine ⟨fun so _ => ?_, flags.xer_low_eq (by simp), fun other _ _ => absurd rfl (other _ _ _ _ _)⟩
    cases oe with
    | true =>
      obtain ⟨_, collected⟩ := overflow rfl
      rw [collected, so, Bool.true_or]
    | false => exact (frame (.xerBit 0) (by cases rc <;> simp)).trans so
  | addicDot rD rA simm =>
    obtain ⟨_, run, _, _, _, _, frame⟩ := addicDotAddsCarriesAndRecords rD rA simm s hs
    obtain rfl := Host.Outcome.next.inj (h.symm.trans run)
    exact ⟨fun so _ => (frame (.xerBit 0) (by simp)).trans so, frame.xer_low_eq (by simp),
      fun _ other _ => absurd rfl (other _ _ _)⟩
  | mcrxr crfD =>
    obtain ⟨_, run, _, _, _, _, _, frame⟩ := mcrxrMovesAndClears crfD s hs
    obtain rfl := Host.Outcome.next.inj (h.symm.trans run)
    exact ⟨fun _ other => absurd rfl (other _), frame.xer_low_eq (by simp), fun _ _ other => absurd rfl (other _)⟩
  | mtspr n rS =>
    have hn : n ≠ 1 := fun e => hspr rS (e ▸ rfl)
    have kept := exec_xer_of_not_writesXer (by simpa [writesXer] using hn) h
    exact ⟨fun so _ => kept ▸ so, by rw [kept], fun _ _ _ => kept⟩
  | _ =>
    have kept := exec_xer_of_not_writesXer rfl h
    exact ⟨fun so _ => kept ▸ so, by rw [kept], fun _ _ _ => kept⟩

end Sys2Proof.Machine

/-! The statements of 43_branches.md: where the four branches go, what they do to the count and to LR, and who changes
LR. -/
namespace Sys2Proof.Machine

/-! ## Targets, the count, and the condition (R155, R261, R263) -/

/-- An absolute branch is a branch relative to address zero. -/
theorem branchTarget_eq (s : State) (aa : Bool) (disp : Word) :
    s.branchTarget aa disp = (if aa then 0#32 else s.pc) + disp := by
  cases aa
  · rfl
  · exact (BitVec.zero_add disp).symm

theorem countAfter_eq (s : State) (bo : Five) :
    s.countAfter bo = if bo.getMsbD 2 then s.ctr else s.ctr - 1#32 := by
  rw [State.countAfter, decrementsCtr]
  cases bo.getMsbD 2 <;> rfl

/-- `ctr_ok` in the words of R155: the exclusive or says that BO[3] asks for a zero count. -/
theorem countTest_iff (bo : Five) (count : Word) :
    countTest bo count = true ↔ bo.getMsbD 2 = true ∨ (bo.getMsbD 3 = true ↔ count = 0#32) := by
  rw [countTest, Bool.or_eq_true]
  refine or_congr_right ?_
  by_cases hcount : count = 0#32 <;> simp [hcount, bne, beq_eq_decide]

/-- `cond_ok` in the words of R155. -/
theorem conditionHolds_iff (s : State) (bo bi : Five) :
    s.conditionHolds bo bi = true ↔ bo.getMsbD 0 = true ∨ s.cr.getMsbD bi.toNat = bo.getMsbD 1 := by
  rw [State.conditionHolds, Bool.or_eq_true, beq_iff_eq, bitOf]

/-- The two tests of a conditional branch together are R155's condition. -/
theorem takenBy_iff (s : State) (bo bi : Five) (count : Word) :
    (countTest bo count && s.conditionHolds bo bi) = true ↔ TakenBy bo bi s.cr count := by
  rw [Bool.and_eq_true, countTest_iff, conditionHolds_iff]

/-! ## The conditional branches (R264, R265, R266) -/

/-- A conditional branch that stores the count it tests: where it goes, the count, the link, and the frame. -/
theorem conditionalBranch_completes (s : State) (bo bi : Five) (count target : Word) (lk : Bool) :
    ∃ t, (.next (s.conditionalBranch count (countTest bo count && s.conditionHolds bo bi) target lk) : Result) = .next t ∧
      t.pc = (if TakenBy bo bi s.cr count then target else s.pc + 4#32) ∧
      t.ctr = count ∧ t.lr = (if lk then s.pc + 4#32 else s.lr) ∧ Unchanged [.lr, .ctr] s t :=
  ⟨_, rfl, if_congr (takenBy_iff s bo bi count) rfl rfl, rfl, rfl, conditionalBranch_unchanged s _ _ _ _⟩

/-- Settles O30: the count that is tested and stored is the decremented one. -/
theorem branchConditional : Obligations.BranchConditional := by
  rintro bo bi bd aa lk s count rfl
  rw [← displacement14_eq, ← branchTarget_eq, ← countAfter_eq]
  exact conditionalBranch_completes s bo bi (s.countAfter bo) _ lk

/-- Settles O31: the target is taken from LR before the link is written. -/
theorem branchToLinkRegister : Obligations.BranchToLinkRegister := by
  rintro bo bi lk s count rfl
  rw [← instructionAddress_eq, ← countAfter_eq]
  exact conditionalBranch_completes s bo bi (s.countAfter bo) _ lk

/-- A listed piece that is the same in both states need not be listed. -/
theorem Unchanged.mono_of_same {l l' : List Part} {s t : State} (h : Unchanged l s t)
    (hl : ∀ p ∈ l, p ∈ l' ∨ p.same s t) : Unchanged l' s t := by
  intro p hp
  by_cases hm : p ∈ l
  · exact (hl p hm).resolve_left hp
  · exact h p hm

/-- With BO[2] = 1, `bcctr` is the conditional branch that stores the count it found (R266). -/
theorem exec_bcctr_of_no_decrement {bo : Five} (h : bo.getMsbD 2 = true) (bi : Five) (lk : Bool) (s : State) :
    exec (.bcctr bo bi lk) s = .next (s.conditionalBranch s.ctr (countTest bo s.ctr && s.conditionHolds bo bi)
      (instructionAddress s.ctr) lk) := by
  have passes : countTest bo s.ctr = true := (countTest_iff bo s.ctr).mpr (.inl h)
  rw [passes, Bool.true_and]
  exact if_neg (by simp [decrementsCtr, h])

/-- With BO[2] = 0, `bcctr` is refused (R266, decision D17). -/
theorem exec_bcctr_of_decrement {bo : Five} (h : bo.getMsbD 2 = false) (bi : Five) (lk : Bool) (s : State) :
    exec (.bcctr bo bi lk) s = .refused .bcctrWithDecrement :=
  if_pos (by simp [decrementsCtr, h])

/-- Settles O32: the count that is stored is the old one, so CTR leaves the frame of a conditional branch. -/
theorem branchToCountRegister : Obligations.BranchToCountRegister := by
  intro bo bi lk s
  refine ⟨fun noDecrement => ?_, fun decrement => exec_bcctr_of_decrement decrement bi lk s⟩
  obtain ⟨t, run, pc, ctr, lr, frame⟩ := conditionalBranch_completes s bo bi s.ctr (instructionAddress s.ctr) lk
  rw [← instructionAddress_eq]
  exact ⟨t, (exec_bcctr_of_no_decrement noDecrement bi lk s).trans run, pc, lr,
    frame.mono_of_same (by simp [Part.same, ctr])⟩

/-! ## `b` (R263) -/

/-- Settles O29: the link is written before the branch and does not move `pc`. -/
theorem branchGoesToTarget : Obligations.BranchGoesToTarget := by
  intro li aa lk s
  rw [← displacement24_eq, ← branchTarget_eq]
  exact ⟨_, rfl, rfl, rfl, (link_unchanged s lk).trans (branchTo_unchanged _ _)⟩

/-! ## Who changes LR (R262, R286) -/

/-- An exception entry leaves LR (R352). -/
theorem take_lr {s t : State} {e : ExceptionKind} {resume : Word} (h : s.take e resume = .next t) : t.lr = s.lr := by
  obtain ⟨_, rfl⟩ := take_next_iff.mp h
  rfl

/-- An instruction without LR in its frame leaves LR, whether it completes or enters an exception. -/
theorem exec_lr_of_notMem {i : Instr} {s t : State} (hl : Part.lr ∉ mayWrite i) (h : exec i s = .next t) :
    t.lr = s.lr := by
  rcases exec_next_cases h with hu | ⟨e, resume, _, ht⟩
  · exact hu .lr hl
  · exact take_lr ht

/-- `mtspr` to any number but 8 has LR outside its frame (R100, R286). -/
theorem lr_notMem_sprParts {n : BitVec 10} (hn : n ≠ 8) : Part.lr ∉ sprParts n := by
  cases hr : sprOfNumber n with
  | none => simp [sprParts, hr]
  | some r =>
    cases r with
    | lr => exact absurd (BitVec.eq_of_toNat_eq (sprOfNumber_eq_some hr)) hn
    | _ => simp [sprParts, hr, xerParts, msrParts]

/-- What holds of the state an instruction is shown to complete in holds of the state it does complete in. -/
theorem of_exec_completes {i : Instr} {s t : State} {P : State → Prop} (h : exec i s = .next t)
    (completes : ∃ u, exec i s = .next u ∧ P u) : P t := by
  obtain ⟨u, run, hu⟩ := completes
  obtain rfl := Host.Outcome.next.inj (h.symm.trans run)
  exact hu

/-- LR after `mtspr`: number 8 is a user-level register and is written whole (R283, R286). -/
theorem exec_mtspr_lr {n : BitVec 10} {rS : Five} {s t : State} (h : exec (.mtspr n rS) s = .next t) :
    t.lr = if n = 8#10 then s.gprAt rS else s.lr := by
  split
  next hn =>
    subst hn
    have run : exec (.mtspr 8 rS) s = .next (State.advance { s with lr := s.gprAt rS }) := rfl
    exact of_exec_completes (P := fun u => u.lr = s.gprAt rS) h ⟨_, run, rfl⟩
  next hn => exact exec_lr_of_notMem (i := .mtspr n rS) (lr_notMem_sprParts hn) h

/-- Settles O33: the four branches link as O29 to O32 say, `mtspr` writes LR by its number, and no other instruction
has LR in its frame. -/
theorem linkRegisterIsWrittenByLinkAndMove : Obligations.LinkRegisterIsWrittenByLinkAndMove := by
  intro i s t h
  cases i with
  | b li aa lk =>
    obtain ⟨_, lr, _⟩ := of_exec_completes h (branchGoesToTarget li aa lk s)
    exact lr
  | bc bo bi bd aa lk =>
    obtain ⟨_, _, lr, _⟩ := of_exec_completes h (branchConditional bo bi bd aa lk s _ rfl)
    exact lr
  | bclr bo bi lk =>
    obtain ⟨_, _, lr, _⟩ := of_exec_completes h (branchToLinkRegister bo bi lk s _ rfl)
    exact lr
  | bcctr bo bi lk =>
    obtain ⟨completes, refused⟩ := branchToCountRegister bo bi lk s
    cases hbo : bo.getMsbD 2 with
    | true =>
      obtain ⟨_, lr, _⟩ := of_exec_completes h (completes hbo)
      exact lr
    | false => cases h.symm.trans (refused hbo)
  | mtspr n rS => exact exec_mtspr_lr h
  | _ => exact exec_lr_of_notMem (by simp [mayWrite, selectedFields, xerParts, msrParts, fpscrParts]) h

end Sys2Proof.Machine

/-! The statements of 44_spr_access.md: what `mtspr`, `mfspr` and `mftb` do to each register they can name, which numbers
they refuse, and that DSISR, DAR and the SPRGs have no other writer. -/
namespace Sys2Proof.Machine

/-! ## The numbers (R100, R298) -/

/-- A number that names a register is the number of that register. -/
theorem eq_ofNat_sprNumber {n : BitVec 10} {q : Spr} (h : sprOfNumber n = some q) : n = BitVec.ofNat 10 (sprNumber q) := by
  rw [← sprOfNumber_eq_some h, BitVec.ofNat_toNat, BitVec.setWidth_eq]

/-- No two numbers name the same register. -/
theorem sprOfNumber_injective {m n : BitVec 10} {q : Spr} (hm : sprOfNumber m = some q) (hn : sprOfNumber n = some q) :
    n = m :=
  (eq_ofNat_sprNumber hn).trans (eq_ofNat_sprNumber hm).symm

/-- Every number that names a register is listed for writing. -/
theorem mem_writeNumbers {n : BitVec 10} {q : Spr} (h : sprOfNumber n = some q) :
    n ∈ supervisorWriteNumbers ++ userNumbers := by
  rw [eq_ofNat_sprNumber h]
  cases q with
  | unit u => cases u <;> decide
  | _ => decide

/-- Reading excludes the write numbers of the time base and nothing else (R290). -/
theorem sprForRead_eq_some_iff {n : BitVec 10} {q : Spr} :
    sprForRead n = some q ↔ sprOfNumber n = some q ∧ q ≠ .tbl ∧ q ≠ .tbu := by
  unfold sprForRead
  cases sprOfNumber n with
  | none => simp
  | some p => cases p <;> simp <;> rintro rfl <;> simp

/-- Every number that names a register for reading is listed for reading. -/
theorem mem_readNumbers {n : BitVec 10} {q : Spr} (h : sprForRead n = some q) :
    n ∈ supervisorReadNumbers ++ userNumbers := by
  obtain ⟨hn, notTbl, notTbu⟩ := sprForRead_eq_some_iff.mp h
  rw [eq_ofNat_sprNumber hn]
  cases q with
  | tbl => exact absurd rfl notTbl
  | tbu => exact absurd rfl notTbu
  | unit u => cases u <;> decide
  | _ => decide

/-- The TBR numbers are 268 and 269 (R282). -/
theorem mem_tbrNumbers {n : BitVec 10} {half : Tbr} (h : tbrOfNumber n = some half) :
    n ∈ ([268, 269] : List (BitVec 10)) := by
  unfold tbrOfNumber at h
  split at h
  next hn => exact List.mem_cons.mpr (.inl (BitVec.eq_of_toNat_eq hn))
  next hn => exact List.mem_cons_of_mem _ (List.mem_singleton.mpr (BitVec.eq_of_toNat_eq hn))
  next => cases h

/-- The numbers of R297 name registers that the spec does not describe. -/
theorem undescribed_names_unit {n : BitVec 10} (h : n ∈ undescribedNumbers) :
    ∃ u, sprOfNumber n = some (.unit u) := by
  fin_cases h <;> exact ⟨_, rfl⟩

/-! ## Refusals, in the order of the checks (R280, R281) -/

/-- Settles O41: a number that names no register is refused before the level is looked at. -/
theorem unlistedNumbersAreRefused : Obligations.UnlistedNumbersAreRefused := by
  intro n r s
  refine ⟨fun unlisted => ?_, fun unlisted => ?_, fun unlisted => ?_⟩
  · have none_named : sprOfNumber n = none := Option.eq_none_iff_forall_ne_some.mpr fun _ h => unlisted (mem_writeNumbers h)
    rw [exec, execMtspr, none_named]
  · have none_named : sprForRead n = none := Option.eq_none_iff_forall_ne_some.mpr fun _ h => unlisted (mem_readNumbers h)
    rw [exec, execMfspr, none_named]
  · have none_named : tbrOfNumber n = none := Option.eq_none_iff_forall_ne_some.mpr fun _ h => unlisted (mem_tbrNumbers h)
    rw [exec, execMftb, none_named]

/-- At user level `mtspr` to a supervisor-level register is the program exception (R283). -/
theorem exec_mtspr_of_user {n : BitVec 10} {q : Spr} {s : State} (r : Five) (hn : sprOfNumber n = some q)
    (hq : sprSupervisor q = true) (hp : s.pr = true) : exec (.mtspr n r) s = s.take .program s.pc := by
  rw [exec, execMtspr, hn]
  exact if_pos (by rw [hq, hp]; rfl)

/-- At user level `mfspr` from a supervisor-level register is the program exception (R283). -/
theorem exec_mfspr_of_user {n : BitVec 10} {q : Spr} {s : State} (r : Five) (hn : sprForRead n = some q)
    (hq : sprSupervisor q = true) (hp : s.pr = true) : exec (.mfspr r n) s = s.take .program s.pc := by
  rw [exec, execMfspr, hn]
  exact if_pos (by rw [hq, hp]; rfl)

/-- At supervisor level `mtspr` to an undescribed register is refused (R297). -/
theorem exec_mtspr_unit {n : BitVec 10} {u : UnitReg} {s : State} (r : Five) (hn : sprOfNumber n = some (.unit u))
    (hp : s.pr = false) : exec (.mtspr n r) s = .refused (.undescribedRegister u) := by
  rw [exec, execMtspr, hn]
  exact if_neg (by rw [hp]; simp)

/-- At supervisor level `mfspr` from an undescribed register is refused (R297). -/
theorem exec_mfspr_unit {n : BitVec 10} {u : UnitReg} {s : State} (r : Five) (hn : sprForRead n = some (.unit u))
    (hp : s.pr = false) : exec (.mfspr r n) s = .refused (.undescribedRegister u) := by
  rw [exec, execMfspr, hn]
  exact if_neg (by rw [hp]; simp)

/-- At supervisor level `mtspr` to PVR is refused (R296). -/
theorem exec_mtspr_pvr {s : State} (r : Five) (hp : s.pr = false) :
    exec (.mtspr 287 r) s = .refused .readOnlyPvr :=
  if_neg (show ¬ (sprSupervisor .pvr && s.pr) = true by rw [hp]; simp)

/-- At supervisor level `mfspr` from EIE, EID and NRI is the software emulation exception (R292, R365). -/
theorem exec_mfspr_eieEidNri {n : BitVec 10} {q : Spr} {s : State} (r : Five) (hn : sprForRead n = some q)
    (hq : sprWritesMsr q = true) (hp : s.pr = false) : exec (.mfspr r n) s = s.take .softwareEmulation s.pc := by
  rw [exec, execMfspr, hn]
  refine (if_neg (by rw [hp]; simp)).trans ?_
  cases q with
  | eie | eid | nri => rfl
  | _ => cases hq

/-- An instruction that takes an exception at its own address enters it, with MSR[ILE] = 0. -/
theorem exec_enters {i : Instr} {s : State} {e : ExceptionKind} (hr : s.ReservedZero) (hile : bitOf s.msr 15 = false)
    (he : e ≠ .decrementer) (run : exec i s = s.take e s.pc) :
    ∃ t, exec i s = .next t ∧ EntersException e.offset s.pc [] s t := by
  obtain ⟨t, ht⟩ := take_of_ile e s.pc hile
  exact ⟨t, run.trans ht, entersException_of_take hr ht fun h => absurd h he⟩

/-- Settles O42: the number names an undescribed register, in either direction; the level decides between the refusal
and the program exception. -/
theorem undescribedRegistersAreRefused : Obligations.UndescribedRegistersAreRefused := by
  intro n r s hn
  obtain ⟨u, writes⟩ := undescribed_names_unit hn
  have reads : sprForRead n = some (.unit u) := sprForRead_eq_some_iff.mpr ⟨writes, by simp⟩
  refine ⟨fun supervisor => ⟨u, writes, exec_mtspr_unit r writes supervisor, exec_mfspr_unit r reads supervisor⟩,
    fun hr user hile => ⟨?_, ?_⟩⟩
  · exact exec_enters (e := .program) hr hile (by simp) (exec_mtspr_of_user r writes rfl user)
  · exact exec_enters (e := .program) hr hile (by simp) (exec_mfspr_of_user r reads rfl user)

/-! ## Reads and writes that complete -/

/-- The end of every read: the GPR holds the value, and nothing else changed (R281, R282). -/
theorem setGpr_advance_reads (s : State) (r : Five) (v : Word) :
    (s.setGpr r v).advance.gprAt r = v ∧ (s.setGpr r v).advance.pc = s.pc + 4#32 ∧
      Unchanged [.gpr r] s (s.setGpr r v).advance :=
  ⟨gprAt_setGpr_same s r v, rfl, (setGpr_unchanged s r v).trans (advance_unchanged _)⟩

/-- A read at supervisor level of a register that has a value (R281). -/
theorem mfspr_reads {n : BitVec 10} {q : Spr} {s : State} {v : Word} (r : Five) (hn : sprForRead n = some q)
    (hp : s.pr = false) (hv : s.sprValue q = some v) :
    ∃ t, exec (.mfspr r n) s = .next t ∧ t.gprAt r = v ∧ t.pc = s.pc + 4#32 ∧ Unchanged [.gpr r] s t :=
  ⟨_, mfspr_completes hn hp hv, setGpr_advance_reads s r v⟩

/-- No write of a special-purpose register moves `pc` (R280). -/
theorem sprWritten_pc {s u : State} {q : Spr} {v : Word} (h : s.sprWritten q v = some u) : u.pc = s.pc := by
  cases q <;> cases h <;> rfl

/-- The end of every write: `pc` moves on, and nothing but the register's own pieces changed (R280). -/
theorem sprWritten_advance {n : BitVec 10} {q : Spr} {s u : State} {v : Word} (hn : sprOfNumber n = some q)
    (hu : s.sprWritten q v = some u) : u.advance.pc = s.pc + 4#32 ∧ Unchanged (sprParts n) s u.advance :=
  ⟨congrArg (· + 4#32) (sprWritten_pc hu), ((sprWritten_unchanged hn hu).trans (advance_unchanged u)).mono (by simp)⟩

/-- A write at supervisor level of a register other than EIE, EID and NRI needs no check at its end (R186, R280). -/
theorem exec_mtspr_writes {n : BitVec 10} {q : Spr} {r : Five} {s u : State} (hn : sprOfNumber n = some q)
    (hp : s.pr = false) (hq : sprWritesMsr q = false) (hu : s.sprWritten q (s.gprAt r) = some u) :
    exec (.mtspr n r) s = .next u.advance :=
  mtspr_completes hn hp hu fun h => by simp [hq] at h

/-- Settles O34: the level is not looked at for a user-level register, so each move runs as its definition says. -/
theorem userRegistersMove : Obligations.UserRegistersMove := by
  intro r s
  refine ⟨⟨_, rfl, rfl, sprWritten_advance (n := 1) rfl rfl⟩, ⟨_, rfl, rfl, sprWritten_advance (n := 8) rfl rfl⟩,
    ⟨_, rfl, rfl, sprWritten_advance (n := 9) rfl rfl⟩, ?_, ⟨_, rfl, setGpr_advance_reads s r s.lr⟩,
    ⟨_, rfl, setGpr_advance_reads s r s.ctr⟩⟩
  obtain ⟨reads, pc, frame⟩ := setGpr_advance_reads s r s.xer
  exact ⟨_, rfl, reads, fun ⟨_, xer_reserved, _⟩ => by rw [reads, xer_reserved], pc, frame⟩

/-- Settles O39: PVR has a value to read and nothing to write. -/
theorem pvrIsReadOnly : Obligations.PvrIsReadOnly :=
  fun r _ supervisor => ⟨mfspr_reads r (q := .pvr) rfl supervisor rfl, exec_mtspr_pvr r supervisor⟩

/-! ## DEC and the time base (R282, R288, R290) -/

/-- Bit 0 of a word is its sign. -/
theorem bitOf_sign (v : Word) : bitOf v 0 = decide (v.toInt < 0) := BitVec.msb_eq_toInt

/-- A new DEC value signals a request when its sign goes from 0 to 1, and cancels none (R78, R288). -/
theorem setDec_request_iff (s : State) (v : Word) :
    (s.setDec v).decReq = true ↔ s.decReq = true ∨ (0 ≤ s.dec.toInt ∧ v.toInt < 0) := by
  simp [State.setDec, bitOf_sign]

/-- Settles O36: a write of DEC is the same operation as counting, with the request rule of R78. -/
theorem decrementerMoves : Obligations.DecrementerMoves := by
  intro r s supervisor
  exact ⟨⟨_, exec_mtspr_writes (q := .dec) rfl supervisor rfl rfl, rfl, setDec_request_iff s _,
    sprWritten_advance (n := 22) rfl rfl⟩, mfspr_reads r (q := .dec) rfl supervisor rfl⟩

/-- Settles O37: a half is written beside the other half as it stands; the numbers of the other direction are unlisted. -/
theorem timeBaseHalvesAreWrittenApart : Obligations.TimeBaseHalvesAreWrittenApart := by
  intro r s
  have readNumbers_unlisted : ∀ n ∈ ([268, 269] : List (BitVec 10)),
      n ∉ supervisorWriteNumbers ++ userNumbers ∧ n ∉ supervisorReadNumbers ++ userNumbers := by decide
  have writeNumbers_unlisted : ∀ n ∈ ([284, 285] : List (BitVec 10)),
      n ∉ supervisorReadNumbers ++ userNumbers ∧ n ∉ ([268, 269] : List (BitVec 10)) := by decide
  refine ⟨fun supervisor => ⟨?_, ?_⟩, fun n hn => ?_, fun n hn => ?_⟩
  · exact ⟨_, exec_mtspr_writes (q := .tbl) rfl supervisor rfl rfl, tbl_setTbl s _, sprWritten_advance (n := 284) rfl rfl⟩
  · exact ⟨_, exec_mtspr_writes (q := .tbu) rfl supervisor rfl rfl, tbu_setTbu s _, sprWritten_advance (n := 285) rfl rfl⟩
  · obtain ⟨mtspr, mfspr, _⟩ := unlistedNumbersAreRefused n r s
    obtain ⟨notWritten, notRead⟩ := readNumbers_unlisted n hn
    exact ⟨mtspr notWritten, mfspr notRead⟩
  · obtain ⟨_, mfspr, mftb⟩ := unlistedNumbersAreRefused n r s
    obtain ⟨notRead, notTbr⟩ := writeNumbers_unlisted n hn
    exact ⟨mfspr notRead, mftb notTbr⟩

/-- TBL is the low half of the count (R60). -/
theorem tbl_toNat (s : State) : s.tbl.toNat = s.tb.toNat % 2 ^ 32 := by
  simp [State.tbl]

/-- TBU is the high half of the count (R60). -/
theorem tbu_toNat (s : State) : s.tbu.toNat = s.tb.toNat / 2 ^ 32 := by
  have := s.tb.isLt
  rw [State.tbu, BitVec.extractLsb'_toNat, Nat.shiftRight_eq_div_pow]
  omega

/-- Settles O43: the two halves as numbers, each read as every GPR write ends. -/
theorem mftbReadsOneHalf : Obligations.MftbReadsOneHalf := by
  intro r s
  obtain ⟨lower, lowerFrame⟩ := setGpr_advance_reads s r s.tbl
  obtain ⟨upper, upperFrame⟩ := setGpr_advance_reads s r s.tbu
  exact ⟨⟨_, rfl, by rw [lower, tbl_toNat], lowerFrame⟩, ⟨_, rfl, by rw [upper, tbu_toNat], upperFrame⟩⟩

/-! ## EIE, EID and NRI (R292) -/

/-- What EIE, EID and NRI do to the MSR, for the values they give MSR[EE] and MSR[RI]. -/
def State.setEeRi (s : State) (ee ri : Bool) : State := s.setMsr (withBit (withBit s.msr 16 ee) 30 ri)

/-- The MSR after it, bit by bit: EE and RI are defined bits, and a reserved bit that holds nothing stays so. -/
theorem bitOf_setEeRi {s : State} (hr : s.ReservedZero) (ee ri : Bool) {j : Nat} (hj : j < 32) :
    bitOf (s.setEeRi ee ri).msr j = if j = 30 then ri else if j = 16 then ee else bitOf s.msr j := by
  have kept : (bitOf s.msr j && bitOf 0x0001FF43#32 j) = bitOf s.msr j := by rw [← bitOf_and, msr_mask_self hr]
  rw [State.setEeRi, State.setMsr_msr, bitOf_and, bitOf_withBit _ _ _ _ (by omega) hj,
    bitOf_withBit _ _ _ _ (by omega) hj]
  split
  next h => subst h; simp [bitOf]
  next =>
    split
    next h => subst h; simp [bitOf]
    next => exact kept

theorem setEeRi_unchanged {s : State} (hr : s.ReservedZero) (ee ri : Bool) :
    Unchanged [.msrBit 16, .msrBit 30] s (s.setEeRi ee ri) := by
  apply setMsr_unchanged
  intro j hj
  have not_ee : j.toNat ≠ 16 := fun e => hj (by simp [BitVec.eq_of_toNat_eq (x := j) (y := 16#5) e])
  have not_ri : j.toNat ≠ 30 := fun e => hj (by simp [BitVec.eq_of_toNat_eq (x := j) (y := 30#5) e])
  have bit := bitOf_setEeRi hr ee ri j.isLt
  rwa [if_neg not_ri, if_neg not_ee] at bit

/-- Neither EE nor RI decides what is due (R348). -/
theorem setEeRi_not_due {s : State} (hr : s.ReservedZero) (hd : s.fpExceptionDue = false) (ee ri : Bool) :
    (s.setEeRi ee ri).fpExceptionDue = false := by
  have fe0 := bitOf_setEeRi hr ee ri (j := 20) (by omega)
  have fe1 := bitOf_setEeRi hr ee ri (j := 23) (by omega)
  rw [fpExceptionDue_eq] at hd ⊢
  rw [fe0, fe1]
  exact hd

/-- A write at supervisor level of a register that sets EE and RI completes when no exception is due (R186, R292). -/
theorem mtspr_sets_eeRi {n : BitVec 10} {q : Spr} {s : State} {r : Five} {ee ri : Bool} (hr : s.ReservedZero)
    (hd : s.fpExceptionDue = false) (hn : sprOfNumber n = some q) (hp : s.pr = false)
    (hq : s.sprWritten q (s.gprAt r) = some (s.setEeRi ee ri)) :
    ∃ t, exec (.mtspr n r) s = .next t ∧ bitOf t.msr 16 = ee ∧ bitOf t.msr 30 = ri ∧ t.pc = s.pc + 4#32 ∧
      Unchanged [.msrBit 16, .msrBit 30] s t :=
  ⟨_, mtspr_completes hn hp hq fun _ => setEeRi_not_due hr hd ee ri, bitOf_setEeRi hr ee ri (j := 16) (by omega),
    bitOf_setEeRi hr ee ri (j := 30) (by omega), rfl, (setEeRi_unchanged hr ee ri).trans (advance_unchanged _)⟩

/-- Settles O38: the three writes differ in the values for EE and RI only, and none of the three has a value to read. -/
theorem eieEidNriSetEeAndRi : Obligations.EieEidNriSetEeAndRi := by
  intro r s hr supervisor
  refine ⟨fun notDue => ⟨?_, ?_, ?_⟩, fun hile n hn => ?_⟩
  · exact mtspr_sets_eeRi hr notDue (q := .eie) rfl supervisor rfl
  · exact mtspr_sets_eeRi hr notDue (q := .eid) rfl supervisor rfl
  · exact mtspr_sets_eeRi hr notDue (q := .nri) rfl supervisor rfl
  · have named : ∃ q, sprForRead n = some q ∧ sprWritesMsr q = true := by
      fin_cases hn <;> exact ⟨_, rfl, rfl⟩
    obtain ⟨q, reads, writesMsr⟩ := named
    exact exec_enters (e := .softwareEmulation) hr hile (by simp) (exec_mfspr_eieEidNri r reads writesMsr supervisor)

/-! ## Storage at supervisor level (R287) -/

/-- `q` is 32 bits of storage under the number `n`: it reads as `content`, a write leaves the value written there, and
writes the one piece `p`. -/
structure IsStorage (n : BitVec 10) (p : Part) (content : State → Word) (q : Spr) : Prop where
  writes : sprOfNumber n = some q
  reads : sprForRead n = some q
  parts : sprParts n = [p]
  notMsr : sprWritesMsr q = false
  value : ∀ s : State, s.sprValue q = some (content s)
  written : ∀ (s : State) (v : Word), ∃ u, s.sprWritten q v = some u ∧ content u.advance = v

theorem storageSprs_isStorage : ∀ row ∈ storageSprs, ∃ q, IsStorage row.1 row.2.1 row.2.2 q := by
  simp only [storageSprs, List.forall_mem_cons, List.not_mem_nil, false_implies, implies_true, and_true]
  exact ⟨⟨.dsisr, rfl, rfl, rfl, rfl, fun _ => rfl, fun _ _ => ⟨_, rfl, rfl⟩⟩,
    ⟨.dar, rfl, rfl, rfl, rfl, fun _ => rfl, fun _ _ => ⟨_, rfl, rfl⟩⟩,
    ⟨.srr0, rfl, rfl, rfl, rfl, fun _ => rfl, fun _ _ => ⟨_, rfl, rfl⟩⟩,
    ⟨.srr1, rfl, rfl, rfl, rfl, fun _ => rfl, fun s v => ⟨_, rfl, srr1_setSrr1 s v⟩⟩,
    ⟨.sprg0, rfl, rfl, rfl, rfl, fun _ => rfl, fun _ _ => ⟨_, rfl, rfl⟩⟩,
    ⟨.sprg1, rfl, rfl, rfl, rfl, fun _ => rfl, fun _ _ => ⟨_, rfl, rfl⟩⟩,
    ⟨.sprg2, rfl, rfl, rfl, rfl, fun _ => rfl, fun _ _ => ⟨_, rfl, rfl⟩⟩,
    ⟨.sprg3, rfl, rfl, rfl, rfl, fun _ => rfl, fun _ _ => ⟨_, rfl, rfl⟩⟩⟩

/-- The register whose `mtspr` alone writes the piece: SRR0 and SRR1 are left out, because an exception entry writes them
too (R352). -/
def onlySprWriter : Part → Option Spr
  | .dsisr => some .dsisr
  | .dar => some .dar
  | .sprg0 => some .sprg0
  | .sprg1 => some .sprg1
  | .sprg2 => some .sprg2
  | .sprg3 => some .sprg3
  | _ => none

theorem storageSprs_onlySprWriter : ∀ row ∈ storageSprs, row.1 ≠ 26#10 → row.1 ≠ 27#10 →
    ∃ q, sprOfNumber row.1 = some q ∧ onlySprWriter row.2.1 = some q := by
  simp [storageSprs, onlySprWriter, sprOfNumber]

/-- An exception entry leaves these pieces (R352, decision D4). -/
theorem take_keeps_onlySprWriter {s t : State} {e : ExceptionKind} {resume : Word} {p : Part} {q : Spr}
    (hp : onlySprWriter p = some q) (h : s.take e resume = .next t) : p.same s t := by
  obtain ⟨_, rfl⟩ := take_next_iff.mp h
  cases p with
  | dsisr | dar | sprg0 | sprg1 | sprg2 | sprg3 => rfl
  | _ => cases hp

/-- A number whose `mtspr` may write the piece names its register: no other register's frame holds it (R100). -/
theorem sprOfNumber_of_mem_sprParts {n : BitVec 10} {p : Part} {q : Spr} (hp : onlySprWriter p = some q)
    (h : p ∈ sprParts n) : sprOfNumber n = some q := by
  unfold sprParts at h
  cases p with
  | dsisr | dar | sprg0 | sprg1 | sprg2 | sprg3 =>
    cases hp
    split at h
    all_goals simp_all [xerParts, msrParts]
  | _ => cases hp

/-- Every instruction but the `mtspr` of the register has the piece outside its frame. -/
theorem notMem_mayWrite_of_onlySprWriter {n : BitVec 10} {i : Instr} {p : Part} {q : Spr} (hp : onlySprWriter p = some q)
    (hn : sprOfNumber n = some q) (hi : ∀ r, i ≠ .mtspr n r) : p ∉ mayWrite i := by
  cases i with
  | mtspr m r =>
    intro h
    obtain rfl := sprOfNumber_injective hn (sprOfNumber_of_mem_sprParts hp h)
    exact hi r rfl
  | _ =>
    cases p with
    | dsisr | dar | sprg0 | sprg1 | sprg2 | sprg3 => simp [mayWrite, selectedFields, xerParts, msrParts, fpscrParts]
    | _ => cases hp

/-- Settles O35: each of the eight is storage; and an instruction that completes stays inside its frame, where DSISR, DAR
and the SPRGs are only with their own `mtspr`, or enters an exception, which leaves them. -/
theorem supervisorStorageMoves : Obligations.SupervisorStorageMoves := by
  refine ⟨fun row hrow r s supervisor => ?_, fun row hrow notSrr0 notSrr1 i s t h other => ?_⟩
  · obtain ⟨q, storage⟩ := storageSprs_isStorage row hrow
    obtain ⟨u, written, content⟩ := storage.written s (s.gprAt r)
    exact ⟨⟨_, exec_mtspr_writes storage.writes supervisor storage.notMsr written, content,
      storage.parts ▸ sprWritten_advance storage.writes written⟩, mfspr_reads r storage.reads supervisor (storage.value s)⟩
  · obtain ⟨q, writes, onlyWriter⟩ := storageSprs_onlySprWriter row hrow notSrr0 notSrr1
    rcases exec_next_cases h with hu | ⟨e, resume, _, ht⟩
    · exact hu row.2.1 (notMem_mayWrite_of_onlySprWriter onlyWriter writes other)
    · exact take_keeps_onlySprWriter onlyWriter ht

end Sys2Proof.Machine

/-! The statements of 45_msr_access.md: what `mfmsr`, `mtmsr`, `sc` and `rfi` do, and when the check at the end of a write
of the MSR refuses. -/
namespace Sys2Proof.Machine

/-! ## The check at the end of a write of the MSR (R186, R348) -/

theorem finishChecked_of_due {u : State} (h : u.fpExceptionDue = true) :
    u.finishChecked = .refused .fpEnabledException := if_pos h

theorem finishChecked_of_not_due {u : State} (h : ¬ u.fpExceptionDue = true) : u.finishChecked = .next u := if_neg h

/-- An enabled exception is due when FE0 or FE1 is set and FEX reads 1 (R70, R348). -/
theorem fpExceptionDue_iff (u : State) :
    u.fpExceptionDue = true ↔ (bitOf u.msr 20 = true ∨ bitOf u.msr 23 = true) ∧ bitOf u.fpscrRead 1 = true := by
  rw [fpExceptionDue_eq, Bool.and_eq_true, Bool.or_eq_true]

/-- FE0 and FE1 are defined bits of the MSR, so a write takes both from the value written (R66). -/
theorem setMsr_advance_due_iff (s : State) (v : Word) : (s.setMsr v).advance.fpExceptionDue = true ↔
    (bitOf v 20 = true ∨ bitOf v 23 = true) ∧ bitOf s.fpscrRead 1 = true := by
  have fe0 : bitOf (s.setMsr v).advance.msr 20 = bitOf v 20 := by simp [bitOf]
  have fe1 : bitOf (s.setMsr v).advance.msr 23 = bitOf v 23 := by simp [bitOf]
  rw [fpExceptionDue_iff, fe0, fe1]
  rfl

/-- FE0 and FE1 are among the bits that a return takes from SRR1 (R316). -/
theorem returnFromException_due_iff (s : State) : s.returnFromException.fpExceptionDue = true ↔
    (bitOf s.srr1 20 = true ∨ bitOf s.srr1 23 = true) ∧ bitOf s.fpscrRead 1 = true := by
  have fe0 : bitOf s.returnFromException.msr 20 = bitOf s.srr1 20 := by
    rw [bitOf_restored s 20 (by omega)]; simp [bitOf]
  have fe1 : bitOf s.returnFromException.msr 23 = bitOf s.srr1 23 := by
    rw [bitOf_restored s 23 (by omega)]; simp [bitOf]
  rw [fpExceptionDue_iff, fe0, fe1]
  rfl

/-! ## Reading and writing the MSR (R310, R311) -/

theorem exec_mfmsr {s : State} (r : Five) (hp : s.pr = false) :
    exec (.mfmsr r) s = .next (s.setGpr r s.msr).advance := if_neg (by rw [hp]; simp)

theorem exec_mtmsr {s : State} (r : Five) (hp : s.pr = false) :
    exec (.mtmsr r) s = (s.setMsr (s.gprAt r)).advance.finishChecked := if_neg (by rw [hp]; simp)

/-- Settles O44: the read ends as every GPR write; the two clauses on `mtmsr` are the two answers of the check at its
end. -/
theorem msrMoves : Obligations.MsrMoves := by
  intro r s supervisor
  have due_iff := setMsr_advance_due_iff s (s.gprAt r)
  refine ⟨⟨_, exec_mfmsr r supervisor, setGpr_advance_reads s r s.msr⟩, fun notDue => ?_, fun due => ?_⟩
  · exact ⟨_, (exec_mtmsr r supervisor).trans (finishChecked_of_not_due (mt due_iff.mp notDue)), rfl, rfl,
      (setMsr_unchanged_parts s _).trans (advance_unchanged _)⟩
  · exact (exec_mtmsr r supervisor).trans (finishChecked_of_due (due_iff.mpr due))

/-! ## System call (R314) -/

/-- Settles O45: `sc` is the entry sequence, resuming at the next instruction. -/
theorem scEntersSystemCall : Obligations.ScEntersSystemCall := by
  intro s hr hile
  obtain ⟨t, entry⟩ := take_of_ile .systemCall (s.pc + 4#32) hile
  exact ⟨t, entry, entersException_of_take hr entry fun h => by cases h⟩

/-! ## Return from an exception (R316) -/

theorem exec_rfi {s : State} (hp : s.pr = false) : exec .rfi s = s.returnFromException.finishChecked :=
  if_neg (by rw [hp]; simp)

/-- MSR[0:15] stands over a return, its reserved bits holding nothing (R316). -/
theorem bitOf_restored_high {s : State} (hr : s.ReservedZero) {j : Nat} (hj : j < 16) :
    bitOf s.returnFromException.msr j = bitOf s.msr j := by
  rw [bitOf_restored s j (by omega), if_pos hj, ← bitOf_and, msr_mask_self hr]

/-- MSR[16:31] comes from SRR1[16:31] under the defined bits of that half (R66, R316). -/
theorem bitOf_restored_low (s : State) {j : Nat} (h16 : 16 ≤ j) (hj : j < 32) :
    bitOf s.returnFromException.msr j = (bitOf s.srr1 j && bitOf 0x0000FF43#32 j) := by
  have sameMask : bitOf 0x0001FF43#32 j = bitOf 0x0000FF43#32 j := by interval_cases j <;> decide
  rw [bitOf_restored s j hj, if_neg (by omega), sameMask]

/-- A return writes the MSR and `pc` only (R316). -/
theorem returnFromException_unchanged (s : State) : Unchanged msrParts s s.returnFromException :=
  (setMsr_unchanged_parts s _).trans (branchTo_unchanged _ _)

/-- Settles O46: the two clauses are the two answers of the check after the return. -/
theorem rfiRestores : Obligations.RfiRestores := by
  intro s hr supervisor
  have due_iff := returnFromException_due_iff s
  refine ⟨fun notDue => ?_, fun due => ?_⟩
  · exact ⟨_, (exec_rfi supervisor).trans (finishChecked_of_not_due (mt due_iff.mp notDue)),
      fun j hj => bitOf_restored_high hr hj, fun j h16 hj => bitOf_restored_low s h16 hj,
      instructionAddress_eq s.srr0, returnFromException_unchanged s⟩
  · exact (exec_rfi supervisor).trans (finishChecked_of_due (due_iff.mpr due))

end Sys2Proof.Machine

/-! The statements of 46_support.md: what `addi` and `lwz` compute, and where `lwz` stops. -/
namespace Sys2Proof.Machine

/-! ## The base register that reads as zero (R330, R331) -/

/-- `(rA|0)` and a sign-extended immediate, as the claims write them: the sum of `addi`, the address of `lwz`. -/
theorem effectiveAddress_eq (s : State) (rA : Five) (d : BitVec 16) :
    s.effectiveAddress rA d = (if rA = 0#5 then 0#32 else s.gprAt rA) + BitVec.ofInt 32 d.toInt :=
  congrArg (s.baseOrZero rA + ·) (signedImm_eq d)

/-! ## Add immediate (R330) -/

theorem exec_addi (rD rA : Five) (simm : BitVec 16) (s : State) :
    exec (.addi rD rA simm) s = .next (s.setGpr rD (s.effectiveAddress rA simm)).advance := rfl

/-- Settles O10: the sum is formed like the address of a load, and it is written as every GPR write ends. -/
theorem addiAddsToBaseOrZero : Obligations.AddiAddsToBaseOrZero := by
  intro rD rA simm s
  rw [← effectiveAddress_eq]
  exact ⟨_, exec_addi rD rA simm s, setGpr_advance_reads s rD _⟩

/-! ## The outcomes of a load (R331) -/

section
variable {s : State} {rD rA : Five} {d : BitVec 16}

/-- In little-endian mode nothing is loaded (R123). -/
theorem exec_lwz_littleEndian (hle : s.le = true) : exec (.lwz rD rA d) s = .refused .littleEndianAccess := if_pos hle

/-- At a misaligned address nothing is loaded (R125). -/
theorem exec_lwz_misaligned (hle : s.le = false) (misaligned : (s.effectiveAddress rA d).toNat % 4 ≠ 0) :
    exec (.lwz rD rA d) s = .refused (.misalignedAccess (s.effectiveAddress rA d)) := by
  change execLwz rD rA d s = _
  simp [execLwz, hle, aligned_iff, misaligned]

/-- A load outside memory faults (R121). -/
theorem exec_lwz_outsideMemory (hle : s.le = false) (aligned : (s.effectiveAddress rA d).toNat % 4 = 0)
    (hword : s.memRead (s.effectiveAddress rA d) = none) :
    exec (.lwz rD rA d) s = .fault (.outsideMemMap (s.effectiveAddress rA d)) := by
  change execLwz rD rA d s = _
  simp [execLwz, hle, aligned_iff, aligned, hword]

/-- An aligned word of memory goes to `rD` in big-endian mode (R121, R123). -/
theorem exec_lwz_loads {v : Word} (hle : s.le = false) (aligned : (s.effectiveAddress rA d).toNat % 4 = 0)
    (hword : s.memRead (s.effectiveAddress rA d) = some v) :
    exec (.lwz rD rA d) s = .next (s.setGpr rD v).advance := by
  change execLwz rD rA d s = _
  simp [execLwz, hle, aligned_iff, aligned, hword]

end

/-- Settles O15: the four bytes are the word that is read, and it is written as every GPR write ends. -/
theorem lwzLoadsBigEndianWord : Obligations.LwzLoadsBigEndianWord := by
  intro rD rA d s ea b0 b1 b2 b3 hea hle aligned h0 h1 h2 h3
  rw [← effectiveAddress_eq] at hea
  subst hea
  obtain ⟨value, pc, frame⟩ := setGpr_advance_reads s rD (wordOfBytes b0 b1 b2 b3)
  exact ⟨_, exec_lwz_loads hle aligned (memRead_of_bytes h0 h1 h2 h3),
    (congrArg BitVec.toNat value).trans (wordOfBytes_toNat b0 b1 b2 b3), pc, frame⟩

/-- Settles O16: the three stops of a load, at the address as the claim writes it. -/
theorem lwzStops : Obligations.LwzStops := by
  intro rD rA d s ea hea
  rw [← effectiveAddress_eq] at hea
  subst hea
  exact ⟨exec_lwz_littleEndian, exec_lwz_misaligned,
    fun hle aligned hbyte => exec_lwz_outsideMemory hle aligned (memRead_none hbyte)⟩

end Sys2Proof.Machine

/-! The statements of 60_exceptions.md: the entry sequence and when it is taken, what user level can reach, and the three
agents beside the processor. -/
namespace Sys2Proof.Machine

/-! ## Privileged instructions (R283, R341, R369) -/

/-- The instructions that user level may not run: `mfmsr`, `mtmsr`, `rfi`, and the moves that name a supervisor-level
register. -/
def privileged : Instr → Bool
  | .mfmsr _ | .mtmsr _ | .rfi => true
  | .mtspr n _ => (sprOfNumber n).any sprSupervisor
  | .mfspr _ n => (sprForRead n).any sprSupervisor
  | _ => false

/-- Each of them is the program exception at user level (R369, decision D16). -/
theorem exec_privileged_of_user {i : Instr} {s : State} (hi : privileged i = true) (hp : s.pr = true) :
    exec i s = s.take .program s.pc := by
  cases i with
  | mfmsr r => exact if_pos hp
  | mtmsr r => exact if_pos hp
  | rfi => exact if_pos hp
  | mtspr n r =>
    obtain ⟨q, named, supervisor⟩ := (Option.any_eq_true _ _).mp hi
    exact exec_mtspr_of_user r named supervisor hp
  | mfspr r n =>
    obtain ⟨q, named, supervisor⟩ := (Option.any_eq_true _ _).mp hi
    exact exec_mfspr_of_user r named supervisor hp
  | _ => cases hi

/-- The numbers that R100 lists as supervisor level for `mtspr` name supervisor-level registers. -/
theorem privileged_mtspr {n : BitVec 10} (hn : n ∈ supervisorWriteNumbers) (r : Five) : privileged (.mtspr n r) = true := by
  rcases List.mem_append.mp hn with described | undescribed
  · fin_cases described <;> rfl
  · obtain ⟨u, writes⟩ := undescribed_names_unit undescribed
    simp [privileged, writes, sprSupervisor]

/-- The numbers that R100 lists as supervisor level for `mfspr` name supervisor-level registers. -/
theorem privileged_mfspr {n : BitVec 10} (hn : n ∈ supervisorReadNumbers) (r : Five) : privileged (.mfspr r n) = true := by
  rcases List.mem_append.mp hn with described | undescribed
  · fin_cases described <;> rfl
  · obtain ⟨u, writes⟩ := undescribed_names_unit undescribed
    have reads : sprForRead n = some (.unit u) := sprForRead_eq_some_iff.mpr ⟨writes, by simp⟩
    simp [privileged, reads, sprSupervisor]

/-- Settles O40: each form is privileged, so at user level it is the program exception, and nothing but its entry
happens. -/
theorem privilegeViolationTakesProgram : Obligations.PrivilegeViolationTakesProgram := by
  intro i s hr user hile form
  have hi : privileged i = true := by
    rcases form with ⟨r, rfl⟩ | ⟨r, rfl⟩ | rfl | ⟨n, hn, r, rfl⟩ | ⟨n, hn, r, rfl⟩
    · rfl
    · rfl
    · rfl
    · exact privileged_mtspr hn r
    · exact privileged_mfspr hn r
  exact exec_enters (e := .program) hr hile (by simp) (exec_privileged_of_user hi user)

/-- The register that an unprivileged `mtspr` writes is XER, LR or CTR (R283). -/
theorem supervisor_eq_false_of_mem_sprParts {n : BitVec 10} (hn : (sprOfNumber n).any sprSupervisor = false) :
    ∀ p ∈ sprParts n, p.supervisor = false := by
  cases named : sprOfNumber n with
  | none => simp [sprParts, named]
  | some q =>
    have user : sprSupervisor q = false := by simpa [named] using hn
    cases q with
    | xer | lr | ctr => simp [sprParts, named, xerParts, Part.supervisor]
    | _ => cases user

/-- An unprivileged instruction has no supervisor piece of state in its frame (R341). -/
theorem supervisor_eq_false_of_mem_mayWrite {i : Instr} (hi : privileged i = false) :
    ∀ p ∈ mayWrite i, p.supervisor = false := by
  cases i with
  | mfmsr | mtmsr | rfi => cases hi
  | mtspr n r => exact supervisor_eq_false_of_mem_sprParts hi
  | mtcrf crm rS =>
    intro p hp
    obtain ⟨n, _, rfl⟩ := List.mem_map.mp hp
    rfl
  | subfc rD rA rB oe rc | mtfsb1 d rc | mtfsb0 d rc | mtfsfi d imm rc | mtfsf fm r rc =>
    cases rc <;> simp [mayWrite, xerParts, fpscrParts, Part.supervisor, or_imp, forall_and]
  | _ => simp [mayWrite, xerParts, fpscrParts, Part.supervisor]

/-! ## The entry sequence (R352 to R355) -/

/-- Settles O47: the entry sequence is the operation `State.take`, read off field by field. -/
theorem exceptionEntrySequence : Obligations.ExceptionEntrySequence := by
  intro s e offset resume taken
  refine ⟨fun hr hile => ?_, fun hile => take_refused_of_ile e resume hile⟩
  obtain ⟨t, entry⟩ := take_of_ile e resume hile
  have enters : EntersException e.offset resume [.decReq] s t := entersException_of_take hr entry (by simp)
  rw [offset_eq_of_mem_takenExceptions taken] at enters
  refine ⟨t, entry, enters, ?_⟩
  obtain ⟨_, rfl⟩ := take_next_iff.mp entry
  have request : (if e = .decrementer then false else s.decReq) = (s.decReq && decide (e ≠ .decrementer)) := by
    by_cases he : e = .decrementer <;> simp [he]
  exact ⟨entryMsr_eq s.msr hile, request, high_append _ _, rfl⟩

/-- The entry that a step makes, seen from before its turn was taken off the schedule (log 7). -/
theorem entersException_of_popTurn_take {s t : State} {e : ExceptionKind} {resume : Word} {also : List Part}
    (hr : s.ReservedZero) (h : s.popTurn.take e resume = .next t) (hschedule : Part.schedule ∈ also)
    (hrequest : e = .decrementer → Part.decReq ∈ also) : EntersException e.offset resume also s t := by
  have entry : EntersException e.offset resume also s.popTurn t := entersException_of_take (s := s.popTurn) hr h hrequest
  obtain ⟨savedAddress, savedStatus, cleared, byteOrder, target, frame⟩ := entry
  refine ⟨savedAddress, savedStatus, cleared, byteOrder, target, ((popTurn_unchanged s).trans frame).mono ?_⟩
  simp [hschedule]

/-! ## User level (R340 to R342) -/

/-- The exceptions an instruction can take at user level, as offsets, and where they resume (R350). -/
theorem Raises.at_user_level {s : State} {e : ExceptionKind} {resume : Word} (h : Raises s e resume) (hp : s.pr = true) :
    e.offset ∈ [0x00500#32, 0x00700#32, 0x00800#32, 0x00900#32, 0x00C00#32] ∧
      (resume = s.pc ∨ resume = s.pc + 4#32) := by
  rcases h with ⟨rfl, rfl⟩ | ⟨rfl, _, rfl⟩ | ⟨rfl, _, rfl⟩ | ⟨_, supervisor, _⟩
  · exact ⟨by decide, .inr rfl⟩
  · exact ⟨by decide, .inl rfl⟩
  · exact ⟨by decide, .inl rfl⟩
  · simp [hp] at supervisor

/-- An instruction at user level leaves every supervisor piece of state, or takes an exception (R341). -/
theorem exec_user_next_cases {i : Instr} {s t : State} (hp : s.pr = true) (h : exec i s = .next t) :
    (∀ p : Part, p.supervisor = true → p.same s t) ∨ ∃ e resume, Raises s e resume ∧ s.take e resume = .next t := by
  cases hi : privileged i with
  | true => exact .inr ⟨.program, s.pc, .inr (.inl ⟨rfl, hp, rfl⟩), (exec_privileged_of_user hi hp).symm.trans h⟩
  | false =>
    refine (exec_next_cases h).imp_left fun frame p supervisor => frame p fun written => ?_
    exact absurd supervisor (Bool.eq_false_iff.mp (supervisor_eq_false_of_mem_mayWrite hi p written))

/-- Taking a turn off the schedule leaves every supervisor piece of state (log 7). -/
theorem popTurn_keeps_supervisor (s : State) {p : Part} (hp : p.supervisor = true) : p.same s s.popTurn := by
  refine popTurn_unchanged s p fun scheduled => ?_
  rw [List.mem_singleton.mp scheduled] at hp
  cases hp

/-- Settles O55: at a boundary the processor takes one of the two asynchronous exceptions or runs an instruction, and an
instruction at user level leaves the supervisor state or takes an exception. -/
theorem userLevelCannotReachSupervisorState : Obligations.UserLevelCannotReachSupervisorState := by
  intro s t r ⟨hr, _⟩ user turn h
  rw [step_processor turn] at h
  obtain ⟨_, ⟨e, asynchronous, entry⟩ | ⟨_, run⟩⟩ := processorTurn_next_cases h
  · have offset : e.offset ∈ [0x00500#32, 0x00700#32, 0x00800#32, 0x00900#32, 0x00C00#32] := by
      rcases interruptTaken_kind asynchronous with rfl | rfl <;> decide
    exact .inr ⟨e.offset, s.pc, offset, .inl rfl, entersException_of_popTurn_take hr entry (by simp) (by simp)⟩
  · obtain ⟨_, _, w, i, _, _, runs⟩ := runInstruction_next_cases run
    rcases exec_user_next_cases (s := s.popTurn) user runs with kept | ⟨e, resume, raises, entry⟩
    · exact .inl fun p supervisor => Part.same_trans (popTurn_keeps_supervisor s supervisor) (kept p supervisor)
    · obtain ⟨offset, resumes⟩ := raises.at_user_level user
      exact .inr ⟨e.offset, resume, offset, resumes, entersException_of_popTurn_take hr entry (by simp) (by simp)⟩

/-! ## Asynchronous exceptions (R360 to R362) -/

section
variable {s : State} {r : Recognition}

/-- The external interrupt is taken while it is enabled and requested and the turn allows it (R360). -/
theorem interruptTaken_external (hee : bitOf s.msr 16 = true) (hirq : s.extIrq = true)
    (hr : r = .external ∨ r = .anyPending) : s.interruptTaken r = some .externalInterrupt := by
  have pending : s.externalPending = true := Bool.and_eq_true_iff.mpr ⟨hee, hirq⟩
  rcases hr with rfl | rfl
  · exact if_pos pending
  · exact if_pos pending

/-- The decrementer exception is taken while it is enabled and requested and the turn asks for it, or for any and the
external interrupt is not requested (R361, log 8). -/
theorem interruptTaken_decrementer (hee : bitOf s.msr 16 = true) (hreq : s.decReq = true)
    (hr : r = .decrementer ∨ (r = .anyPending ∧ s.extIrq = false)) : s.interruptTaken r = some .decrementer := by
  have pending : s.decrementerPending = true := Bool.and_eq_true_iff.mpr ⟨hee, hreq⟩
  rcases hr with rfl | ⟨rfl, noIrq⟩
  · exact if_pos pending
  · have notExternal : ¬ s.externalPending = true := by simp [State.externalPending, noIrq]
    exact (if_neg notExternal).trans (if_pos pending)

/-- With EE = 0, or where the turn asks for nothing that is requested, no exception is taken (R362). -/
theorem interruptTaken_none (h : bitOf s.msr 16 = false ∨ r = .execute ∨ (s.extIrq = false ∧ s.decReq = false) ∨
    (r = .external ∧ s.extIrq = false) ∨ (r = .decrementer ∧ s.decReq = false)) : s.interruptTaken r = none := by
  rcases h with disabled | rfl | ⟨noIrq, noReq⟩ | ⟨rfl, noIrq⟩ | ⟨rfl, noReq⟩
  · cases r <;> simp [State.interruptTaken, State.externalPending, State.decrementerPending, State.ee, disabled]
  · rfl
  · cases r <;> simp [State.interruptTaken, State.externalPending, State.decrementerPending, noIrq, noReq]
  · simp [State.interruptTaken, State.externalPending, noIrq]
  · simp [State.interruptTaken, State.decrementerPending, noReq]

/-- A step whose turn takes an exception resumes at the instruction that did not run (R353). -/
theorem step_of_interruptTaken {e : ExceptionKind} (turn : s.nextTurn = .processor r) (hd : s.fpExceptionDue = false)
    (he : s.interruptTaken r = some e) : step s = s.popTurn.take e s.pc := by
  have due : s.popTurn.fpExceptionDue = false := hd
  simp [step_processor turn, State.processorTurn, due, he]

/-- A processor's step that takes no exception runs the instruction (R362). -/
theorem step_of_interruptTaken_none (turn : s.nextTurn = .processor r) (hd : s.fpExceptionDue = false)
    (he : s.interruptTaken r = none) : step s = s.popTurn.runInstruction :=
  step_runs (by simp [State.instructionIsNext, turn, he]) hd

/-- Such a step enters the exception, with MSR[ILE] = 0 (R352). -/
theorem step_enters {e : ExceptionKind} {also : List Part} (turn : s.nextTurn = .processor r)
    (hd : s.fpExceptionDue = false) (he : s.interruptTaken r = some e) (hr : s.ReservedZero)
    (hile : bitOf s.msr 15 = false) (hschedule : Part.schedule ∈ also)
    (hrequest : e = .decrementer → Part.decReq ∈ also) :
    ∃ t, s.popTurn.take e s.pc = .next t ∧ step s = .next t ∧ EntersException e.offset s.pc also s t := by
  obtain ⟨t, entry⟩ := take_of_ile (s := s.popTurn) e s.pc hile
  exact ⟨t, entry, (step_of_interruptTaken turn hd he).trans entry,
    entersException_of_popTurn_take hr entry hschedule hrequest⟩

/-- With MSR[ILE] = 1 such a step is refused (R352, decision D3). -/
theorem step_refused_of_ile {e : ExceptionKind} (turn : s.nextTurn = .processor r) (hd : s.fpExceptionDue = false)
    (he : s.interruptTaken r = some e) (hile : bitOf s.msr 15 = true) : step s = .refused .littleEndianEntry :=
  (step_of_interruptTaken turn hd he).trans (take_refused_of_ile (s := s.popTurn) e s.pc hile)

end

/-- The decrementer exception clears its request (R361). -/
theorem take_decrementer_decReq {s t : State} {resume : Word} (h : s.take .decrementer resume = .next t) :
    t.decReq = false := by
  obtain ⟨_, rfl⟩ := take_next_iff.mp h
  rfl

/-- Settles O48: which exception the boundary takes decides the step, and the entry sequence the rest. -/
theorem asynchronousExceptionsAreTakenAtBoundaries : Obligations.AsynchronousExceptionsAreTakenAtBoundaries := by
  intro s r turn hr hd
  refine ⟨fun hee hile hirq asks => ?_, fun hee hile hreq asks => ?_, fun hee hile asks => ?_, fun asks => ?_⟩
  · obtain ⟨t, _, run, enters⟩ := step_enters (also := [.schedule]) turn hd (interruptTaken_external hee hirq asks) hr hile
      (by simp) (by simp)
    exact ⟨t, run, enters⟩
  · obtain ⟨t, entry, run, enters⟩ := step_enters (also := [.schedule, .decReq]) turn hd
      (interruptTaken_decrementer hee hreq asks) hr hile (by simp) (by simp)
    exact ⟨t, run, enters, take_decrementer_decReq entry⟩
  · have taken : ∃ e, s.interruptTaken r = some e := by
      rcases asks with ⟨hirq, asks⟩ | ⟨hreq, rfl | rfl⟩
      · exact ⟨_, interruptTaken_external hee hirq asks⟩
      · exact ⟨_, interruptTaken_decrementer hee hreq (.inl rfl)⟩
      · cases hirq : s.extIrq with
        | true => exact ⟨_, interruptTaken_external hee hirq (.inr rfl)⟩
        | false => exact ⟨_, interruptTaken_decrementer hee hreq (.inr ⟨rfl, hirq⟩)⟩
    obtain ⟨e, he⟩ := taken
    exact step_refused_of_ile turn hd he hile
  · exact step_of_interruptTaken_none turn hd (interruptTaken_none asks)

/-! ## The time base (R370) -/

/-- TBU and TBL together are the 64-bit count (R60). -/
theorem tbu_tbl_toNat (s : State) : s.tbu.toNat * 2 ^ 32 + s.tbl.toNat = s.tb.toNat := by
  rw [tbu_toNat, tbl_toNat, Nat.div_add_mod']

/-- A tick writes the two halves of the time base and nothing else. -/
theorem tickTimeBase_unchanged (s : State) : Unchanged [.tbu, .tbl] s s.tickTimeBase := by
  intro p hp
  cases p with
  | tbu | tbl => simp at hp
  | _ => rfl

/-- Settles O49: the turn is one increment of the 64-bit count. -/
theorem timeBaseAgentStep : Obligations.TimeBaseAgentStep := by
  intro s rest hs
  obtain ⟨run, popped⟩ := step_schedule hs
  refine ⟨s.popTurn.tickTimeBase, run, ?_, popped, rfl,
    ((popTurn_unchanged s).trans (tickTimeBase_unchanged _)).mono (by simp)⟩
  rw [tbu_tbl_toNat, tbu_tbl_toNat]
  exact BitVec.toNat_add s.tb 1#64

/-! ## The decrementer (R371) -/

/-- Counting down by one makes a word negative exactly at the step from 0: bit 0 goes from 0 to 1 there alone (R78). -/
theorem sign_set_by_decrement_iff (v : Word) : (0 ≤ v.toInt ∧ (v - 1#32).toInt < 0) ↔ v = 0#32 := by
  rw [BitVec.toInt_eq_toNat_cond, BitVec.toInt_eq_toNat_cond, BitVec.toNat_sub, BitVec.toNat_eq, BitVec.toNat_ofNat,
    BitVec.toNat_ofNat]
  have := v.isLt
  omega

/-- Counting down by one is modulo 2^32 (R371). -/
theorem toNat_decrement (v : Word) : ((v - 1#32).toNat : Int) = ((v.toNat : Int) - 1) % 2 ^ 32 := by
  rw [BitVec.toNat_sub, BitVec.toNat_ofNat]
  have := v.isLt
  omega

/-- Settles O50: the turn is a write of DEC with its predecessor, and the request rule is that of every write of DEC. -/
theorem decrementerAgentStep : Obligations.DecrementerAgentStep := by
  intro s rest hs
  obtain ⟨run, popped⟩ := step_schedule hs
  refine ⟨s.popTurn.tickDecrementer, run, toNat_decrement s.dec, ?_, popped, rfl,
    ((popTurn_unchanged s).trans (setDec_unchanged _ _)).mono (by simp)⟩
  exact (setDec_request_iff s.popTurn _).trans (or_congr_right (sign_set_by_decrement_iff s.dec))

/-! ## The request input (R360) -/

/-- No instruction has the request input in its frame (R115). -/
theorem extIrq_notMem_mayWrite (i : Instr) : Part.extIrq ∉ mayWrite i := by
  cases i with
  | mtspr n r =>
    show _ ∉ sprParts n
    unfold sprParts
    split <;> simp [xerParts, msrParts]
  | _ => simp [mayWrite, selectedFields, xerParts, msrParts, fpscrParts]

/-- An exception entry leaves the request input (R360). -/
theorem take_extIrq {s t : State} {e : ExceptionKind} {resume : Word} (h : s.take e resume = .next t) :
    t.extIrq = s.extIrq := by
  obtain ⟨_, rfl⟩ := take_next_iff.mp h
  rfl

/-- The processor's turn leaves the request input: it takes an exception or runs an instruction. -/
theorem processorTurn_extIrq {s t : State} {r : Recognition} (h : s.processorTurn r = .next t) : t.extIrq = s.extIrq := by
  obtain ⟨_, ⟨_, _, entry⟩ | ⟨_, run⟩⟩ := processorTurn_next_cases h
  · exact take_extIrq entry
  · obtain ⟨_, _, _, i, _, _, runs⟩ := runInstruction_next_cases run
    rcases exec_next_cases runs with frame | ⟨_, _, _, entry⟩
    · exact frame .extIrq (extIrq_notMem_mayWrite i)
    · exact take_extIrq entry

/-- Driving the request input writes nothing else. -/
theorem setExtIrq_unchanged (s : State) (level : Bool) : Unchanged [.extIrq] s (s.setExtIrq level) := by
  intro p hp
  cases p with
  | extIrq => simp at hp
  | _ => rfl

/-- Settles O51: the input after each kind of turn; the environment's turn is one write of the input. -/
theorem requestInputIsDrivenByEnvironment : Obligations.RequestInputIsDrivenByEnvironment := by
  refine ⟨fun s t h => ?_, fun s level rest hs => ?_⟩
  · unfold step at h
    cases turn : s.nextTurn with
    | processor r => rw [turn] at h; exact processorTurn_extIrq (s := s.popTurn) h
    | timeBase => rw [turn] at h; cases h; rfl
    | decrementer => rw [turn] at h; cases h; rfl
    | externalRequest level => rw [turn] at h; cases h; rfl
  · obtain ⟨run, popped⟩ := step_schedule hs
    exact ⟨s.popTurn.setExtIrq level, run, rfl, popped, rfl,
      ((popTurn_unchanged s).trans (setExtIrq_unchanged _ level)).mono (by simp)⟩

end Sys2Proof.Machine
